-- ==== Sys2Proof/Word.lean ====
section
/-! DEFINITION. The widths of the core (00_scope.md R9, R11, R12): bytes, 16-bit words, register numbers. -/

namespace Sys2Proof

/-- A memory byte, a general register, a timer, an 8-bit immediate. -/
abbrev Byte := BitVec 8

/-- A 16-bit instruction word, the index register, the program counter. -/
abbrev Word := BitVec 16

/-- The number of a general register, `V0` to `VF` (10_state.md R20). -/
abbrev Reg := Fin 16

/-- `VF`, the register that also takes the flags (10_state.md R21). -/
abbrev vf : Reg := 15

end Sys2Proof
end

