-- ==== Sys2Proof/Config.lean ====
section
/-! DEFINITION. What is fixed for one machine: the configuration record `CFG` (00_scope.md R8, R10), the constants the
spec gives a default, the free values (opaque: nothing can be proved of what they are), and the two open functions of the
synthesizer. -/

namespace Sys2Proof

/-- One palette colour, three 8-bit components (10_state.md R33). -/
structure Rgb where
  r : Byte
  g : Byte
  b : Byte
  deriving DecidableEq, Repr

/-- The persistent flag vector's contents, 16 bytes (10_state.md R34). -/
abbrev FlagVec := Vector Byte 16

/-- A number from `lo` to `hi`. -/
abbrev Extent (lo hi : Nat) := { n : Nat // lo ≤ n ∧ n ≤ hi }

/-- The encoding parameters `ENC_*` (30_encoding.md R90), each in the layout R83 gives its operation: a group-0 word by its
low byte (`x` is 0, R86), a scroll by the nibble before its `n`, an extended word by its sub-opcode `nn`. Log entry 15. -/
structure Encodings where
  /-- `ENC_CLEAR` -/
  clear : Byte
  /-- `ENC_RET` -/
  ret : Byte
  /-- `ENC_SCROLL_DOWN` -/
  scrollDown : BitVec 4
  /-- `ENC_SCROLL_UP` -/
  scrollUp : BitVec 4
  /-- `ENC_SCROLL_RIGHT` -/
  scrollRight : Byte
  /-- `ENC_SCROLL_LEFT` -/
  scrollLeft : Byte
  /-- `ENC_EXIT` -/
  exit : Byte
  /-- `ENC_LORES` -/
  lores : Byte
  /-- `ENC_HIRES` -/
  hires : Byte
  /-- `ENC_INVERT` -/
  invert : Byte
  /-- `ENC_MODE_OR` -/
  modeOr : Byte
  /-- `ENC_MODE_AND` -/
  modeAnd : Byte
  /-- `ENC_MODE_XOR` -/
  modeXor : Byte
  /-- `ENC_PLANE` -/
  plane : Byte
  /-- `ENC_PATTERN` -/
  pattern : Byte
  /-- `ENC_GET_DT` -/
  getDt : Byte
  /-- `ENC_SET_DT` -/
  setDt : Byte
  /-- `ENC_SET_ST` -/
  setSt : Byte
  /-- `ENC_ADD_I` -/
  addI : Byte
  /-- `ENC_FONT` -/
  font : Byte
  /-- `ENC_BIGFONT` -/
  bigFont : Byte
  /-- `ENC_BCD` -/
  bcd : Byte
  /-- `ENC_PITCH` -/
  pitch : Byte
  /-- `ENC_VOLUME` -/
  volume : Byte
  /-- `ENC_VOICE` -/
  voice : Byte
  /-- `ENC_CHAN` -/
  chan : Byte
  /-- `ENC_PALETTE` -/
  palette : Byte
  /-- `ENC_STORE` -/
  store : Byte
  /-- `ENC_LOAD` -/
  load : Byte
  /-- `ENC_FLAGS_OUT` -/
  flagsOut : Byte
  /-- `ENC_FLAGS_IN` -/
  flagsIn : Byte
  deriving DecidableEq, Repr

/-- The defaults of 30 R90. -/
def Encodings.default : Encodings where
  clear := 0xE0
  ret := 0xEE
  scrollDown := 0xC
  scrollUp := 0xD
  scrollRight := 0xFB
  scrollLeft := 0xFC
  exit := 0xFD
  lores := 0xFE
  hires := 0xFF
  invert := 0xE1
  modeOr := 0xF1
  modeAnd := 0xF2
  modeXor := 0xF3
  plane := 0x01
  pattern := 0x02
  getDt := 0x07
  setDt := 0x15
  setSt := 0x18
  addI := 0x1E
  font := 0x29
  bigFont := 0x30
  bcd := 0x33
  pitch := 0x3A
  volume := 0x3B
  voice := 0x3C
  chan := 0x3D
  palette := 0x3E
  store := 0x55
  load := 0x65
  flagsOut := 0x75
  flagsIn := 0x85

/-- The low bytes of the group-0 words other than the two scrolls. -/
def Encodings.machineKeys (e : Encodings) : List Byte :=
  [e.clear, e.invert, e.ret, e.modeOr, e.modeAnd, e.modeXor, e.scrollRight, e.scrollLeft, e.exit, e.lores, e.hires]

/-- The sub-opcodes of the extended group, 0x0A of FX0A, which is no parameter, among them. -/
def Encodings.extendedKeys (e : Encodings) : List Byte :=
  [0x0A, e.plane, e.pattern, e.getDt, e.setDt, e.setSt, e.addI, e.font, e.bigFont, e.bcd, e.pitch, e.volume, e.voice, e.chan,
    e.palette, e.store, e.load, e.flagsOut, e.flagsIn]

/-- "No two rows of the table match the same word" (30 R85): the words of each group are distinct, no group-0 word falls
under a scroll, and no sub-opcode is 0x00, where the long literal stands. A group-0 word may be 0x0000, which R86 calls illegal
under the default words: the spec bounds no override. DESIGN CHOICE, log entry 35. -/
def Encodings.unambiguous (e : Encodings) : Bool :=
  decide (e.machineKeys.Nodup ∧ e.scrollDown ≠ e.scrollUp ∧
    (∀ k ∈ e.machineKeys, k.extractLsb' 4 4 ≠ e.scrollDown ∧ k.extractLsb' 4 4 ≠ e.scrollUp) ∧
    e.extendedKeys.Nodup ∧ 0x00 ∉ e.extendedKeys)

/-- The configuration surface, "set before `init`, immutable during execution" (00_scope.md R8), with the parameters of R10
(log entries 15, 18, 25). Each field carries the name the spec gives it. -/
structure Config where
  /-- `CFG.EXTENDED`: 65536 bytes of memory instead of 4096. -/
  extended : Bool
  /-- `CFG.Q_SHIFT`: 8XY6 and 8XYE shift `Vx` in place. -/
  qShift : Bool
  /-- `CFG.Q_LOADSTORE`: FX55 and FX65 do not advance `I`. -/
  qLoadStore : Bool
  /-- `CFG.Q_CLIP`: sprite pixels outside the active resolution are dropped. -/
  qClip : Bool
  /-- `CFG.Q_JUMP`: BNNN adds `V[nnn[11:8]]`. -/
  qJump : Bool
  /-- `CFG.Q_LOGIC`: 8XY1, 8XY2, 8XY3 force `VF` to 0. -/
  qLogic : Bool
  /-- `CFG.Q_VBLANK`: read by nothing in the core (70 R306). -/
  qVblank : Bool
  /-- `CFG.TICKRATE`: read by nothing in the core (70 R310). -/
  tickRate : Nat
  /-- `FONT_SMALL`, the table `CFG.FONT_STYLE` selects (70 R291). -/
  fontSmall : Vector Byte 80
  /-- `FONT_BIG`, the table `CFG.FONT_STYLE` selects (70 R291). -/
  fontBig : Vector Byte 160
  /-- `CFG.MAX_PROGRAM_SIZE` (70 R297). -/
  maxProgramSize : Nat
  /-- `ENC_*` (00 R10, 30 R90), such that decoding is unambiguous (30 R85). -/
  enc : { e : Encodings // e.unambiguous = true }
  /-- `LORES_W` (00 R10, D10): within the grid, whose top-left part is the active region (10 R32), and not narrower than a
  sprite's row, which "never happens" (43 R192 e). Log entry 18. -/
  loresW : Extent 16 128
  /-- `LORES_H` (00 R10, D10), within the grid and not lower than a sprite. Log entry 18. -/
  loresH : Extent 16 64
  /-- `HSCROLL` (00 R10, D9). -/
  hScroll : Nat
  /-- `KEYS` (00 R10, D18): the logical key codes are 0 to `KEYS - 1`. -/
  keys : Nat
  /-- `PATTERN_BYTES` (00 R10, D25): at least one byte, no more than an address space holds. -/
  patternBytes : Extent 1 0x10000
  /-- `PAL_INIT`, the palette `Init` installs (10 R33). -/
  palInit : Vector Rgb 16
  /-- `DIV0`, the (quotient, remainder) of a division by zero (93 U1). -/
  div0 : Byte × Byte
  /-- `FS_OUT`, the output sample rate in Hz (45 R233), any positive fraction. Log entry 26. -/
  fsOut : { rate : ℚ // 0 < rate }
  /-- `SS`, the supersampling factor, where the host overrides the default of D27 (45 R233, R240). -/
  ss : Option Nat
  /-- `LPF` (00 R10, D27): a number for the filter step the host chose; `AudioFunctions.lpf` is what it stands for. -/
  lpf : Nat
  /-- `AMP` (00 R10, D27): a number for the amplitude map the host chose; `AudioFunctions.amp` is what it stands for. -/
  amp : Nat
  /-- `BLOCK_LEN`, the nominal pull: read by nothing, a pull names its own length (45 R251). -/
  blockLen : Nat
  /-- `QUEUE_TARGET`, the buffered duration the queue is trimmed to, in samples (45 R252). -/
  queueTarget : Nat
  deriving DecidableEq, Repr

namespace Config

/-- `STACK_MAX` (00 R9). -/
abbrev stackMax : Nat := 12

/-- Where `Init` copies the program and where `pc` starts (00 R9). -/
abbrev programOrigin : Nat := 0x200

/-- Where the big font starts: 16 glyphs of 5 bytes after address 0 (20 R62). -/
abbrev bigFontBase : Nat := 80

/-- `MAXW` × `MAXH` (00 R9). -/
abbrev maxW : Nat := 128
@[inherit_doc maxW] abbrev maxH : Nat := 64

/-- FREE VALUE: the byte the `RAND` port delivers at its `k`-th consultation when the host has queued none; "a free draw
under no law" (10 R41, D19). Log entry 7. -/
opaque freeRandom : Nat → Byte

/-- FREE VALUE: the answer of the `KEY_HELD` port at the `k`-th consultation, for a logical key code, when the host does
not drive the port (10 R40, 44 R214). Log entry 6. -/
opaque freeKeyHeld : Nat → Byte → Bool

/-- FREE VALUE: the answer of the `import_flags` port at the `k`-th consultation when the host has queued none: 16 bytes,
or absent (10 R45). Log entry 8. -/
opaque freeFlags : Nat → Option FlagVec

/-- The customary small font, which the spec shows as an example (93 G9). PRESUMED, log entry 2. -/
def customaryFont : List Byte :=
  [0xF0, 0x90, 0x90, 0x90, 0xF0, 0x20, 0x60, 0x20, 0x20, 0x70, 0xF0, 0x10, 0xF0, 0x80, 0xF0, 0xF0, 0x10, 0xF0, 0x10, 0xF0]
  ++ [0x90, 0x90, 0xF0, 0x10, 0x10, 0xF0, 0x80, 0xF0, 0x10, 0xF0, 0xF0, 0x80, 0xF0, 0x90, 0xF0, 0xF0, 0x10, 0x20, 0x40, 0x40]
  ++ [0xF0, 0x90, 0xF0, 0x90, 0xF0, 0xF0, 0x90, 0xF0, 0x10, 0xF0, 0xF0, 0x90, 0xF0, 0x90, 0x90, 0xE0, 0x90, 0xE0, 0x90, 0xE0]
  ++ [0xF0, 0x80, 0x80, 0x80, 0xF0, 0xE0, 0x90, 0x90, 0x90, 0xE0, 0xF0, 0x80, 0xF0, 0x80, 0xF0, 0xF0, 0x80, 0xF0, 0x80, 0x80]

/-- The configuration of `State.reset`: classic mode, every quirk false, `DIV0` = (0, 0) as D0 fixes it, the
defaults of 00 R10 and 30 R90 (64 × 32, 4, 16 keys, 16 pattern bytes, `SS` by its rule, the words `ENC_*`); the rest is the model's choice. DESIGN CHOICE, log entry 2. -/
def default : Config where
  extended := false
  qShift := false
  qLoadStore := false
  qClip := false
  qJump := false
  qLogic := false
  qVblank := false
  tickRate := 0
  fontSmall := ⟨⟨customaryFont⟩, by decide⟩
  fontBig := Vector.replicate 160 0
  maxProgramSize := 0xE00
  enc := ⟨Encodings.default, by decide⟩
  loresW := ⟨64, by decide⟩
  loresH := ⟨32, by decide⟩
  hScroll := 4
  keys := 16
  patternBytes := ⟨16, by decide⟩
  palInit := Vector.replicate 16 ⟨0, 0, 0⟩
  div0 := (0, 0)
  fsOut := ⟨48000, by norm_num⟩
  ss := none
  lpf := 0
  amp := 0
  blockLen := 0
  queueTarget := 0

end Config

/-- A reading of the OPEN functions `LPF` and `AMP` in the numbers `K` (the reals, or any ordered field: 45 R240). A claim
about audio is made for every reading; nothing is assumed of one. Log entry 25. -/
structure AudioFunctions (K : Type) where
  /-- `LPF(fval, fvel, s)`, the next `(fval, fvel)`: a total function of its three arguments and of the configuration only
  (45 R235). -/
  lpf : Config → K → K → Byte → K × K
  /-- `AMP`: from a filtered value to an output amplitude (45 R236). -/
  amp : Config → K → K

end Sys2Proof
end

