-- ==== Sys2Proof/Syntax.lean ====
section
/-! DEFINITION. The instructions: one constructor per row of spec/opcode_table.json (30_encoding.md R86 to R88, R93). -/

namespace Sys2Proof

/-- The 61 instructions. `x` and `y` are register numbers; `n`, `nn`, `nnn`, `nnnn` are unsigned immediates (30 R82, R84). -/
inductive Instr where
  /-- 00CN, scroll down. -/
  | scd (n : BitVec 4)
  /-- 00DN, scroll up. -/
  | scu (n : BitVec 4)
  /-- 00E0, clear. -/
  | cls
  /-- 00E1, invert. -/
  | inv
  /-- 00EE, return. -/
  | ret
  /-- 00F1, draw mode OR. -/
  | dmor
  /-- 00F2, draw mode AND. -/
  | dmand
  /-- 00F3, draw mode XOR. -/
  | dmxor
  /-- 00FB, scroll right. -/
  | scr
  /-- 00FC, scroll left. -/
  | scl
  /-- 00FD, exit. -/
  | exit
  /-- 00FE, low resolution. -/
  | low
  /-- 00FF, high resolution. -/
  | high
  /-- 1NNN, jump. -/
  | jp (nnn : BitVec 12)
  /-- 2NNN, call. -/
  | call (nnn : BitVec 12)
  /-- 3XNN, skip if `Vx = nn`. -/
  | seImm (x : Reg) (nn : Byte)
  /-- 4XNN, skip if `Vx ≠ nn`. -/
  | sneImm (x : Reg) (nn : Byte)
  /-- 5XY0, skip if `Vx = Vy`. -/
  | seReg (x y : Reg)
  /-- 5XY2, save a register range. -/
  | save (x y : Reg)
  /-- 5XY3, load a register range. -/
  | load (x y : Reg)
  /-- 6XNN, load immediate. -/
  | ldImm (x : Reg) (nn : Byte)
  /-- 7XNN, add immediate. -/
  | addImm (x : Reg) (nn : Byte)
  /-- 8XY0, move. -/
  | ldReg (x y : Reg)
  /-- 8XY1, bitwise OR. -/
  | or (x y : Reg)
  /-- 8XY2, bitwise AND. -/
  | and (x y : Reg)
  /-- 8XY3, bitwise XOR. -/
  | xor (x y : Reg)
  /-- 8XY4, add. -/
  | addReg (x y : Reg)
  /-- 8XY5, subtract. -/
  | sub (x y : Reg)
  /-- 8XY6, shift right. -/
  | shr (x y : Reg)
  /-- 8XY7, reverse subtract. -/
  | subn (x y : Reg)
  /-- 8XYC, multiply. -/
  | mul (x y : Reg)
  /-- 8XYD, divide. -/
  | div (x y : Reg)
  /-- 8XYE, shift left. -/
  | shl (x y : Reg)
  /-- 8XYF, reverse divide. -/
  | divn (x y : Reg)
  /-- 9XY0, skip if `Vx ≠ Vy`. -/
  | sneReg (x y : Reg)
  /-- ANNN, load index. -/
  | ldI (nnn : BitVec 12)
  /-- BNNN, jump with offset. -/
  | jpOff (nnn : BitVec 12)
  /-- CXNN, random byte under mask. -/
  | rnd (x : Reg) (nn : Byte)
  /-- DXYN, draw a sprite. -/
  | drw (x y : Reg) (n : BitVec 4)
  /-- EX9E, skip if the key is held. -/
  | skp (x : Reg)
  /-- EXA1, skip if the key is not held. -/
  | sknp (x : Reg)
  /-- F000 NNNN, long literal. -/
  | ldl (nnnn : Word)
  /-- FN01, plane mask; the `x` field is a literal. -/
  | plane (n : BitVec 4)
  /-- FM02, audio pattern load; the `x` field is a literal. -/
  | audio (m : BitVec 4)
  /-- FX07, read the delay timer. -/
  | ldVxDt (x : Reg)
  /-- FX0A, wait for a key. -/
  | ldVxK (x : Reg)
  /-- FX15, write the delay timer. -/
  | ldDtVx (x : Reg)
  /-- FX18, write the sound timer and start the voice. -/
  | ldStVx (x : Reg)
  /-- FX1E, add to the index. -/
  | addI (x : Reg)
  /-- FX29, small glyph address. -/
  | ldF (x : Reg)
  /-- FX30, big glyph address. -/
  | ldHf (x : Reg)
  /-- FX33, binary-coded decimal. -/
  | ldB (x : Reg)
  /-- FX3A, voice pitch. -/
  | pitch (x : Reg)
  /-- FX3B, voice volume. -/
  | vol (x : Reg)
  /-- FX3C, voice select. -/
  | voice (x : Reg)
  /-- FX3D, voice channel mask. -/
  | chan (x : Reg)
  /-- FX3E, palette load. -/
  | pal (x : Reg)
  /-- FX55, store `V0..Vx`. -/
  | storeRegs (x : Reg)
  /-- FX65, load `V0..Vx`. -/
  | loadRegs (x : Reg)
  /-- FX75, export flags. -/
  | flagsOut (x : Reg)
  /-- FX85, import flags. -/
  | flagsIn (x : Reg)
  deriving DecidableEq, Repr

end Sys2Proof
end

