-- ==== Sys2Proof/WellFormed.lean ====
section
/-! DEFINITION. Which instructions have a word of their own: the two operand checks of the opcode table
(43_display.md R186, 45_audio.md R222). -/

namespace Sys2Proof

/-- FN01 takes `N` from 1 to 15, FM02 takes `M` from 0 to 3; every other operand field takes all its values (30 R84). -/
def Instr.wf : Instr → Bool
  | .plane n => n ≠ 0
  | .audio m => m ≤ 3
  | .scd _ | .scu _ | .cls | .inv | .ret | .dmor | .dmand | .dmxor | .scr | .scl | .exit | .low | .high => true
  | .jp _ | .call _ | .seImm _ _ | .sneImm _ _ | .seReg _ _ | .save _ _ | .load _ _ => true
  | .ldImm _ _ | .addImm _ _ | .ldReg _ _ | .or _ _ | .and _ _ | .xor _ _ | .addReg _ _ | .sub _ _ => true
  | .shr _ _ | .subn _ _ | .mul _ _ | .div _ _ | .shl _ _ | .divn _ _ | .sneReg _ _ | .ldI _ | .jpOff _ => true
  | .rnd _ _ | .drw _ _ _ | .skp _ | .sknp _ | .ldl _ => true
  | .ldVxDt _ | .ldVxK _ | .ldDtVx _ | .ldStVx _ | .addI _ | .ldF _ | .ldHf _ | .ldB _ => true
  | .pitch _ | .vol _ | .voice _ | .chan _ | .pal _ | .storeRegs _ | .loadRegs _ | .flagsOut _ | .flagsIn _ => true

end Sys2Proof
end

