-- ==== Sys2Proof/Decode.lean ====
section
/-! DEFINITION. From words and bytes to instructions (30_encoding.md R80 to R89) and back. Patterns: R86, R87, R88, with the
parameters `ENC_*` of R90 where the source gives none. -/

namespace Sys2Proof

/-- Why a word is no instruction (30 R89): group 0, or any other group. -/
inductive IllegalWord where
  | unknownMachineCode (w : Word)
  | unknownOpcode (w : Word)
  deriving DecidableEq, Repr

/-- Why bytes are no instruction: an illegal word, or too few bytes for the length R81 gives. -/
inductive DecodeError where
  | illegal (e : IllegalWord)
  | truncated
  deriving DecidableEq, Repr

/-! ## Fields (R82) -/

/-- `o`, the opcode group. -/
def fieldO (w : Word) : BitVec 4 := w.extractLsb' 12 4
/-- `x` as a literal (FN01, FM02). -/
def fieldX (w : Word) : BitVec 4 := w.extractLsb' 8 4
/-- `y` as bits. -/
def fieldY (w : Word) : BitVec 4 := w.extractLsb' 4 4
/-- `n`. -/
def fieldN (w : Word) : BitVec 4 := w.extractLsb' 0 4
/-- `nn`. -/
def fieldNN (w : Word) : Byte := w.extractLsb' 0 8
/-- `nnn`. -/
def fieldNNN (w : Word) : BitVec 12 := w.extractLsb' 0 12

/-- A 4-bit field as a register number: all 16 values are legal (R84). -/
def regOfNibble (b : BitVec 4) : Reg := ⟨b.toNat, b.isLt⟩
/-- A register number as a 4-bit field. -/
def nibbleOfReg (x : Reg) : BitVec 4 := BitVec.ofNat 4 x.val

/-- The register in field `x`. -/
def regX (w : Word) : Reg := regOfNibble (fieldX w)
/-- The register in field `y`. -/
def regY (w : Word) : Reg := regOfNibble (fieldY w)

/-- The first word of the one 4-byte instruction (R80, R81). -/
abbrev longLiteral : Word := 0xF000

/-- Big-endian: the byte at the lower address is the high half (20_memory.md R65). -/
def wordOfBytes (hi lo : Byte) : Word := hi ++ lo
/-- The byte of `w` at the lower address. -/
def highByte (w : Word) : Byte := w.extractLsb' 8 8
/-- The byte of `w` at the higher address. -/
def lowByte (w : Word) : Byte := w.extractLsb' 0 8

/-! ## Decoding one word (R85 to R89) -/

/-- The group-0 words without an operand (R86), by their low byte. -/
def Encodings.machineTable (e : Encodings) : List (Byte × Instr) :=
  [(e.clear, .cls), (e.invert, .inv), (e.ret, .ret), (e.modeOr, .dmor), (e.modeAnd, .dmand), (e.modeXor, .dmxor),
    (e.scrollRight, .scr), (e.scrollLeft, .scl), (e.exit, .exit), (e.lores, .low), (e.hires, .high)]

/-- Group 0 (R86): the whole word is matched; `x` must be 0. -/
def decodeMachine (e : Encodings) (w : Word) : Except IllegalWord Instr :=
  if fieldX w ≠ 0 then .error (.unknownMachineCode w)
  else if fieldY w = e.scrollDown then .ok (.scd (fieldN w))
  else if fieldY w = e.scrollUp then .ok (.scu (fieldN w))
  else
    match e.machineTable.lookup (fieldNN w) with
    | some i => .ok i
    | none => .error (.unknownMachineCode w)

/-- Group 5 (R87): sub-opcode `n`. -/
def decodeGroup5 (w : Word) : Except IllegalWord Instr :=
  match (fieldN w).toNat with
  | 0x0 => .ok (.seReg (regX w) (regY w))
  | 0x2 => .ok (.save (regX w) (regY w))
  | 0x3 => .ok (.load (regX w) (regY w))
  | _ => .error (.unknownOpcode w)

/-- Group 8 (R87): sub-opcode `n`. -/
def decodeGroup8 (w : Word) : Except IllegalWord Instr :=
  match (fieldN w).toNat with
  | 0x0 => .ok (.ldReg (regX w) (regY w))
  | 0x1 => .ok (.or (regX w) (regY w))
  | 0x2 => .ok (.and (regX w) (regY w))
  | 0x3 => .ok (.xor (regX w) (regY w))
  | 0x4 => .ok (.addReg (regX w) (regY w))
  | 0x5 => .ok (.sub (regX w) (regY w))
  | 0x6 => .ok (.shr (regX w) (regY w))
  | 0x7 => .ok (.subn (regX w) (regY w))
  | 0xC => .ok (.mul (regX w) (regY w))
  | 0xD => .ok (.div (regX w) (regY w))
  | 0xE => .ok (.shl (regX w) (regY w))
  | 0xF => .ok (.divn (regX w) (regY w))
  | _ => .error (.unknownOpcode w)

/-- Group 9 (R87): only `n` = 0. -/
def decodeGroup9 (w : Word) : Except IllegalWord Instr :=
  match (fieldN w).toNat with
  | 0x0 => .ok (.sneReg (regX w) (regY w))
  | _ => .error (.unknownOpcode w)

/-- Group E (R87): sub-opcode `nn`. -/
def decodeKeys (w : Word) : Except IllegalWord Instr :=
  match (fieldNN w).toNat with
  | 0x9E => .ok (.skp (regX w))
  | 0xA1 => .ok (.sknp (regX w))
  | _ => .error (.unknownOpcode w)

/-- The extended group less the long literal (R88), by sub-opcode: the instruction with `x` as a register number or as a
literal; none for F001 and FM02 with `M` above 3, which are illegal. -/
def Encodings.extendedTable (e : Encodings) (x : BitVec 4) : List (Byte × Option Instr) :=
  let r := regOfNibble x
  [(0x0A, some (.ldVxK r)), (e.plane, if x = 0 then none else some (.plane x)),
    (e.pattern, if x ≤ 3 then some (.audio x) else none), (e.getDt, some (.ldVxDt r)), (e.setDt, some (.ldDtVx r)),
    (e.setSt, some (.ldStVx r)), (e.addI, some (.addI r)), (e.font, some (.ldF r)), (e.bigFont, some (.ldHf r)),
    (e.bcd, some (.ldB r)), (e.pitch, some (.pitch r)), (e.volume, some (.vol r)), (e.voice, some (.voice r)),
    (e.chan, some (.chan r)), (e.palette, some (.pal r)), (e.store, some (.storeRegs r)), (e.load, some (.loadRegs r)),
    (e.flagsOut, some (.flagsOut r)), (e.flagsIn, some (.flagsIn r))]

/-- Group F less the long literal (R88): sub-opcode `nn`. -/
def decodeExtended (e : Encodings) (w : Word) : Except IllegalWord Instr :=
  match (e.extendedTable (fieldX w)).lookup (fieldNN w) with
  | some (some i) => .ok i
  | some none => .error (.unknownOpcode w)
  | none => .error (.unknownOpcode w)

/-- A standard word (R85), that is one other than 0xF000: the group is selected by `o`. -/
def decodeWord (e : Encodings) (w : Word) : Except IllegalWord Instr :=
  match (fieldO w).toNat with
  | 0x0 => decodeMachine e w
  | 0x1 => .ok (.jp (fieldNNN w))
  | 0x2 => .ok (.call (fieldNNN w))
  | 0x3 => .ok (.seImm (regX w) (fieldNN w))
  | 0x4 => .ok (.sneImm (regX w) (fieldNN w))
  | 0x5 => decodeGroup5 w
  | 0x6 => .ok (.ldImm (regX w) (fieldNN w))
  | 0x7 => .ok (.addImm (regX w) (fieldNN w))
  | 0x8 => decodeGroup8 w
  | 0x9 => decodeGroup9 w
  | 0xA => .ok (.ldI (fieldNNN w))
  | 0xB => .ok (.jpOff (fieldNNN w))
  | 0xC => .ok (.rnd (regX w) (fieldNN w))
  | 0xD => .ok (.drw (regX w) (regY w) (fieldN w))
  | 0xE => decodeKeys w
  | _ => decodeExtended e w

/-- How many words follow the first one (R81). -/
def extraWords (w : Word) : Nat := if w = longLiteral then 1 else 0

/-- The instruction at the head of a byte string, with the bytes after it; the whole word is compared with 0xF000 first
(R85). -/
def decodeBytes (e : Encodings) : List Byte → Except DecodeError (Instr × List Byte)
  | b0 :: b1 :: rest =>
    let w := wordOfBytes b0 b1
    if w = longLiteral then
      match rest with
      | b2 :: b3 :: rest' => .ok (.ldl (wordOfBytes b2 b3), rest')
      | _ => .error .truncated
    else
      match decodeWord e w with
      | .ok i => .ok (i, rest)
      | .error why => .error (.illegal why)
  | _ => .error .truncated

/-! ## Encoding (the same tables, R83 and R86 to R88) -/

/-- A word from its four nibbles, the most significant first. -/
def wordXYN (o x y n : BitVec 4) : Word := o ++ x ++ y ++ n
/-- A word of format `XNN` or `XOP`. -/
def wordXNN (o x : BitVec 4) (nn : Byte) : Word := o ++ x ++ nn
/-- A word of format `NNN`. -/
def wordNNN (o : BitVec 4) (nnn : BitVec 12) : Word := o ++ nnn

/-- A group-0 word without an operand. -/
def wordMachine (nn : Byte) : Word := wordXNN 0x0 0x0 nn

/-- A word of group 8, and of the other groups with two registers and a sub-opcode. -/
def wordRegs (o : BitVec 4) (x y : Reg) (n : BitVec 4) : Word := wordXYN o (nibbleOfReg x) (nibbleOfReg y) n
/-- A word of group E or F with a register. -/
def wordReg (o : BitVec 4) (x : Reg) (nn : Byte) : Word := wordXNN o (nibbleOfReg x) nn

/-- The words of an instruction, the first at the lower address. -/
def encode (e : Encodings) : Instr → List Word
  | .scd n => [wordXYN 0x0 0x0 e.scrollDown n]
  | .scu n => [wordXYN 0x0 0x0 e.scrollUp n]
  | .cls => [wordMachine e.clear]
  | .inv => [wordMachine e.invert]
  | .ret => [wordMachine e.ret]
  | .dmor => [wordMachine e.modeOr]
  | .dmand => [wordMachine e.modeAnd]
  | .dmxor => [wordMachine e.modeXor]
  | .scr => [wordMachine e.scrollRight]
  | .scl => [wordMachine e.scrollLeft]
  | .exit => [wordMachine e.exit]
  | .low => [wordMachine e.lores]
  | .high => [wordMachine e.hires]
  | .jp nnn => [wordNNN 0x1 nnn]
  | .call nnn => [wordNNN 0x2 nnn]
  | .seImm x nn => [wordReg 0x3 x nn]
  | .sneImm x nn => [wordReg 0x4 x nn]
  | .seReg x y => [wordRegs 0x5 x y 0x0]
  | .save x y => [wordRegs 0x5 x y 0x2]
  | .load x y => [wordRegs 0x5 x y 0x3]
  | .ldImm x nn => [wordReg 0x6 x nn]
  | .addImm x nn => [wordReg 0x7 x nn]
  | .ldReg x y => [wordRegs 0x8 x y 0x0]
  | .or x y => [wordRegs 0x8 x y 0x1]
  | .and x y => [wordRegs 0x8 x y 0x2]
  | .xor x y => [wordRegs 0x8 x y 0x3]
  | .addReg x y => [wordRegs 0x8 x y 0x4]
  | .sub x y => [wordRegs 0x8 x y 0x5]
  | .shr x y => [wordRegs 0x8 x y 0x6]
  | .subn x y => [wordRegs 0x8 x y 0x7]
  | .mul x y => [wordRegs 0x8 x y 0xC]
  | .div x y => [wordRegs 0x8 x y 0xD]
  | .shl x y => [wordRegs 0x8 x y 0xE]
  | .divn x y => [wordRegs 0x8 x y 0xF]
  | .sneReg x y => [wordRegs 0x9 x y 0x0]
  | .ldI nnn => [wordNNN 0xA nnn]
  | .jpOff nnn => [wordNNN 0xB nnn]
  | .rnd x nn => [wordReg 0xC x nn]
  | .drw x y n => [wordRegs 0xD x y n]
  | .skp x => [wordReg 0xE x 0x9E]
  | .sknp x => [wordReg 0xE x 0xA1]
  | .ldl nnnn => [longLiteral, nnnn]
  | .plane n => [wordXNN 0xF n e.plane]
  | .audio m => [wordXNN 0xF m e.pattern]
  | .ldVxDt x => [wordReg 0xF x e.getDt]
  | .ldVxK x => [wordReg 0xF x 0x0A]
  | .ldDtVx x => [wordReg 0xF x e.setDt]
  | .ldStVx x => [wordReg 0xF x e.setSt]
  | .addI x => [wordReg 0xF x e.addI]
  | .ldF x => [wordReg 0xF x e.font]
  | .ldHf x => [wordReg 0xF x e.bigFont]
  | .ldB x => [wordReg 0xF x e.bcd]
  | .pitch x => [wordReg 0xF x e.pitch]
  | .vol x => [wordReg 0xF x e.volume]
  | .voice x => [wordReg 0xF x e.voice]
  | .chan x => [wordReg 0xF x e.chan]
  | .pal x => [wordReg 0xF x e.palette]
  | .storeRegs x => [wordReg 0xF x e.store]
  | .loadRegs x => [wordReg 0xF x e.load]
  | .flagsOut x => [wordReg 0xF x e.flagsOut]
  | .flagsIn x => [wordReg 0xF x e.flagsIn]

/-- Words as the memory holds them, each big-endian (20 R65). -/
def bytesOfWords : List Word → List Byte
  | [] => []
  | w :: ws => highByte w :: lowByte w :: bytesOfWords ws

/-- The bytes of an instruction. -/
def encodeBytes (e : Encodings) (i : Instr) : List Byte := bytesOfWords (encode e i)

/-! ## The opcode table's numbering -/

/-- The two words of a table row's bits `w`: the first word is bits 15 to 0, the second bits 31 to 16; bits at or above
`nbits` are 0. -/
def tableWords (nbits w : Nat) : List Word :=
  [BitVec.ofNat 16 (w % 2 ^ nbits), BitVec.ofNat 16 (w % 2 ^ nbits / 65536)]

/-- What the decoder reads from an instruction whose bits are `w`, numbered as spec/opcode_table.json numbers them, which
has the default words. -/
def decodeTableWord (nbits w : Nat) : Option Instr :=
  match decodeBytes Encodings.default (bytesOfWords (tableWords nbits w)) with
  | .ok (i, _) => some i
  | .error _ => none

end Sys2Proof
end

