-- ==== Sys2Proof/Machine/State.lean ====
section
/-! DEFINITION. The state of the core as plain data (10_state.md R20 to R37, 45_audio.md R250), the environment's side of
it (the host's pending events and port answers), the outcome reasons, and the state after reset (10_state.md R47). -/

namespace Sys2Proof.Machine

/-! ## Run state and halts -/

/-- The halt reasons with the information each records (60 R260). -/
inductive HaltReason where
  /-- 00FD executed: the normal end, no error (60 R265). -/
  | exit
  /-- An illegal word of a group other than 0 (60 R261). -/
  | unknownOpcode (w : Word)
  /-- An illegal word of group 0 (60 R262). -/
  | unknownMachineCode (w : Word)
  /-- 2NNN with 12 entries on the stack; the fetch-advanced `pc` (60 R263). -/
  | stackOverflow (pc : Word)
  /-- 00EE with an empty stack; the fetch-advanced `pc` (60 R264). -/
  | stackUnderflow (pc : Word)
  /-- An access that needs a byte at or above `MEMSIZE`; the highest address it needs (60 R266). -/
  | accessOutOfRange (addr : Nat)
  deriving DecidableEq, Repr

/-- `RUN` (10 R28). -/
inductive RunState where
  | running
  | waitingForKey (x : Reg)
  | halted (r : HaltReason)
  deriving DecidableEq, Repr

/-! ## Display -/

/-- `DRAWMODE` (10 R31). -/
inductive DrawMode where
  | xor
  | or
  | and
  deriving DecidableEq, Repr

/-- One 1-bit plane (10 R32): 64 rows from the top; bit `x` of a row is the cell in column `x` (column 0 leftmost). -/
abbrev Plane := Vector (BitVec 128) 64

/-- `PLANE[0..3]`. -/
abbrev Planes := Vector Plane 4

/-! ## Memory -/

/-- `MEM` (10 R25) as the bytes that differ from what an unlisted address reads as, at strictly rising addresses. -/
abbrev Memory := List Host.Cell

/-! ## Audio -/

/-- A read position (10 R37, 45 R234), held exactly: with the `j`-th entry `c j`, the real number
`Σ_j c j * 2^(j/48)`, counted in units of 1 / (numerator of `FS_OUT` * `SS`) of a buffer sample. Log entry 23. -/
abbrev Phase := Vector ℤ 48

/-- `VOICE[v].dsp[c]` (10 R37): the read position, and the pair of filter value and filter velocity, held exactly by the
waveform bytes the filter has taken in, the newest first, since both were 0. `Dsp.fval` and `Dsp.fvel` are the numbers.
Log entry 25. -/
structure Dsp where
  pos : Phase
  fed : List Byte
  deriving DecidableEq, Repr

/-- All zero (10 R37). -/
def Dsp.zero : Dsp := ⟨Vector.replicate 48 0, []⟩

/-- What one active voice adds to an output sample (45 R232): `gain / 255 * AMP(fval)`, with the filter value of `fed`. -/
structure Part where
  gain : Byte
  fed : List Byte
  deriving DecidableEq, Repr

/-- An output sample: the sum of its parts (45 R237). `Sample.value` is the number. Log entry 25. -/
abbrev Sample := List Part

/-- The sample 0. -/
abbrev Sample.silence : Sample := []

/-- One voice (10 R36, R37). -/
structure Voice where
  /-- The unpacked waveform, one byte per sample: 16, 32, 64 or 128 of them. -/
  buf : List Byte
  /-- 64 is unison. -/
  pitch : Byte
  /-- The gain is `vol / 255`. -/
  vol : Byte
  /-- Bit 0 enables the left channel, bit 1 the right. -/
  chan : BitVec 2
  /-- Timer ticks remaining before auto-mute; 0 is muted. -/
  count : Byte
  dspL : Dsp
  dspR : Dsp
  deriving DecidableEq, Repr

/-- A voice after `Init` (10 R36, R37). DESIGN CHOICE of the spec (D23), log entry 3. -/
def Voice.initial : Voice where
  buf := List.replicate 128 0
  pitch := 64
  vol := 255
  chan := 3
  count := 0
  dspL := Dsp.zero
  dspR := Dsp.zero

/-- One chunk of the output queue (45 R250): the two sample arrays, the read pointer, the remaining duration. -/
structure Chunk where
  l : List Sample
  r : List Sample
  rd : Nat
  remaining : Nat
  deriving DecidableEq, Repr

/-! ## The environment: events, ports, output events -/

/-- The events the host delivers (10 R38 to R46), and `keys`, a change of the level on the `KEY_HELD` port. -/
inductive Event where
  /-- `Init(program, fonts, cfg)`; the font tables are in `cfg` (90 C11). -/
  | init (program : List Byte) (cfg : Config)
  | tick
  | timerTick
  | keyRelease (code : Byte)
  /-- The host drives `KEY_HELD`: bit `k` is the answer for key code `k`; `none` leaves the port undriven. -/
  | keys (held : Option (BitVec 256))
  | render (d : Nat)
  | pull (n : Nat)
  deriving DecidableEq, Repr

/-- The output events (10 R43, R45) and the samples a `Pull` hands out (45 R251). -/
inductive Output where
  | onExit
  | exportFlags (f : FlagVec)
  | onSoundTimerSet (value : Byte)
  | onVoiceBufferLoad (pattern : List Byte) (bits : Nat)
  | onVoicePitchSet (value : Byte)
  | onVoiceVolumeSet (value : Byte)
  | onVoiceSelect (index : Byte)
  | onVoiceChannelMaskSet (mask : BitVec 2)
  /-- With the configuration they were rendered under. -/
  | samples (cfg : Config) (l r : List Sample)
  deriving DecidableEq, Repr

/-- The environment's side, the model's own and no state of the core (10 R49). -/
structure Env where
  /-- The host events still to be delivered, the next one first; when none is left, each step is a `Tick`. Log entry 5. -/
  events : List Event
  /-- The level on the `KEY_HELD` port, when the host drives it. Log entry 6. -/
  keysHeld : Option (BitVec 256)
  /-- Bytes waiting on the `RAND` port. Log entry 7. -/
  randIn : List Byte
  /-- Answers waiting on the `import_flags` port (`none` is an absent or invalid vector). Log entry 8. -/
  flagsIn : List (Option FlagVec)
  /-- How often a port was consulted; a free value is applied to it. Log entry 28. -/
  draws : Nat
  /-- The output events so far, the first one first. Log entry 9. -/
  out : List Output
  deriving DecidableEq, Repr

/-- The environment of `State.reset`: nothing pending, nothing driven, nothing emitted. DESIGN CHOICE, log entries 5 to 9, 28. -/
def Env.quiet : Env := ⟨[], none, [], [], 0, []⟩

/-! ## The state -/


/-- Everything the spec gives the machine (10 R20 to R37, 45 R250), the configuration (00 R8) and the environment's side. -/
structure State where
  /-- `V[0..15]` (10 R20). -/
  v : Vector Byte 16
  /-- `I` (10 R22). -/
  i : Word
  /-- `pc` (10 R23). -/
  pc : Word
  /-- `STACK` (10 R24), the most recently pushed entry first; `depth` is its length. -/
  stack : List Word
  /-- `MEM` (10 R25). -/
  mem : Memory
  /-- `DT` (10 R26). -/
  dt : Byte
  /-- `ST` (10 R27). -/
  st : Byte
  /-- `RUN` (10 R28). -/
  run : RunState
  /-- `HIRES` (10 R29). -/
  hires : Bool
  /-- `PLANEMASK` (10 R30): bit `p` selects plane `p`. -/
  planeMask : BitVec 4
  /-- `DRAWMODE` (10 R31). -/
  drawMode : DrawMode
  /-- `PLANE` (10 R32). -/
  planes : Planes
  /-- `PAL` (10 R33). -/
  pal : Vector Rgb 16
  /-- `FLAGS` (10 R34). -/
  flags : FlagVec
  /-- `SEL` (10 R35). -/
  sel : Byte
  /-- `VOICE[0..3]` (10 R36, R37). -/
  voices : Vector Voice 4
  /-- The output queue, the head (oldest) chunk first (45 R250). -/
  queue : List Chunk
  /-- `CFG` (00 R8): read-only but for `Init`. Log entry 1. -/
  cfg : Config
  /-- The environment's side (log entries 5 to 9, 28). -/
  env : Env
  deriving DecidableEq, Repr

/-- The machine never stops outside its own run state: a fatal halt is a NEXT state with `RUN` = `Halted(reason)`
(60 R270), so no meaning and no step raises a fault, and this type has no constructor. Safe: nothing is hidden in it.
Log entry 10. -/
inductive Fault
  deriving DecidableEq, Repr

/-- Why a step has no next state. -/
inductive Refusal where
  /-- Raised by `exec` for an instruction that has no meaning yet. Safe. -/
  | notModelled (mnemonic : String)
  /-- Raised by the `Init` event for a program longer than `CFG.MAX_PROGRAM_SIZE` or than the memory from 0x200 on, which
  is outside the spec: "the model refuses it" (70 R297). Safe. -/
  | initProgramTooLong
  deriving DecidableEq, Repr

/-- The core after `Init` with configuration `c` and an empty program, beside the environment `e` (10 R47, 70 R290): no
memory cell is listed, since an unlisted address reads what `Init` put there (20 R62). -/
def State.initial (c : Config) (e : Env) : State where
  v := Vector.replicate 16 0
  i := 0
  pc := BitVec.ofNat 16 Config.programOrigin
  stack := []
  mem := []
  dt := 0
  st := 0
  run := .running
  hires := false
  planeMask := 1
  drawMode := .xor
  planes := Vector.replicate 4 (Vector.replicate 64 0)
  pal := c.palInit
  flags := Vector.replicate 16 0
  sel := 0
  voices := Vector.replicate 4 Voice.initial
  queue := []
  cfg := c
  env := e

/-- The machine right after reset. Log entries 2, 3, 4. -/
def State.reset : State := State.initial Config.default Env.quiet

/-! ## Plain updates, one per field -/

/-- Write `I`. -/
def State.setI (s : State) (a : Word) : State := { s with i := a }
/-- Write the call stack. -/
def State.setStack (s : State) (a : List Word) : State := { s with stack := a }
/-- Write all of memory. -/
def State.setMem (s : State) (a : Memory) : State := { s with mem := a }
/-- Write `DT`. -/
def State.setDt (s : State) (a : Byte) : State := { s with dt := a }
/-- Write `ST`. -/
def State.setSt (s : State) (a : Byte) : State := { s with st := a }
/-- Write `RUN`. -/
def State.setRun (s : State) (a : RunState) : State := { s with run := a }
/-- Write `HIRES`. -/
def State.setHires (s : State) (a : Bool) : State := { s with hires := a }
/-- Write `PLANEMASK`. -/
def State.setPlaneMask (s : State) (a : BitVec 4) : State := { s with planeMask := a }
/-- Write `DRAWMODE`. -/
def State.setDrawMode (s : State) (a : DrawMode) : State := { s with drawMode := a }
/-- Write the planes. -/
def State.setPlanes (s : State) (a : Planes) : State := { s with planes := a }
/-- Write the palette. -/
def State.setPal (s : State) (a : Vector Rgb 16) : State := { s with pal := a }
/-- Write the flag vector. -/
def State.setFlags (s : State) (a : FlagVec) : State := { s with flags := a }
/-- Write `SEL`. -/
def State.setSel (s : State) (a : Byte) : State := { s with sel := a }
/-- Write the voices. -/
def State.setVoices (s : State) (a : Vector Voice 4) : State := { s with voices := a }
/-- Write the output queue. -/
def State.setQueue (s : State) (a : List Chunk) : State := { s with queue := a }
/-- Write the environment's side. -/
def State.setEnv (s : State) (a : Env) : State := { s with env := a }

end Sys2Proof.Machine
end

