-- ==== Sys2Proof/Machine/Ops.lean ====
section
/-! DEFINITION. The named operations over memory, registers, pc, halts and ports that every meaning is written from
(00_scope.md R13, 20_memory.md, 60_exceptions.md R266, R270). -/

namespace Sys2Proof.Machine

/-! ## Memory (20 R60 to R71) -/

/-- `MEMSIZE` (20 R60). -/
def memSize (c : Config) : Nat := if c.extended then 0x10000 else 0x1000

/-- `ADDR_BITS` (20 R60). -/
def addrBits (c : Config) : Nat := if c.extended then 16 else 12

/-- What an unlisted address reads as: what `Init` puts there (20 R62), the small font from 0x000, the big font from
0x050, 0 elsewhere. Log entry 22. -/
def initByte (c : Config) (a : Nat) : Byte :=
  if h : a < 80 then c.fontSmall[a]
  else if h : a - Config.bigFontBase < 160 then c.fontBig[a - Config.bigFontBase]
  else 0

/-- The byte listed at an address. -/
def memLookup : Memory → Nat → Option Byte
  | [], _ => none
  | (k, b) :: m, a => if k = a then some b else memLookup m a

/-- Take the entry of an address out of the list. -/
def memErase : Memory → Nat → Memory
  | [], _ => []
  | (k, b) :: m, a => if k = a then memErase m a else (k, b) :: memErase m a

/-- List a byte at its place in the rising order. -/
def memInsert : Memory → Nat → Byte → Memory
  | [], a, b => [(a, b)]
  | (k, c) :: m, a, b => if a < k then (a, b) :: (k, c) :: m else if a = k then (a, b) :: m else (k, c) :: memInsert m a b

/-- Read one byte. -/
def memRead (c : Config) (m : Memory) (a : Nat) : Byte := (memLookup m a).getD (initByte c a)

/-- Write one byte; writing what an unlisted address reads as takes the entry out. -/
def memWrite (c : Config) (m : Memory) (a : Nat) (b : Byte) : Memory :=
  if b = initByte c a then memErase m a else memInsert m a b

/-- The canonical form: addresses strictly rising and below `MEMSIZE`, no entry equal to what an unlisted address reads
as. -/
def Memory.wf (c : Config) (m : Memory) : Bool :=
  decide (m.Pairwise fun p q => p.1 < q.1) && m.all fun p => decide (p.1 < memSize c) && decide (p.2 ≠ initByte c p.1)

/-- `MEMSIZE` of this machine. -/
def State.memSize (s : State) : Nat := Machine.memSize s.cfg

/-- `MemRead(a, 1)` (00 R13). -/
def State.readByte (s : State) (a : Nat) : Byte := memRead s.cfg s.mem a

/-- `MemRead(a, 2)` (00 R13), big-endian. -/
def State.readWord (s : State) (a : Nat) : Word := wordOfBytes (s.readByte a) (s.readByte (a + 1))

/-- `n` bytes at `a`, `a + 1`, … (20 R65). -/
def State.readBytes (s : State) (a n : Nat) : List Byte := (List.range n).map fun k => s.readByte (a + k)

/-- `MemWrite(a, 1, v)` (00 R13). -/
def State.writeByte (s : State) (a : Nat) (b : Byte) : State := s.setMem (memWrite s.cfg s.mem a b)

/-- Bytes written at `a`, `a + 1`, … in ascending order (20 R65). -/
def State.writeBytes : State → Nat → List Byte → State
  | s, _, [] => s
  | s, a, b :: bs => State.writeBytes (s.writeByte a b) (a + 1) bs

/-! ## Registers, `I`, `pc` (10 R20 to R23) -/

/-- `V[x]`. -/
def State.reg (s : State) (x : Reg) : Byte := s.v[x.val]

/-- `V[x] <- b`. -/
def State.setReg (s : State) (x : Reg) (b : Byte) : State := { s with v := s.v.set x.val b }

/-- `pc <- t`, stored modulo `MEMSIZE` (10 R23). -/
def State.setPc (s : State) (t : Nat) : State := { s with pc := BitVec.ofNat 16 (t % s.memSize) }

/-! ## Halts (60 R270): taking the one kind of trap -/

/-- `raise Halt(reason, info)`: `RUN <- Halted(reason, info)` and nothing else; the fetch's `pc` stands. -/
def raiseHalt (r : HaltReason) (s : State) : State := s.setRun (.halted r)

/-- An access to the `n` bytes from `a` on is checked whole before anything is written (20 R64): `next` if every address
is below `MEMSIZE` (or `n` = 0), else `AccessOutOfRange` with the highest address needed (60 R266). -/
def State.withRange (s : State) (a n : Nat) (next : State) : State :=
  if n = 0 ∨ a + n - 1 < s.memSize then next else raiseHalt (.accessOutOfRange (a + n - 1)) s

/-- The halt of an illegal word (60 R261, R262). -/
def haltOfIllegal : IllegalWord → HaltReason
  | .unknownMachineCode w => .unknownMachineCode w
  | .unknownOpcode w => .unknownOpcode w

/-! ## The skip step (40 R100) -/

/-- `skip()`: peek the word at `pc`; step over 4 bytes if it is 0xF000, else over 2. -/
def skip (s : State) : State :=
  s.withRange s.pc.toNat 2 (s.setPc (s.pc.toNat + (if s.readWord s.pc.toNat = longLiteral then 4 else 2)))

/-- The skip instructions: the skip step when the condition holds, else nothing beyond the fetch advance (40 R100). -/
def skipIf (cond : Bool) (s : State) : State := if cond then skip s else s

/-! ## Ports (10 R40, R41, R43, R45) -/

/-- `emit hook(args)`. Log entry 9. -/
def State.emit (s : State) (o : Output) : State := s.setEnv { s.env with out := s.env.out ++ [o] }

/-- The byte `RAND` delivers next: the first one waiting, or a free value. -/
def State.randByte (s : State) : Byte := s.env.randIn.headD (Config.freeRandom s.env.draws)

/-- The state after that delivery. -/
def State.afterRand (s : State) : State :=
  s.setEnv { s.env with randIn := s.env.randIn.tail, draws := s.env.draws + 1 }

/-- `KEY_HELD(k)`: false for a `k` that is no logical key code (10 R40); else the driven level, or a free value. -/
def State.keyHeld (s : State) (k : Byte) : Bool :=
  decide (k.toNat < s.cfg.keys) &&
    match s.env.keysHeld with
    | some level => level.getLsbD k.toNat
    | none => Config.freeKeyHeld s.env.draws k

/-- The state after that sample. -/
def State.afterKeySample (s : State) : State := s.setEnv { s.env with draws := s.env.draws + 1 }

/-- What `import_flags` answers next: the first answer waiting, or a free one; `none` is absent or invalid. -/
def State.flagsAnswer (s : State) : Option FlagVec := s.env.flagsIn.headD (Config.freeFlags s.env.draws)

/-- The state after that answer. -/
def State.afterFlagsAnswer (s : State) : State :=
  s.setEnv { s.env with flagsIn := s.env.flagsIn.tail, draws := s.env.draws + 1 }

/-! ## The selected voice (10 R35, 45 R221) -/

/-- The real voice `SEL` addresses, or none for the null voice. -/
def State.selected (s : State) : Option (Fin 4) := if h : s.sel.toNat < 4 then some ⟨s.sel.toNat, h⟩ else none

/-- A write to the selected voice; discarded while the null voice is selected (45 R221). -/
def State.updateVoice (s : State) (f : Voice → Voice) : State :=
  match s.selected with
  | some k => s.setVoices (s.voices.set k.val (f s.voices[k.val]))
  | none => s

end Sys2Proof.Machine
end

