-- ==== Sys2Proof/Machine/Operands.lean ====
section
/-! DEFINITION. The operand forms (42_index_memory.md R162, 40_control_flow.md R109, 41_load_alu.md R130, 43_display.md
R188): which register, which range of registers, which address an operand names. -/

namespace Sys2Proof.Machine

/-- The shift operand: `V[x]` under `CFG.Q_SHIFT`, else `V[y]` (41 R130). -/
def State.shiftOperand (s : State) (x y : Reg) : Byte := if s.cfg.qShift then s.reg x else s.reg y

/-- BNNN's offset register: `nnn[11:8]` under `CFG.Q_JUMP`, else 0 (40 R109). -/
def offsetReg (c : Config) (nnn : BitVec 12) : Reg := if c.qJump then regOfNibble (nnn.extractLsb' 8 4) else 0

/-- The registers `V0..Vx` in order (42 R158, R159; 44 R210, R211). -/
def blockRegs (x : Reg) : List Reg := (List.range (x.val + 1)).map (Fin.ofNat 16)

/-- How many registers `Vx..Vy` holds: `|x - y| + 1` (42 R160). -/
def rangeCount (x y : Reg) : Nat := (if x < y then y.val - x.val else x.val - y.val) + 1

/-- The registers `Vx..Vy` in the order of 42 R160: ascending if `x < y`, else descending. -/
def rangeRegs (x y : Reg) : List Reg :=
  (List.range (rangeCount x y)).map fun k => Fin.ofNat 16 (if x < y then x.val + k else x.val - k)

/-- The only data addressing mode: the byte at `I + k`, in unbounded naturals (42 R162). -/
def State.dataAddr (s : State) (k : Nat) : Nat := s.i.toNat + k

/-- Store registers at `I`, `I + 1`, …, the whole range checked first (42 R156); `next` is applied to the state after
the store. -/
def State.storeAtI (s : State) (rs : List Reg) (next : State → State) : State :=
  s.withRange (s.dataAddr 0) rs.length (next (s.writeBytes (s.dataAddr 0) (rs.map s.reg)))

/-- Registers loaded in turn from `a`, `a + 1`, …. -/
def State.loadFrom : State → List Reg → Nat → State
  | s, [], _ => s
  | s, r :: rs, a => State.loadFrom (s.setReg r (s.readByte a)) rs (a + 1)

/-- Load registers from `I`, `I + 1`, …, the whole range checked first (42 R156). -/
def State.loadAtI (s : State) (rs : List Reg) (next : State → State) : State :=
  s.withRange (s.dataAddr 0) rs.length (next (s.loadFrom rs (s.dataAddr 0)))

/-- The advance of `I` by FX55 and FX65, modulo 65536, unless `CFG.Q_LOADSTORE` suppresses it (42 R158, D22). -/
def State.advanceI (n : Nat) (s : State) : State :=
  if s.cfg.qLoadStore then s else s.setI (BitVec.ofNat 16 (s.i.toNat + n))

end Sys2Proof.Machine
end

