-- ==== Sys2Proof/Machine/Audio.lean ====
section
/-! DEFINITION. The voice control instructions (45_audio.md R220 to R228). -/

namespace Sys2Proof.Machine

/-- FX3C (45 R220). -/
def execVoice (x : Reg) (s : State) : Host.Outcome State Fault Refusal :=
  .next ((s.setSel (s.reg x)).emit (.onVoiceSelect (s.reg x)))

/-- `REP(bits)`: the multiplier that replicates a cell through a byte (45 R223). -/
def replicator (bits : Nat) : Nat := 255 / (2 ^ bits - 1)

/-- The samples of one packed byte, the most significant cell first (45 R223). -/
def unpackByte (bits : Nat) (b : Byte) : List Byte :=
  (List.range (8 / bits)).map fun j =>
    BitVec.ofNat 8 (b.toNat / 2 ^ (8 - bits * (j + 1)) % 2 ^ bits * replicator bits)

/-- `unpack(pat, bits)` (45 R223). -/
def unpack (pat : List Byte) (bits : Nat) : List Byte := pat.flatMap (unpackByte bits)

/-- FM02 (45 R222): `M` above 3 is an illegal instruction (log entry 16); the null voice's buffer is discarded (45 R221). -/
def execAudio (m : BitVec 4) (s : State) : Host.Outcome State Fault Refusal :=
  .next (if m ≤ 3 then
    let bits := 2 ^ m.toNat
    let pat := s.readBytes (s.dataAddr 0) s.cfg.patternBytes
    s.withRange (s.dataAddr 0) s.cfg.patternBytes
      ((s.emit (.onVoiceBufferLoad pat bits)).updateVoice fun q => { q with buf := unpack pat bits })
  else raiseHalt (.unknownOpcode (wordXNN 0xF m s.cfg.enc.1.pattern)) s)

/-- FX3A (45 R224). -/
def execPitch (x : Reg) (s : State) : Host.Outcome State Fault Refusal :=
  .next ((s.emit (.onVoicePitchSet (s.reg x))).updateVoice fun q => { q with pitch := s.reg x })

/-- FX3B (45 R225). -/
def execVol (x : Reg) (s : State) : Host.Outcome State Fault Refusal :=
  .next ((s.emit (.onVoiceVolumeSet (s.reg x))).updateVoice fun q => { q with vol := s.reg x })

/-- The channel mask: the low two bits of `V[x]` (45 R226). -/
def State.chanMask (s : State) (x : Reg) : BitVec 2 := (s.reg x).setWidth 2

/-- FX3D (45 R226). -/
def execChan (x : Reg) (s : State) : Host.Outcome State Fault Refusal :=
  .next ((s.emit (.onVoiceChannelMaskSet (s.chanMask x))).updateVoice fun q => { q with chan := s.chanMask x })

end Sys2Proof.Machine
end

