-- ==== Sys2Proof/Machine/ControlFlow.lean ====
section
/-! DEFINITION. Control flow (40_control_flow.md): 1NNN, 2NNN, 00EE, 3XNN, 4XNN, 5XY0, 9XY0, BNNN. Each meaning takes the
state after the fetch advance. -/

namespace Sys2Proof.Machine

/-- 1NNN (40 R101). -/
def execJp (nnn : BitVec 12) (s : State) : Host.Outcome State Fault Refusal := .next (s.setPc nnn.toNat)

/-- 2NNN (40 R102): the 13th nested call halts. -/
def execCall (nnn : BitVec 12) (s : State) : Host.Outcome State Fault Refusal :=
  .next (if s.stack.length ≥ Config.stackMax then raiseHalt (.stackOverflow s.pc) s
    else (s.setStack (s.pc :: s.stack)).setPc nnn.toNat)

/-- 00EE (40 R103): an empty stack halts. -/
def execRet (s : State) : Host.Outcome State Fault Refusal :=
  .next (match s.stack with
    | [] => raiseHalt (.stackUnderflow s.pc) s
    | t :: rest => (s.setStack rest).setPc t.toNat)

/-- 3XNN (40 R104). -/
def execSeImm (x : Reg) (nn : Byte) (s : State) : Host.Outcome State Fault Refusal := .next (skipIf (s.reg x = nn) s)

/-- 4XNN (40 R105). -/
def execSneImm (x : Reg) (nn : Byte) (s : State) : Host.Outcome State Fault Refusal := .next (skipIf (s.reg x ≠ nn) s)

/-- 5XY0 (40 R106). -/
def execSeReg (x y : Reg) (s : State) : Host.Outcome State Fault Refusal := .next (skipIf (s.reg x = s.reg y) s)

/-- 9XY0 (40 R107). -/
def execSneReg (x y : Reg) (s : State) : Host.Outcome State Fault Refusal := .next (skipIf (s.reg x ≠ s.reg y) s)

/-- BNNN (40 R109): `nnn + V[r]`, stored modulo `MEMSIZE`. -/
def execJpOff (nnn : BitVec 12) (s : State) : Host.Outcome State Fault Refusal :=
  .next (s.setPc (nnn.toNat + (s.reg (offsetReg s.cfg nnn)).toNat))

end Sys2Proof.Machine
end

