-- ==== Sys2Proof/Machine/Display.lean ====
section
/-! DEFINITION. The display draw engine (43_display.md): clear, scrolls, invert, resolution, draw mode, plane mask, sprite
draw, palette. -/

namespace Sys2Proof.Machine

/-! ## Cells (10 R32) -/

/-- `PLANE[p][y][x]`; false outside the grid. -/
def cell (ps : Planes) (p y x : Nat) : Bool :=
  if h : p < 4 ∧ y < 64 then (ps[p]'h.1)[y]'h.2 |>.getLsbD x else false

/-- A plane from its cells. -/
def planeOf (f : Nat → Nat → Bool) : Plane := Vector.ofFn fun y => BitVec.ofFnLE fun x => f y.val x.val

/-- A cell of one plane. -/
def planeCell (q : Plane) (y x : Nat) : Bool := if h : y < 64 then (q[y]'h).getLsbD x else false

/-- `PLANE[p][y][x] <- b`; nothing outside the grid. -/
def setCell (ps : Planes) (p y x : Nat) (b : Bool) : Planes :=
  if h : p < 4 ∧ y < 64 then
    let row := (ps[p]'h.1)[y]'h.2
    let row' := if b then row ||| BitVec.twoPow 128 x else row &&& ~~~(BitVec.twoPow 128 x)
    ps.set p ((ps[p]'h.1).set y row' h.2) h.1
  else ps

/-- `W`, the active width (10 R29). -/
def State.width (s : State) : Nat := if s.hires then Config.maxW else s.cfg.loresW

/-- `H`, the active height (10 R29). -/
def State.height (s : State) : Nat := if s.hires then Config.maxH else s.cfg.loresH

/-! ## Clear, scroll, invert (43 R170 to R176) -/

/-- Give each selected plane the cells `f old y x`; a plane that is not selected stays "bit-for-bit unchanged" (43 R171). -/
def State.mapSelected (s : State) (f : (Nat → Nat → Bool) → Nat → Nat → Bool) : State :=
  s.setPlanes (Vector.ofFn fun p : Fin 4 =>
    if s.planeMask.getLsbD p.val then planeOf (f (planeCell s.planes[p.val])) else s.planes[p.val])

/-- The same on the active region only (43 R171): a cell outside keeps its value. -/
def State.mapActive (s : State) (f : (Nat → Nat → Bool) → Nat → Nat → Bool) : State :=
  s.mapSelected fun old y x => if y < s.height ∧ x < s.width then f old y x else old y x

/-- 00E0 (43 R170): the whole grid of each selected plane. -/
def execCls (s : State) : Host.Outcome State Fault Refusal := .next (s.mapSelected fun _ _ _ => false)

/-- 00CN (43 R172). -/
def execScd (n : BitVec 4) (s : State) : Host.Outcome State Fault Refusal :=
  .next (s.mapActive fun old y x => if y ≥ n.toNat then old (y - n.toNat) x else false)

/-- 00DN (43 R173). -/
def execScu (n : BitVec 4) (s : State) : Host.Outcome State Fault Refusal :=
  .next (s.mapActive fun old y x => if y + n.toNat < s.height then old (y + n.toNat) x else false)

/-- 00FB (43 R174). -/
def execScr (s : State) : Host.Outcome State Fault Refusal :=
  .next (s.mapActive fun old y x => if x ≥ s.cfg.hScroll then old y (x - s.cfg.hScroll) else false)

/-- 00FC (43 R175). -/
def execScl (s : State) : Host.Outcome State Fault Refusal :=
  .next (s.mapActive fun old y x => if x + s.cfg.hScroll < s.width then old y (x + s.cfg.hScroll) else false)

/-- 00E1 (43 R176). -/
def execInv (s : State) : Host.Outcome State Fault Refusal := .next (s.mapActive fun old y x => !old y x)

/-! ## Resolution, draw mode, plane mask (43 R178 to R186) -/

/-- Every cell of all 4 planes to 0, whatever the mask (43 R180). -/
def State.clearAll (s : State) : State := s.setPlanes (Vector.replicate 4 (Vector.replicate 64 0))

/-- 00FE (43 R178). -/
def execLow (s : State) : Host.Outcome State Fault Refusal := .next (s.setHires false).clearAll

/-- 00FF (43 R179). -/
def execHigh (s : State) : Host.Outcome State Fault Refusal := .next (s.setHires true).clearAll

/-- 00F1 (43 R182). -/
def execDmor (s : State) : Host.Outcome State Fault Refusal := .next (s.setDrawMode .or)

/-- 00F2 (43 R183). -/
def execDmand (s : State) : Host.Outcome State Fault Refusal := .next (s.setDrawMode .and)

/-- 00F3 (43 R184). -/
def execDmxor (s : State) : Host.Outcome State Fault Refusal := .next (s.setDrawMode .xor)

/-- FN01 (43 R186): `N` = 0 is an illegal instruction. Log entry 16. -/
def execPlane (n : BitVec 4) (s : State) : Host.Outcome State Fault Refusal :=
  .next (if n = 0 then raiseHalt (.unknownOpcode (wordXNN 0xF n s.cfg.enc.1.plane)) s else s.setPlaneMask n)

/-! ## Sprite draw (43 R188 to R192) -/

/-- `compose(DRAWMODE, a, b)` (10 R31). -/
def compose : DrawMode → Bool → Bool → Bool
  | .xor, a, b => Bool.xor a b
  | .or, a, b => a || b
  | .and, a, b => a && b

/-- Rows and bytes per row (43 R188): 16 rows of 2 bytes for `n` = 0. -/
def spriteShape (n : BitVec 4) : Nat × Nat := if n = 0 then (16, 2) else (n.toNat, 1)

/-- Bytes per plane. -/
def spriteSize (n : BitVec 4) : Nat := (spriteShape n).1 * (spriteShape n).2

/-- The selected planes in ascending order. -/
def selectedPlanes (mask : BitVec 4) : List Nat := (List.range 4).filter mask.getLsbD

/-- The bytes a draw reads: `popcount(PLANEMASK) * size`. -/
def State.spriteBytes (s : State) (n : BitVec 4) : Nat := (selectedPlanes s.planeMask).length * spriteSize n

/-- Sprite bit `(r, c)` of the plane whose data start at `a` (43 R189): bit 7 of a byte is the leftmost pixel. -/
def State.spriteBit (s : State) (n : BitVec 4) (a r c : Nat) : Bool :=
  (s.readByte (a + r * (spriteShape n).2 + c / 8)).getLsbD (7 - c % 8)

/-- The cell `(ty, tx)` a pixel falls on (43 R190): wrapped, or dropped under `CFG.Q_CLIP`. -/
def State.spriteTarget (s : State) (tx ty : Nat) : Option (Nat × Nat) :=
  if s.cfg.qClip then (if tx ≥ s.width ∨ ty ≥ s.height then none else some (ty, tx))
  else some (ty % s.height, tx % s.width)

/-- The pixels `(r, c)` of a sprite, row by row from the left. -/
def spritePixels (n : BitVec 4) : List (Nat × Nat) :=
  (List.range (spriteShape n).1).flatMap fun r => (List.range (8 * (spriteShape n).2)).map fun c => (r, c)

/-- The cells the set bits of one plane's data fall on, in the order of the loop. -/
def State.planeHits (s : State) (n : BitVec 4) (px py a : Nat) : List (Nat × Nat) :=
  (spritePixels n).filterMap fun rc =>
    if s.spriteBit n a rc.1 rc.2 then s.spriteTarget (px + rc.2) (py + rc.1) else none

/-- One set bit of the sprite meets cell `(ty, tx)` of plane `p`: collision and composition (43 R191). -/
def plot (mode : DrawMode) (p : Nat) (acc : Planes × Bool) (t : Nat × Nat) : Planes × Bool :=
  let o := cell acc.1 p t.1 t.2
  (setCell acc.1 p t.1 t.2 (compose mode o true), acc.2 || o)

/-- The draw loop (43 R188): plane by plane, the data of the selected planes one after the other (43 R189). -/
def State.drawn (s : State) (x y : Reg) (n : BitVec 4) : Planes × Bool :=
  let px := (s.reg x).toNat % s.width
  let py := (s.reg y).toNat % s.height
  (selectedPlanes s.planeMask).zipIdx.foldl
    (fun acc pj => (s.planeHits n px py (s.dataAddr (pj.2 * spriteSize n))).foldl (plot s.drawMode pj.1) acc)
    (s.planes, false)

/-- DXYN (43 R188): the planes, then `VF`, the collision flag, last. -/
def execDrw (x y : Reg) (n : BitVec 4) (s : State) : Host.Outcome State Fault Refusal :=
  .next (s.withRange (s.dataAddr 0) (s.spriteBytes n)
    ((s.setPlanes (s.drawn x y n).1).setReg vf (if (s.drawn x y n).2 then 1 else 0)))

/-! ## Palette (43 R194) -/

/-- FX3E (43 R194). -/
def execPal (x : Reg) (s : State) : Host.Outcome State Fault Refusal :=
  .next (s.withRange (s.dataAddr 0) 3
    (s.setPal (s.pal.set ((s.reg x).toNat % 16)
      ⟨s.readByte (s.dataAddr 0), s.readByte (s.dataAddr 1), s.readByte (s.dataAddr 2)⟩ (Nat.mod_lt _ (by decide)))))

end Sys2Proof.Machine
end

