-- ==== Sys2Proof/Machine/IndexMemory.lean ====
section
/-! DEFINITION. The index register and the memory transfers (42_index_memory.md). -/

namespace Sys2Proof.Machine

/-- ANNN (42 R150). -/
def execLdI (nnn : BitVec 12) (s : State) : Host.Outcome State Fault Refusal := .next (s.setI (nnn.setWidth 16))

/-- F000 NNNN (42 R151): the fetch has read the literal and advanced `pc` past it. -/
def execLdl (nnnn : Word) (s : State) : Host.Outcome State Fault Refusal := .next (s.setI nnnn)

/-- FX1E (42 R152): masked to the addressing width, no flag. -/
def execAddI (x : Reg) (s : State) : Host.Outcome State Fault Refusal :=
  .next (s.setI (BitVec.ofNat 16 ((s.i.toNat + (s.reg x).toNat) % 2 ^ addrBits s.cfg)))

/-- The digit a font instruction takes from `V[x]`: the low nibble (42 R153). -/
def State.digit (s : State) (x : Reg) : Nat := (s.reg x).toNat % 16

/-- FX29 (42 R153). -/
def execLdF (x : Reg) (s : State) : Host.Outcome State Fault Refusal := .next (s.setI (BitVec.ofNat 16 (5 * s.digit x)))

/-- FX30 (42 R154). -/
def execLdHf (x : Reg) (s : State) : Host.Outcome State Fault Refusal :=
  .next (s.setI (BitVec.ofNat 16 (Config.bigFontBase + 10 * s.digit x)))

/-- Hundreds, tens, units (42 R155). -/
def bcdDigits (b : Byte) : List Byte :=
  [BitVec.ofNat 8 (b.toNat / 100), BitVec.ofNat 8 (b.toNat / 10 % 10), BitVec.ofNat 8 (b.toNat % 10)]

/-- FX33 (42 R155). -/
def execLdB (x : Reg) (s : State) : Host.Outcome State Fault Refusal :=
  .next (s.withRange (s.dataAddr 0) 3 (s.writeBytes (s.dataAddr 0) (bcdDigits (s.reg x))))

/-- FX55 (42 R158). -/
def execStoreRegs (x : Reg) (s : State) : Host.Outcome State Fault Refusal :=
  .next (s.storeAtI (blockRegs x) (State.advanceI (x.val + 1)))

/-- FX65 (42 R159). -/
def execLoadRegs (x : Reg) (s : State) : Host.Outcome State Fault Refusal :=
  .next (s.loadAtI (blockRegs x) (State.advanceI (x.val + 1)))

/-- 5XY2 (42 R160). -/
def execSave (x y : Reg) (s : State) : Host.Outcome State Fault Refusal := .next (s.storeAtI (rangeRegs x y) id)

/-- 5XY3 (42 R161). -/
def execLoad (x y : Reg) (s : State) : Host.Outcome State Fault Refusal := .next (s.loadAtI (rangeRegs x y) id)

end Sys2Proof.Machine
end

