-- ==== Sys2Proof/Machine/KeysTimersSystem.lean ====
section
/-! DEFINITION. Keys, timers, persistent flags, exit (44_keys_timers_system.md). -/

namespace Sys2Proof.Machine

/-- EX9E (44 R200): the whole byte `V[x]` is the key code, sampled once. -/
def execSkp (x : Reg) (s : State) : Host.Outcome State Fault Refusal :=
  .next (skipIf (s.keyHeld (s.reg x)) s.afterKeySample)

/-- EXA1 (44 R201). -/
def execSknp (x : Reg) (s : State) : Host.Outcome State Fault Refusal :=
  .next (skipIf (!s.keyHeld (s.reg x)) s.afterKeySample)

/-- FX0A (44 R202): the register is written by the `KeyRelease` that ends the wait. -/
def execLdVxK (x : Reg) (s : State) : Host.Outcome State Fault Refusal := .next (s.setRun (.waitingForKey x))

/-- FX07 (44 R204). -/
def execLdVxDt (x : Reg) (s : State) : Host.Outcome State Fault Refusal := .next (s.setReg x s.dt)

/-- FX15 (44 R205). -/
def execLdDtVx (x : Reg) (s : State) : Host.Outcome State Fault Refusal := .next (s.setDt (s.reg x))

/-- The voice part of FX18 (44 R206): the filter state resets when an expired voice becomes active (45 R229). -/
def startVoice (t : Byte) (q : Voice) : Voice :=
  if q.count = 0 ∧ t ≠ 0 then { q with count := t, dspL := Dsp.zero, dspR := Dsp.zero } else { q with count := t }

/-- FX18 (44 R206). -/
def execLdStVx (x : Reg) (s : State) : Host.Outcome State Fault Refusal :=
  .next (((s.setSt (s.reg x)).emit (.onSoundTimerSet (s.reg x))).updateVoice (startVoice (s.reg x)))

/-- `V[r]` copied into `FLAGS[r]`. -/
def State.saveFlag (s : State) (r : Reg) : State := s.setFlags (s.flags.set r.val (s.reg r))

/-- `FLAGS[r]` copied into `V[r]`. -/
def State.restoreFlag (s : State) (r : Reg) : State := s.setReg r s.flags[r.val]

/-- `emit export_flags(FLAGS[0..15])`. -/
def State.exportFlags (s : State) : State := s.emit (.exportFlags s.flags)

/-- FX75 (44 R210): `FLAGS[0..x]` from `V[0..x]`, then all 16 bytes are exported. -/
def execFlagsOut (x : Reg) (s : State) : Host.Outcome State Fault Refusal :=
  .next ((blockRegs x).foldl State.saveFlag s).exportFlags

/-- What an import leaves in `FLAGS` (44 R211): an absent vector is all zero. -/
def importedFlags : Option FlagVec → FlagVec
  | some f => f
  | none => Vector.replicate 16 0

/-- FX85 (44 R211). -/
def execFlagsIn (x : Reg) (s : State) : Host.Outcome State Fault Refusal :=
  .next ((blockRegs x).foldl State.restoreFlag (s.afterFlagsAnswer.setFlags (importedFlags s.flagsAnswer)))

/-- 00FD (44 R212): `on_exit` is emitted and the machine stops. -/
def execExit (s : State) : Host.Outcome State Fault Refusal := .next (raiseHalt .exit (s.emit .onExit))

end Sys2Proof.Machine
end

