-- ==== Sys2Proof/Machine/Flags.lean ====
section
/-! DEFINITION. The results and flags of the arithmetic group (41_load_alu.md R122 to R136), each computed on naturals and
narrowed at the end, and the order of their writes: the result first, `VF` last. -/

namespace Sys2Proof.Machine

/-- 0 or 1 as a flag value. -/
def flagByte (c : Bool) : Byte := if c then 1 else 0

/-- 8XY4: sum modulo 256, carry (41 R127). -/
def addFlag (a b : Byte) : Byte × Byte :=
  let s := a.toNat + b.toNat
  (BitVec.ofNat 8 s, flagByte (s > 255))

/-- `a - b` modulo 256 and not-borrow: 8XY5, and 8XY7 with the operands exchanged (41 R128, R129). -/
def subFlag (a b : Byte) : Byte × Byte :=
  (BitVec.ofNat 8 (a.toNat + 256 - b.toNat), flagByte (a.toNat ≥ b.toNat))

/-- 8XY6: logical shift right by one, the bit shifted out (41 R130). -/
def shrFlag (s : Byte) : Byte × Byte := (BitVec.ofNat 8 (s.toNat / 2), flagByte (s.getLsbD 0))

/-- 8XYE: shift left by one, the bit shifted out (41 R131). -/
def shlFlag (s : Byte) : Byte × Byte := (BitVec.ofNat 8 (s.toNat * 2), flagByte (s.getLsbD 7))

/-- 8XYC: low byte and high byte of the product (41 R132). -/
def mulFlag (a b : Byte) : Byte × Byte :=
  let p := a.toNat * b.toNat
  (BitVec.ofNat 8 p, BitVec.ofNat 8 (p / 256))

/-- Floor quotient and remainder, `DIV0` for a zero divisor: 8XYD, and 8XYF with the operands exchanged (41 R133, R134). -/
def divFlag (c : Config) (a b : Byte) : Byte × Byte :=
  if b = 0 then c.div0 else (BitVec.ofNat 8 (a.toNat / b.toNat), BitVec.ofNat 8 (a.toNat % b.toNat))

/-- `V[x] <- result`, then `VF <- flag` (41 R122): with `x` = F the flag replaces the result (41 R135). -/
def State.setResultFlag (s : State) (x : Reg) (rf : Byte × Byte) : State := (s.setReg x rf.1).setReg vf rf.2

/-- The logic operations: `V[x] <- result`, then `VF <- 0` under `CFG.Q_LOGIC` only (41 R124). -/
def State.setLogic (s : State) (x : Reg) (r : Byte) : State :=
  if s.cfg.qLogic then (s.setReg x r).setReg vf 0 else s.setReg x r

end Sys2Proof.Machine
end

