-- ==== Sys2Proof/Machine/LoadAlu.lean ====
section
/-! DEFINITION. Loads, arithmetic, logic, shifts, multiply, divide, random (41_load_alu.md). -/

namespace Sys2Proof.Machine

/-- 6XNN (41 R120). -/
def execLdImm (x : Reg) (nn : Byte) (s : State) : Host.Outcome State Fault Refusal := .next (s.setReg x nn)

/-- 7XNN (41 R121): no flag. -/
def execAddImm (x : Reg) (nn : Byte) (s : State) : Host.Outcome State Fault Refusal :=
  .next (s.setReg x (BitVec.ofNat 8 ((s.reg x).toNat + nn.toNat)))

/-- 8XY0 (41 R123). -/
def execLdReg (x y : Reg) (s : State) : Host.Outcome State Fault Refusal := .next (s.setReg x (s.reg y))

/-- 8XY1 (41 R124). -/
def execOr (x y : Reg) (s : State) : Host.Outcome State Fault Refusal := .next (s.setLogic x (s.reg x ||| s.reg y))

/-- 8XY2 (41 R125). -/
def execAnd (x y : Reg) (s : State) : Host.Outcome State Fault Refusal := .next (s.setLogic x (s.reg x &&& s.reg y))

/-- 8XY3 (41 R126). -/
def execXor (x y : Reg) (s : State) : Host.Outcome State Fault Refusal := .next (s.setLogic x (s.reg x ^^^ s.reg y))

/-- 8XY4 (41 R127). -/
def execAddReg (x y : Reg) (s : State) : Host.Outcome State Fault Refusal :=
  .next (s.setResultFlag x (addFlag (s.reg x) (s.reg y)))

/-- 8XY5 (41 R128). -/
def execSub (x y : Reg) (s : State) : Host.Outcome State Fault Refusal :=
  .next (s.setResultFlag x (subFlag (s.reg x) (s.reg y)))

/-- 8XY6 (41 R130). -/
def execShr (x y : Reg) (s : State) : Host.Outcome State Fault Refusal :=
  .next (s.setResultFlag x (shrFlag (s.shiftOperand x y)))

/-- 8XY7 (41 R129). -/
def execSubn (x y : Reg) (s : State) : Host.Outcome State Fault Refusal :=
  .next (s.setResultFlag x (subFlag (s.reg y) (s.reg x)))

/-- 8XYC (41 R132). -/
def execMul (x y : Reg) (s : State) : Host.Outcome State Fault Refusal :=
  .next (s.setResultFlag x (mulFlag (s.reg x) (s.reg y)))

/-- 8XYD (41 R133). -/
def execDiv (x y : Reg) (s : State) : Host.Outcome State Fault Refusal :=
  .next (s.setResultFlag x (divFlag s.cfg (s.reg x) (s.reg y)))

/-- 8XYE (41 R131). -/
def execShl (x y : Reg) (s : State) : Host.Outcome State Fault Refusal :=
  .next (s.setResultFlag x (shlFlag (s.shiftOperand x y)))

/-- 8XYF (41 R134). -/
def execDivn (x y : Reg) (s : State) : Host.Outcome State Fault Refusal :=
  .next (s.setResultFlag x (divFlag s.cfg (s.reg y) (s.reg x)))

/-- CXNN (41 R140): the delivered byte under the mask. -/
def execRnd (x : Reg) (nn : Byte) (s : State) : Host.Outcome State Fault Refusal :=
  .next (s.afterRand.setReg x (s.randByte &&& nn))

end Sys2Proof.Machine
end

