-- ==== Sys2Proof/Machine/Synth.lean ====
section
/-! DEFINITION. Sample generation and the output queue (45_audio.md R229 to R252). All of it is exact: read
positions (log entries 23, 24), and filter values and samples, whose numbers are read off at the end of this file under any
choice of the open functions `LPF` and `AMP` (log entry 25). -/

namespace Sys2Proof.Machine

/-! ## Pitch and read position (45 R231, R233, R234) -/

/-- `FS_OUT` = `rateNum / rateDen` in lowest terms. -/
def rateNum (c : Config) : Nat := c.fsOut.1.num.toNat
@[inherit_doc rateNum] def rateDen (c : Config) : Nat := c.fsOut.1.den

/-- `SS`, a positive integer (45 R233): the host's factor, or by default `max(1, round(96000 / FS_OUT))`, a half rounded
up. Log entry 26. -/
def supersample (c : Config) : Nat := max 1 (c.ss.getD ((2 * 96000 * rateDen c + rateNum c) / (2 * rateNum c)))

/-- How many phase units one buffer sample has. -/
def phaseUnit (c : Config) : Nat := rateNum c * supersample c

/-- `freq(p) = 4000 * 2^((p-64)/48) = 1000 * 2^((p+32)/48)` (45 R231): the exponent modulo 48 of the root of two. -/
def freqRoot (p : Byte) : Fin 48 := Fin.ofNat 48 (p.toNat + 32)

/-- The factor before it, an integer: `1000 * 2^⌊(p+32)/48⌋`. -/
def freqScale (p : Byte) : Nat := 1000 * 2 ^ ((p.toNat + 32) / 48)

/-- The number `freq(p)` as a phase. -/
def freqPhase (p : Byte) : Phase := (Vector.replicate 48 0).set (freqRoot p).val (freqScale p)

/-- Sum of two phases. -/
def phaseAdd (a b : Phase) : Phase := Vector.zipWith (· + ·) a b

/-- A phase times a natural number. -/
def phaseScale (k : Nat) (u : Phase) : Phase := u.map ((k : ℤ) * ·)

/-- One supersample's step, `freq(p) / (FS_OUT * SS)` buffer samples (45 R232), in phase units. -/
def phaseStep (c : Config) (p : Byte) : Phase := phaseScale (rateDen c) (freqPhase p)

/-- The bits of `⌊n^(1/48)⌋` from bit `k - 1` down, above those already in `acc`. -/
def rootBits (n : Nat) : Nat → Nat → Nat
  | 0, acc => acc
  | k + 1, acc => rootBits n k (if (acc + 2 ^ k) ^ 48 ≤ n then acc + 2 ^ k else acc)

/-- `⌊2^prec * 2^(j/48)⌋`. -/
def rootOfTwo (prec j : Nat) : Nat := rootBits (2 ^ (48 * prec + j)) (prec + 1) 0

/-- The sum of the irrational parts' coefficients. -/
def phaseWeight (u : Phase) : Nat := ((List.finRange 48).map fun j => if j.val = 0 then 0 else u[j.val].natAbs).sum

/-- A precision at which rounding the roots down cannot move the floor: with `B = 1 + 4 * weight`, an algebraic integer
`u - k` that is not 0 is at least `B^(-47)` in size, because its norm is a nonzero integer and its 47 conjugates are at
most `B`. DEDUCED, log entry 24; `phaseFloor_eq` proves it. -/
def phasePrec (u : Phase) : Nat := 48 * (Nat.log2 (1 + 4 * phaseWeight u) + 1)

/-- `⌊u / m⌋` for a phase `u`. -/
def phaseFloor (u : Phase) (m : Nat) : ℤ :=
  ((List.finRange 48).map fun j => u[j.val] * (rootOfTwo (phasePrec u) j.val : ℤ)).sum / ((m * 2 ^ phasePrec u : Nat) : ℤ)

/-- `u mod m`: an integer multiple of `m` taken off the rational part. -/
def phaseMod (u : Phase) (m : Nat) : Phase := u.set 0 (u[0] - m * phaseFloor u m)

/-- `VOICE[v].buf[floor(pos) mod len]` (45 R234). -/
def sampleAt (buf : List Byte) (k : ℤ) : Byte := buf.getD (k % (buf.length : ℤ)).toNat 0

/-! ## One voice (45 R232 to R237) -/

/-- One supersample of one channel: read, feed the filter, advance and wrap (45 R232, R234, R235). -/
def superStep (c : Config) (q : Voice) (d : Dsp) : Dsp where
  pos := phaseMod (phaseAdd d.pos (phaseStep c q.pitch)) (q.buf.length * phaseUnit c)
  fed := sampleAt q.buf (phaseFloor d.pos (phaseUnit c)) :: d.fed

/-- `n` output samples of one channel with gain `g`, each of the filter value after `SS` supersamples (45 R236). -/
def renderChannel (c : Config) (q : Voice) (g : Byte) : Nat → Dsp → List Sample × Dsp
  | 0, d => ([], d)
  | n + 1, d =>
    let d' := (superStep c q)^[supersample c] d
    let rest := renderChannel c q g n d'
    ([⟨g, d'.fed⟩] :: rest.1, rest.2)

/-- The gain of a voice in a channel (bit 0 left, bit 1 right), in 255ths: `vol` if the channel is enabled, else 0
(45 R237). -/
def gain (q : Voice) (channel : Nat) : Byte := if q.chan.getLsbD channel then q.vol else 0

/-- What one voice contributes to `d` samples, left and right, and the voice afterwards; an expired voice contributes
nothing and stays as it is (45 R230). -/
def renderVoice (c : Config) (d : Nat) (q : Voice) : (List Sample × List Sample) × Voice :=
  if q.count = 0 then ((List.replicate d Sample.silence, List.replicate d Sample.silence), q)
  else
    let l := renderChannel c q (gain q 0) d q.dspL
    let r := renderChannel c q (gain q 1) d q.dspR
    ((l.1, r.1), { q with dspL := l.2, dspR := r.2 })

/-- Blocks summed sample-wise (45 R237). -/
def mix (d : Nat) (blocks : List (List Sample)) : List Sample :=
  blocks.foldl (List.zipWith (· ++ ·)) (List.replicate d Sample.silence)

/-! ## Output queue (45 R250 to R252) -/

/-- The buffered duration. -/
def buffered (q : List Chunk) : Nat := (q.map Chunk.remaining).sum

/-- While the buffered duration exceeds the target and there is more than one chunk, the oldest is dropped (45 R252). -/
def trim (target : Nat) : List Chunk → List Chunk
  | [] => []
  | [h] => [h]
  | h :: h' :: t => if buffered (h :: h' :: t) > target then trim target (h' :: t) else h :: h' :: t

/-- `Pull(n)`'s loop (45 R251): the samples handed out and the queue left; zeros on an underrun. -/
def pullFrom : Nat → List Chunk → (List Sample × List Sample) × List Chunk
  | n, [] => ((List.replicate n Sample.silence, List.replicate n Sample.silence), [])
  | 0, q => (([], []), q)
  | n, h :: t =>
    let k := min n h.remaining
    let l := (h.l.drop h.rd).take k
    let r := (h.r.drop h.rd).take k
    if h.remaining ≤ n then
      let rest := pullFrom (n - k) t
      ((l ++ rest.1.1, r ++ rest.1.2), rest.2)
    else ((l, r), { h with rd := h.rd + k, remaining := h.remaining - k } :: t)

/-- `Render(d)` (45 R232): a new chunk at the tail, then the queue is trimmed; only `dsp` and the queue change. -/
def renderEvent (d : Nat) (s : State) : State :=
  let rs := s.voices.map (renderVoice s.cfg d)
  let chunk : Chunk := ⟨mix d (rs.toList.map (·.1.1)), mix d (rs.toList.map (·.1.2)), 0, d⟩
  (s.setVoices (rs.map (·.2))).setQueue (trim s.cfg.queueTarget (s.queue ++ [chunk]))

/-- `Pull(n)` (45 R251): the samples go to the sink, recorded as an output event. -/
def pullEvent (n : Nat) (s : State) : State :=
  let r := pullFrom n s.queue
  (s.setQueue r.2).emit (.samples s.cfg r.1.1 r.1.2)

/-! ## The numbers (45 R235 to R237, R240) -/

/-- `(fval, fvel)` after the bytes `fed`, the newest first, from (0, 0). -/
def filterState {K : Type} [Field K] (f : AudioFunctions K) (c : Config) : List Byte → K × K
  | [] => (0, 0)
  | b :: fed => f.lpf c (filterState f c fed).1 (filterState f c fed).2 b

/-- `fval` (10 R37). -/
def Dsp.fval {K : Type} [Field K] (f : AudioFunctions K) (c : Config) (d : Dsp) : K := (filterState f c d.fed).1

/-- `fvel` (10 R37). -/
def Dsp.fvel {K : Type} [Field K] (f : AudioFunctions K) (c : Config) (d : Dsp) : K := (filterState f c d.fed).2

/-- `gain / 255 * AMP(fval)`. -/
def Part.value {K : Type} [Field K] (f : AudioFunctions K) (c : Config) (p : Part) : K :=
  (p.gain.toNat : K) / 255 * f.amp c (filterState f c p.fed).1

/-- The output sample as a number. -/
def Sample.value {K : Type} [Field K] (f : AudioFunctions K) (c : Config) (x : Sample) : K := (x.map (Part.value f c)).sum

end Sys2Proof.Machine
end

