-- ==== Sys2Proof/Machine/Events.lean ====
section
/-! DEFINITION. The host's events other than `Tick` (10_state.md R38 to R42, 70_reset_and_hazards.md R290, R297). -/

namespace Sys2Proof.Machine

/-- A countdown at 0 stays at 0 (10 R42, D16). -/
def countDown (b : Byte) : Byte := if b = 0 then 0 else b - 1

/-- `TimerTick` (10 R42): in every run state. -/
def timerTick (s : State) : State :=
  ((s.setDt (countDown s.dt)).setSt (countDown s.st)).setVoices (s.voices.map fun q => { q with count := countDown q.count })

/-- `KeyRelease(code)` (10 R40): ends a wait, and changes nothing in any other run state. -/
def keyRelease (code : Byte) (s : State) : State :=
  match s.run with
  | .waitingForKey x => (s.setReg x code).setRun .running
  | .running | .halted _ => s

/-- The host changes the level on the `KEY_HELD` port. Log entry 6. -/
def driveKeys (held : Option (BitVec 256)) (s : State) : State := s.setEnv { s.env with keysHeld := held }

/-- The precondition of `Init` (70 R297). -/
def initAccepts (program : List Byte) (c : Config) : Bool :=
  decide (program.length ≤ c.maxProgramSize) && decide (program.length ≤ memSize c - Config.programOrigin)

/-- `Init(program, fonts, cfg)` (70 R290): the whole core is reset, whatever its run state (70 R292); the environment's
side stays (log entry 4). -/
def initCore (program : List Byte) (c : Config) (s : State) : State :=
  (State.initial c s.env).writeBytes Config.programOrigin program

end Sys2Proof.Machine
end

