-- ==== Sys2Proof/Machine/Fetch.lean ====
section
/-! DEFINITION. Fetch and decode (30_encoding.md R80), with the halts a fetch can raise (60_exceptions.md R266, R272), and
where the next instruction's bytes stand. -/

namespace Sys2Proof.Machine

/-- The halt of a 2-byte read at `a`, whose second byte is missing (60 R266). -/
def fetchHalt (a : Nat) (s : State) : State := raiseHalt (.accessOutOfRange (a + 1)) s

/-- Both bytes of the word at `a` exist. -/
def State.wordInRange (s : State) (a : Nat) : Bool := decide (a + 1 < s.memSize)

/-- The second word of the long literal, read at the advanced `pc` (30 R80); a fault there leaves `pc` at it. -/
def fetchLiteral (s : State) : State × Option Instr :=
  if s.wordInRange s.pc.toNat then
    (s.setPc (s.pc.toNat + 2), some (.ldl (s.readWord s.pc.toNat)))
  else (fetchHalt s.pc.toNat s, none)

/-- Fetch and decode one instruction: the state with `pc` advanced past the words read, and the instruction; or a halted
state, and none. -/
def fetch (s : State) : State × Option Instr :=
  if s.wordInRange s.pc.toNat then
    let w := s.readWord s.pc.toNat
    let s1 := s.setPc (s.pc.toNat + 2)
    if w = longLiteral then fetchLiteral s1
    else
      match decodeWord s.cfg.enc w with
      | .ok i => (s1, some i)
      | .error e => (raiseHalt (haltOfIllegal e) s1, none)
  else (fetchHalt s.pc.toNat s, none)

/-- Where the second word of an instruction at `p` is read. -/
def State.secondWordAt (s : State) (p : Nat) : Nat := (p + 2) % s.memSize

/-- Both words of an instruction at `p` can be fetched. -/
def State.fetchable (s : State) (p : Nat) : Bool := s.wordInRange p && s.wordInRange (s.secondWordAt p)

/-- The state made ready to fetch from a place where both words of any instruction can stand: running, no host event
before the `Tick`, and `pc` moved to 0x200 only if no instruction of two words fits where it is. Log entry 4. -/
def readyToFetch (s : State) : State :=
  let s' := (s.setRun .running).setEnv { s.env with events := [] }
  if s.fetchable s.pc.toNat then s' else s'.setPc Config.programOrigin

/-- A word stored big-endian. -/
def State.writeWord (s : State) (a : Nat) (w : Word) : State := s.writeBytes a [highByte w, lowByte w]

/-- An instruction's words, numbered as the opcode table numbers them, stored where the next fetch reads them. -/
def placeWords (s : State) (nbits w : Nat) : State :=
  let t := readyToFetch s
  match tableWords nbits w with
  | [w1, w2] => (t.writeWord t.pc.toNat w1).writeWord (t.secondWordAt t.pc.toNat) w2
  | _ => t

end Sys2Proof.Machine
end

