-- ==== Sys2Proof/Machine/Step.lean ====
section
/-! DEFINITION. One step of the machine: the next pending host event, or a `Tick` when none is pending (00_scope.md R15,
10_state.md R38 to R46, 30_encoding.md R80). -/

namespace Sys2Proof.Machine

/-- `Tick` (30 R80): one instruction while `Running`; nothing at all while waiting or halted. -/
def tick (s : State) : Host.Outcome State Fault Refusal :=
  match s.run with
  | .running =>
    match fetch s with
    | (t, some i) => exec i t
    | (t, none) => .next t
  | .waitingForKey _ => .next s
  | .halted _ => .next s

/-- One host event (10 R38 to R46). -/
def deliver (e : Event) (s : State) : Host.Outcome State Fault Refusal :=
  match e with
  | .init program cfg => if initAccepts program cfg then .next (initCore program cfg s) else .refused .initProgramTooLong
  | .tick => tick s
  | .timerTick => .next (timerTick s)
  | .keyRelease code => .next (keyRelease code s)
  | .keys held => .next (driveKeys held s)
  | .render d => .next (renderEvent d s)
  | .pull n => .next (pullEvent n s)

/-- One step: the first pending event is taken off the schedule and delivered. Log entry 5. -/
def step (s : State) : Host.Outcome State Fault Refusal :=
  match s.env.events with
  | [] => tick s
  | e :: rest => deliver e (s.setEnv { s.env with events := rest })

/-- `s` with the instruction whose table bits are `w` stored where `step` fetches next (log entry 4). -/
def State.withFetchWord (s : State) (nbits w : Nat) : State := placeWords s nbits w

end Sys2Proof.Machine
end

