-- ==== Sys2Proof/Safety.lean ====
section
/-! DEFINITION. What claims are stated in: the invariant of the core (10_state.md R51), the codes of the halt reasons, what
a failed run is, and the shapes in which a claim says what an instruction leaves unchanged. -/

namespace Sys2Proof.Machine

/-- The code of a halt reason (60 R260). -/
def HaltReason.code : HaltReason → Nat
  | .exit => 0
  | .unknownOpcode _ => 1
  | .unknownMachineCode _ => 2
  | .stackOverflow _ => 3
  | .stackUnderflow _ => 4
  | .accessOutOfRange _ => 5

/-- Reasons 1 to 5 are errors; `Exit` is not (60 R260). -/
def HaltReason.isError (r : HaltReason) : Bool := r.code ≠ 0

/-- The run has ended (70 R311). -/
def State.stopped (s : State) : Bool :=
  match s.run with
  | .halted _ => true
  | .running | .waitingForKey _ => false

/-- The run has ended in an error (70 R311). -/
def State.failed (s : State) : Bool :=
  match s.run with
  | .halted r => r.isError
  | .running | .waitingForKey _ => false

/-- A run of `n` steps is safe if it is refused nowhere and ends in no error halt. -/
def SafeRun (n : Nat) (s : State) : Prop := ∃ t, core.run n s = .next t ∧ t.failed = false

/-- The coefficients of the irrational parts of a read position are never negative. -/
def phaseOk (u : Phase) : Prop := ∀ j : Fin 48, j ≠ 0 → 0 ≤ u[j.val]

/-- A voice as 10 R36 allows it: its waveform has the initial 128 samples or those of a loaded pattern, `PATTERN_BYTES`
times 8, 4, 2 or 1 (with the default of 16 bytes: 16, 32, 64 or 128). -/
def Voice.Ok (c : Config) (q : Voice) : Prop :=
  (q.buf.length = 128 ∨ ∃ k ∈ [1, 2, 4, 8], q.buf.length = c.patternBytes * k) ∧ phaseOk q.dspL.pos ∧ phaseOk q.dspR.pos

/-- A chunk as 45 R250 allows it: `remaining` is what the read pointer has not passed. -/
def Chunk.Ok (c : Chunk) : Prop := c.l.length = c.rd + c.remaining ∧ c.r.length = c.rd + c.remaining

/-- The invariant of 10 R51 (widths hold by type), with the canonical form of memory, of the voices and of the queue. -/
structure State.Inv (s : State) : Prop where
  /-- "`PC` always points within the current memory size". -/
  pc_lt : s.pc.toNat < s.memSize
  /-- "stack depth never exceeds 12". -/
  depth_le : s.stack.length ≤ Config.stackMax
  /-- Every return address is a `pc` value (10 R24). -/
  stack_lt : ∀ a ∈ s.stack, a.toNat < s.memSize
  /-- Memory is in canonical form, and nothing is listed at or above `MEMSIZE`. -/
  mem_wf : Memory.wf s.cfg s.mem = true
  /-- `PLANEMASK` is 1 to 15. -/
  mask_ne : s.planeMask ≠ 0
  /-- In low resolution every cell outside the active region is 0. -/
  lores : s.hires = false → ∀ p y x : Nat, (y ≥ s.cfg.loresH ∨ x ≥ s.cfg.loresW) → cell s.planes p y x = false
  voices_ok : ∀ q ∈ s.voices.toList, q.Ok s.cfg
  queue_ok : ∀ c ∈ s.queue, c.Ok

/-- No byte of memory reads differently. -/
def SameMemory (s t : State) : Prop := ∀ a, t.readByte a = s.readByte a

/-- No byte of memory outside `[a, a + n)` reads differently. -/
def SameMemoryOutside (s t : State) (a n : Nat) : Prop := ∀ k, (k < a ∨ a + n ≤ k) → t.readByte k = s.readByte k

/-- Only the general registers named change; memory, `I`, `pc` and everything else stay. -/
def OnlyRegs (s t : State) (rs : List Reg) : Prop :=
  t = { s with v := t.v } ∧ SameMemory s t ∧ ∀ r, r ∉ rs → t.reg r = s.reg r

/-- What a result with a flag leaves (41 R122, R135): the result in `V[x]` unless `x` is F, the flag in `VF`, nothing else
changed. -/
def ResultAndFlag (s t : State) (x : Reg) (result flag : Nat) : Prop :=
  (x ≠ vf → (t.reg x).toNat = result) ∧ (t.reg vf).toNat = flag ∧ OnlyRegs s t [x, vf]

/-- What a skip instruction leaves (40 R100), starting from `s` with the skip condition `c`. -/
def SkipOutcome (s t : State) (c : Prop) : Prop :=
  (¬c → t = s) ∧
  (c → s.pc.toNat + 1 < s.memSize →
    t = { s with pc := t.pc } ∧
    t.pc.toNat = (s.pc.toNat +
      if (s.readByte s.pc.toNat).toNat * 256 + (s.readByte (s.pc.toNat + 1)).toNat = 0xF000 then 4 else 2) % s.memSize) ∧
  (c → s.memSize ≤ s.pc.toNat + 1 → t = { s with run := .halted (.accessOutOfRange (s.pc.toNat + 1)) })

/-- The halt `AccessOutOfRange(addr)` and nothing else (60 R266, R270). -/
def HaltedOutOfRange (s t : State) (addr : Nat) : Prop := t = { s with run := .halted (.accessOutOfRange addr) }

/-- The next event of `s` is a `Tick`: none is pending, or a `Tick` heads the schedule; `s'` is `s` with it taken off. -/
def TickNext (s s' : State) : Prop :=
  (s.env.events = [] ∧ s' = s) ∨ ∃ rest, s.env.events = .tick :: rest ∧ s' = { s with env := { s.env with events := rest } }

/-- Plane `p` is selected by the mask (10 R30). -/
def State.Selects (s : State) (p : Nat) : Prop := p < 4 ∧ s.planeMask.getLsbD p = true

/-- Cell `(y, x)` lies in the active region (10 R29). -/
def State.Active (s : State) (y x : Nat) : Prop := y < s.height ∧ x < s.width

/-- Rows of a sprite and bytes per row (43 R188). -/
def spriteDims (n : BitVec 4) : Nat × Nat := if n = 0 then (16, 2) else (n.toNat, 1)

/-- How many selected planes lie below plane `p`: the place of `p`'s data in the sprite (43 R189). -/
def State.planeRank (s : State) (p : Nat) : Nat := ((List.range p).filter fun k => s.planeMask.getLsbD k).length

/-- A set, not dropped bit of the sprite's data for plane `p` falls on cell `(ty, tx)` (43 R188 to R190). -/
def State.SpriteHits (s : State) (x y : Reg) (n : BitVec 4) (p ty tx : Nat) : Prop :=
  ∃ r c, r < (spriteDims n).1 ∧ c < 8 * (spriteDims n).2 ∧
    (s.readByte (s.i.toNat + s.planeRank p * ((spriteDims n).1 * (spriteDims n).2) + r * (spriteDims n).2 + c / 8)).getLsbD
      (7 - c % 8) = true ∧
    (if s.cfg.qClip then
      tx = (s.reg x).toNat % s.width + c ∧ ty = (s.reg y).toNat % s.height + r ∧ tx < s.width ∧ ty < s.height
    else tx = ((s.reg x).toNat % s.width + c) % s.width ∧ ty = ((s.reg y).toNat % s.height + r) % s.height)

/-- The bytes a draw reads (20 R67): `popcount(PLANEMASK) * n`, or `popcount(PLANEMASK) * 32`. -/
def State.drawBytes (s : State) (n : BitVec 4) : Nat := s.planeRank 4 * ((spriteDims n).1 * (spriteDims n).2)

end Sys2Proof.Machine
end

