-- ==== Sys2Proof/Certificates/Slice0/Obligations.lean ====
section
/-! DEFINITION. The statements about the core, from the numbered rules of spec/. Files of spec/ are named by their number
(41 R127 is rule R127 of 41_load_alu.md). A clause that rests on a decision of the spec's own (92_eei_decisions.md) or on a
choice of the model names the decision or the log entry. -/

open Sys2Proof Sys2Proof.Machine

/-! ## Encoding and the step -/

/-- 30 R86 to R88, R95: words written out from the encoding tables, one or more per family, and what they decode to with the
default `ENC_*` (log entry 15). -/
def Obligations.SampleWordsDecode : Prop :=
  let decode (w : Word) : Except IllegalWord Instr := decodeWord Encodings.default w
  decode 0x8AB4 = .ok (.addReg 0xA 0xB) ∧ decode 0xD015 = .ok (.drw 0 1 5) ∧ decode 0xF31E = .ok (.addI 3) ∧
  decode 0x00EE = .ok .ret ∧ decode 0x00C7 = .ok (.scd 7) ∧ decode 0x6A2C = .ok (.ldImm 0xA 0x2C) ∧
  decode 0x5132 = .ok (.save 1 3) ∧ decode 0xE0A1 = .ok (.sknp 0) ∧ decode 0xF202 = .ok (.audio 2) ∧
  decode 0xF03E = .ok (.pal 0) ∧ decode 0x0123 = .error (.unknownMachineCode 0x0123) ∧
  decode 0xF001 = .error (.unknownOpcode 0xF001) ∧
  decodeBytes Encodings.default [0xF0, 0x00, 0x12, 0x34] = .ok (.ldl 0x1234, [])

/-- 30 R82: the fields of a word, how they overlap, the worked example, and the literal `nnnn` of the long form. -/
def Obligations.FieldsOfAWord : Prop :=
  ∀ w : Word,
    w.toNat = (fieldO w).toNat * 4096 + (fieldX w).toNat * 256 + (fieldY w).toNat * 16 + (fieldN w).toNat ∧
    (fieldNN w).toNat = (fieldY w).toNat * 16 + (fieldN w).toNat ∧
    (fieldNNN w).toNat = (fieldX w).toNat * 256 + (fieldNN w).toNat ∧
    (regX w).val = (fieldX w).toNat ∧ (regY w).val = (fieldY w).toNat ∧
    (∀ e b2 b3 rest, decodeBytes e (0xF0 :: 0x00 :: b2 :: b3 :: rest) = .ok (.ldl (b2 ++ b3), rest)) ∧
    (w = 0x1234 → fieldO w = 1 ∧ fieldX w = 2 ∧ fieldY w = 3 ∧ fieldN w = 4 ∧ fieldNN w = 0x34 ∧ fieldNNN w = 0x234)

/-- Decode and encode agree, for every choice of the `ENC_*` parameters, every well-formed instruction and whatever bytes
follow (30 R80 to R88, R90). -/
def Obligations.DecodeOfEncode : Prop :=
  ∀ (c : Config) (i : Instr) (rest : List Byte), i.wf = true →
    decodeBytes c.enc (encodeBytes c.enc i ++ rest) = .ok (i, rest)

/-- The other direction: a word that decodes is the encoding of what it decodes to, which is well formed (30 R85). -/
def Obligations.EncodeOfDecode : Prop :=
  ∀ (e : Encodings) (w : Word) (i : Instr), decodeWord e w = .ok i → i.wf = true ∧ encode e i = [w]

/-- 30 R89: the illegal words, exactly, with the halt reason that records the word: for every choice of the `ENC_*`
parameters, and as R89 lists them for the defaults of R90 (the choices are decisions D7, D8; log entry 15). -/
def Obligations.IllegalWordsExactly : Prop :=
  let illegal (w : Word) (scrolls : List Nat) (machine : List Nat) (plane pattern : Nat) (extended : List Nat) : Prop :=
    let o := (fieldO w).toNat
    let x := (fieldX w).toNat
    let n := (fieldN w).toNat
    let nn := (fieldNN w).toNat
    (o = 0 ∧ w.toNat / 16 ∉ scrolls ∧ w.toNat ∉ machine) ∨
      (o = 5 ∧ n ∉ [0, 2, 3]) ∨ (o = 8 ∧ n ∈ [0x8, 0x9, 0xA, 0xB]) ∨ (o = 9 ∧ n ≠ 0) ∨ (o = 0xE ∧ nn ∉ [0x9E, 0xA1]) ∨
      (o = 0xF ∧ nn = plane ∧ x = 0) ∨ (o = 0xF ∧ nn = pattern ∧ x > 3) ∨ (o = 0xF ∧ nn ≠ plane ∧ nn ≠ pattern ∧ nn ∉ extended)
  let exact (e : Encodings) (w : Word) (p : Prop) : Prop :=
    (p → decodeWord e w = .error (if (fieldO w).toNat = 0 then .unknownMachineCode w else .unknownOpcode w)) ∧
    (¬p → ∃ i, decodeWord e w = .ok i)
  (∀ (c : Config) (e : Encodings) (w : Word), e = c.enc → w ≠ 0xF000 →
    exact e w (illegal w [e.scrollDown.toNat, e.scrollUp.toNat]
      ([e.clear, e.invert, e.ret, e.modeOr, e.modeAnd, e.modeXor, e.scrollRight, e.scrollLeft, e.exit, e.lores,
        e.hires].map BitVec.toNat)
      e.plane.toNat e.pattern.toNat
      (0x0A :: [e.getDt, e.setDt, e.setSt, e.addI, e.font, e.bigFont, e.bcd, e.pitch, e.volume, e.voice, e.chan, e.palette,
        e.store, e.load, e.flagsOut, e.flagsIn].map BitVec.toNat))) ∧
  ∀ w : Word, w ≠ 0xF000 →
    exact Encodings.default w (illegal w [0x00C, 0x00D]
      [0x00E0, 0x00E1, 0x00EE, 0x00F1, 0x00F2, 0x00F3, 0x00FB, 0x00FC, 0x00FD, 0x00FE, 0x00FF] 0x01 0x02
      [0x07, 0x0A, 0x15, 0x18, 0x1E, 0x29, 0x30, 0x33, 0x3A, 0x3B, 0x3C, 0x3D, 0x3E, 0x55, 0x65, 0x75, 0x85])

/-- When the bytes at `pc` decode to an instruction, a step whose event is a `Tick` is `exec` of it, `pc` advanced past its
words modulo `MEMSIZE` (30 R80; the modulo is decision D2). -/
def Obligations.StepRunsTheDecodedInstruction : Prop :=
  ∀ s s' : State, TickNext s s' → s.run = .running → s.pc.toNat + 1 < s.memSize →
    (∀ i, s.readWord s.pc.toNat ≠ 0xF000 → decodeWord s.cfg.enc (s.readWord s.pc.toNat) = .ok i →
      step s = exec i { s' with pc := BitVec.ofNat 16 ((s.pc.toNat + 2) % s.memSize) }) ∧
    (∀ p, p = (s.pc.toNat + 2) % s.memSize → s.readWord s.pc.toNat = 0xF000 → p + 1 < s.memSize →
      step s = exec (.ldl (s.readWord p)) { s' with pc := BitVec.ofNat 16 ((p + 2) % s.memSize) })

/-- The fetch's own halts: a word that is not wholly in memory, and an illegal word; only `RUN` and the fetch advance of `pc`
change (60 R261, R262, R266; the halt on an access out of range is decision D3, what a halt leaves decision D5). -/
def Obligations.FetchHalts : Prop :=
  ∀ s s' : State, TickNext s s' → s.run = .running →
    (s.memSize ≤ s.pc.toNat + 1 → step s = .next { s' with run := .halted (.accessOutOfRange (s.pc.toNat + 1)) }) ∧
    (s.pc.toNat + 1 < s.memSize → ∀ p, p = (s.pc.toNat + 2) % s.memSize →
      (s.readWord s.pc.toNat = 0xF000 → s.memSize ≤ p + 1 →
        step s = .next { s' with pc := BitVec.ofNat 16 p, run := .halted (.accessOutOfRange (p + 1)) }) ∧
      (∀ w, s.readWord s.pc.toNat = w → w ≠ 0xF000 → decodeWord s.cfg.enc w = .error (.unknownOpcode w) →
        step s = .next { s' with pc := BitVec.ofNat 16 p, run := .halted (.unknownOpcode w) }) ∧
      (∀ w, s.readWord s.pc.toNat = w → decodeWord s.cfg.enc w = .error (.unknownMachineCode w) →
        step s = .next { s' with pc := BitVec.ofNat 16 p, run := .halted (.unknownMachineCode w) }))

/-- 10 R39, 60 R276: a `Tick` while waiting for a key or halted changes nothing. -/
def Obligations.TickWhileStoppedChangesNothing : Prop :=
  ∀ s s' : State, TickNext s s' → s.run ≠ .running → step s = .next s'

/-! ## Control flow -/

/-- 40 R101: 1NNN, its word and its effect. -/
def Obligations.JumpGoesToItsTarget : Prop :=
  ∀ (nnn : BitVec 12) (s : State), (encode s.cfg.enc (.jp nnn)).map BitVec.toNat = [0x1000 + nnn.toNat] ∧ ∃ t, exec (.jp nnn) s = .next t ∧
    t = { s with pc := t.pc } ∧ t.pc.toNat = nnn.toNat ∧ SameMemory s t

/-- 40 R102: 2NNN, its word; it pushes the fetch-advanced `pc` and jumps; with 12 entries it halts and does neither. -/
def Obligations.CallPushesOrOverflows : Prop :=
  ∀ (nnn : BitVec 12) (s : State), (encode s.cfg.enc (.call nnn)).map BitVec.toNat = [0x2000 + nnn.toNat] ∧
    (s.stack.length < 12 → ∃ t, exec (.call nnn) s = .next t ∧ t = { s with stack := s.pc :: s.stack, pc := t.pc } ∧
      t.pc.toNat = nnn.toNat ∧ SameMemory s t) ∧
    (12 ≤ s.stack.length → exec (.call nnn) s = .next { s with run := .halted (.stackOverflow s.pc) })

/-- 40 R103: 00EE takes the most recently pushed entry; on an empty stack it halts (decision D4 of the spec). -/
def Obligations.ReturnPopsOrUnderflows : Prop :=
  ∀ s : State,
    (∀ a rest, s.stack = a :: rest → a.toNat < s.memSize → exec .ret s = .next { s with stack := rest, pc := a }) ∧
    (s.stack = [] → exec .ret s = .next { s with run := .halted (.stackUnderflow s.pc) })

/-- 40 R104 to R107 with the skip step of R100: the four register skips. -/
def Obligations.RegisterSkips : Prop :=
  ∀ (x y : Reg) (nn : Byte) (s : State),
    (∃ t, exec (.seImm x nn) s = .next t ∧ SkipOutcome s t (s.reg x = nn)) ∧
    (∃ t, exec (.sneImm x nn) s = .next t ∧ SkipOutcome s t (s.reg x ≠ nn)) ∧
    (∃ t, exec (.seReg x y) s = .next t ∧ SkipOutcome s t (s.reg x = s.reg y)) ∧
    (∃ t, exec (.sneReg x y) s = .next t ∧ SkipOutcome s t (s.reg x ≠ s.reg y))

/-- 40 R109: BNNN; the sum is stored modulo `MEMSIZE` (decision D2 of the spec). -/
def Obligations.JumpWithOffset : Prop :=
  ∀ (nnn : BitVec 12) (s : State), ∃ t, exec (.jpOff nnn) s = .next t ∧ t = { s with pc := t.pc } ∧ SameMemory s t ∧
    (s.cfg.qJump = false → t.pc.toNat = (nnn.toNat + (s.reg 0).toNat) % s.memSize) ∧
    (s.cfg.qJump = true → ∀ r : Reg, r.val = nnn.toNat / 256 → t.pc.toNat = (nnn.toNat + (s.reg r).toNat) % s.memSize)

/-- 44 R200, R201 with the skip step of 40 R100: the key skips; the port is consulted once, with the whole byte; a byte that is
no key code (a code is below `KEYS`) is not held. The answer for a key code is the driven level, or a free value (log entry 6).
The advance modulo `MEMSIZE` is decision D2 (log entry 12), the halt on the peeked word D3 (log entry 13). -/
def Obligations.KeySkips : Prop :=
  ∀ (x : Reg) (s : State), ∃ held : Bool,
    (s.cfg.keys ≤ (s.reg x).toNat → held = false) ∧
    (∀ level, s.env.keysHeld = some level → (s.reg x).toNat < s.cfg.keys → held = level.getLsbD (s.reg x).toNat) ∧
    (∃ t, exec (.skp x) s = .next t ∧
      SkipOutcome { s with env := { s.env with draws := s.env.draws + 1 } } t (held = true)) ∧
    (∃ t, exec (.sknp x) s = .next t ∧
      SkipOutcome { s with env := { s.env with draws := s.env.draws + 1 } } t (held = false))

/-! ## Loads, arithmetic, logic -/

/-- 41 R120, R121, R123: 6XNN, 7XNN, 8XY0, their words and effects; `VF` is written only as an ordinary destination. -/
def Obligations.LoadAddAndMove : Prop :=
  ∀ (x y : Reg) (nn : Byte) (s : State),
    (encode s.cfg.enc (.ldImm x nn)).map BitVec.toNat = [0x6000 + x.val * 0x100 + nn.toNat] ∧
    (encode s.cfg.enc (.addImm x nn)).map BitVec.toNat = [0x7000 + x.val * 0x100 + nn.toNat] ∧
    (encode s.cfg.enc (.ldReg x y)).map BitVec.toNat = [0x8000 + x.val * 0x100 + y.val * 0x10] ∧
    (∃ t, exec (.ldImm x nn) s = .next t ∧ t.reg x = nn ∧ OnlyRegs s t [x]) ∧
    (∃ t, exec (.addImm x nn) s = .next t ∧ (t.reg x).toNat = ((s.reg x).toNat + nn.toNat) % 256 ∧ OnlyRegs s t [x]) ∧
    (∃ t, exec (.ldReg x y) s = .next t ∧ t.reg x = s.reg y ∧ OnlyRegs s t [x])

/-- 41 R124, R125, R126: the logic operations, their words and effects, `VF` cleared afterwards under the logic quirk and not touched without it. -/
def Obligations.LogicOperations : Prop :=
  ∀ (x y : Reg) (s : State),
    let post (t : State) (r : Byte) : Prop :=
      (s.cfg.qLogic = false → t.reg x = r ∧ OnlyRegs s t [x]) ∧
      (s.cfg.qLogic = true → (x ≠ vf → t.reg x = r) ∧ t.reg vf = 0 ∧ OnlyRegs s t [x, vf])
    (encode s.cfg.enc (.or x y)).map BitVec.toNat = [0x8001 + x.val * 0x100 + y.val * 0x10] ∧
    (encode s.cfg.enc (.and x y)).map BitVec.toNat = [0x8002 + x.val * 0x100 + y.val * 0x10] ∧
    (encode s.cfg.enc (.xor x y)).map BitVec.toNat = [0x8003 + x.val * 0x100 + y.val * 0x10] ∧
    (∃ t, exec (.or x y) s = .next t ∧ post t (s.reg x ||| s.reg y)) ∧
    (∃ t, exec (.and x y) s = .next t ∧ post t (s.reg x &&& s.reg y)) ∧
    (∃ t, exec (.xor x y) s = .next t ∧ post t (s.reg x ^^^ s.reg y))

/-- 41 R127, with R122's order of writes: 8XY4, its word and effect. -/
def Obligations.AddWithCarry : Prop :=
  ∀ (x y : Reg) (s : State), (encode s.cfg.enc (.addReg x y)).map BitVec.toNat = [0x8004 + x.val * 0x100 + y.val * 0x10] ∧
    ∃ t, exec (.addReg x y) s = .next t ∧
    ResultAndFlag s t x (((s.reg x).toNat + (s.reg y).toNat) % 256)
      (if (s.reg x).toNat + (s.reg y).toNat > 255 then 1 else 0)

/-- 41 R128, R129: 8XY5 and 8XY7, their words, the difference modulo 256 and not-borrow. -/
def Obligations.SubtractWithNotBorrow : Prop :=
  ∀ (x y : Reg) (s : State),
    let post (t : State) (a b : Nat) : Prop :=
      ∃ d : Nat, (d : ℤ) = ((a : ℤ) - b) % 256 ∧ ResultAndFlag s t x d (if a ≥ b then 1 else 0)
    (encode s.cfg.enc (.sub x y)).map BitVec.toNat = [0x8005 + x.val * 0x100 + y.val * 0x10] ∧
    (encode s.cfg.enc (.subn x y)).map BitVec.toNat = [0x8007 + x.val * 0x100 + y.val * 0x10] ∧
    (∃ t, exec (.sub x y) s = .next t ∧ post t (s.reg x).toNat (s.reg y).toNat) ∧
    (∃ t, exec (.subn x y) s = .next t ∧ post t (s.reg y).toNat (s.reg x).toNat)

/-- 41 R130, R131: 8XY6 and 8XYE, their words; the operand is `Vy`, or `Vx` under the shift quirk; `VF` is the bit shifted out. -/
def Obligations.ShiftsByOne : Prop :=
  ∀ (x y : Reg) (s : State) (a : Nat), a = (if s.cfg.qShift then s.reg x else s.reg y).toNat →
    (encode s.cfg.enc (.shr x y)).map BitVec.toNat = [0x8006 + x.val * 0x100 + y.val * 0x10] ∧
    (encode s.cfg.enc (.shl x y)).map BitVec.toNat = [0x800E + x.val * 0x100 + y.val * 0x10] ∧
    (∃ t, exec (.shr x y) s = .next t ∧ ResultAndFlag s t x (a / 2) (a % 2)) ∧
    (∃ t, exec (.shl x y) s = .next t ∧ ResultAndFlag s t x (a * 2 % 256) (a / 128))

/-- 41 R132: 8XYC, its word, low byte and high byte of the product. -/
def Obligations.MultiplyLowAndHigh : Prop :=
  ∀ (x y : Reg) (s : State), (encode s.cfg.enc (.mul x y)).map BitVec.toNat = [0x800C + x.val * 0x100 + y.val * 0x10] ∧
    ∃ t, exec (.mul x y) s = .next t ∧
    ResultAndFlag s t x ((s.reg x).toNat * (s.reg y).toNat % 256) ((s.reg x).toNat * (s.reg y).toNat / 256)

/-- 41 R133, R134: 8XYD and 8XYF, their words, quotient and remainder; a zero divisor gives the pair `DIV0`, (0, 0) unless
the host sets another, and does not halt. -/
def Obligations.DivideQuotientAndRemainder : Prop :=
  ∀ (x y : Reg) (s : State),
    let post (t : State) (a b : Nat) : Prop :=
      (b = 0 → ResultAndFlag s t x s.cfg.div0.1.toNat s.cfg.div0.2.toNat) ∧
      (b ≠ 0 → ResultAndFlag s t x (a / b) (a % b))
    (encode s.cfg.enc (.div x y)).map BitVec.toNat = [0x800D + x.val * 0x100 + y.val * 0x10] ∧
    (encode s.cfg.enc (.divn x y)).map BitVec.toNat = [0x800F + x.val * 0x100 + y.val * 0x10] ∧ Config.default.div0 = (0, 0) ∧
    (∃ t, exec (.div x y) s = .next t ∧ post t (s.reg x).toNat (s.reg y).toNat) ∧
    (∃ t, exec (.divn x y) s = .next t ∧ post t (s.reg y).toNat (s.reg x).toNat)

/-- 41 R140: CXNN takes the byte the `RAND` port delivers, the first one waiting, or a free one (decision D19; log entry 7). -/
def Obligations.RandomUnderMask : Prop :=
  ∀ (x : Reg) (nn : Byte) (s : State), ∃ t, exec (.rnd x nn) s = .next t ∧
    (∃ r : Byte, t.reg x = r &&& nn ∧ ∀ b rest, s.env.randIn = b :: rest → r = b) ∧
    t.reg x &&& ~~~nn = 0 ∧ (∀ z, z ≠ x → t.reg z = s.reg z) ∧ SameMemory s t ∧
    t = { s with v := t.v, env := { s.env with randIn := s.env.randIn.tail, draws := s.env.draws + 1 } }

/-! ## Index register and memory -/

/-- 42 R150: ANNN, its word and effect. -/
def Obligations.LoadIndex : Prop :=
  ∀ (nnn : BitVec 12) (s : State), (encode s.cfg.enc (.ldI nnn)).map BitVec.toNat = [0xA000 + nnn.toNat] ∧
    ∃ t, exec (.ldI nnn) s = .next t ∧ t = { s with i := t.i } ∧
    t.i.toNat = nnn.toNat ∧ SameMemory s t

/-- 42 R151 with 30 R80: the long literal, from its four bytes; all 16 bits are loaded in classic mode too; a second word
that is not wholly in memory halts with `I` unchanged and `pc` at it. -/
def Obligations.LongLiteralLoadsSixteenBits : Prop :=
  (∀ (nnnn : Word) (s : State), exec (.ldl nnnn) s = .next { s with i := nnnn }) ∧
  ∀ s s' : State, TickNext s s' → s.run = .running → s.pc.toNat + 1 < s.memSize →
    s.readByte s.pc.toNat = 0xF0 → s.readByte (s.pc.toNat + 1) = 0x00 → ∀ p, p = (s.pc.toNat + 2) % s.memSize →
    (p + 1 < s.memSize → ∃ t, step s = .next t ∧ t = { s' with i := t.i, pc := t.pc } ∧
      t.i.toNat = (s.readByte p).toNat * 256 + (s.readByte (p + 1)).toNat ∧ t.pc.toNat = (p + 2) % s.memSize) ∧
    (s.memSize ≤ p + 1 → ∃ t, step s = .next t ∧
      t = { s' with pc := t.pc, run := .halted (.accessOutOfRange (p + 1)) } ∧ t.pc.toNat = p)

/-- 42 R152: FX1E, masked to the addressing width; no flag. -/
def Obligations.AddToIndexMasked : Prop :=
  ∀ (x : Reg) (s : State), ∃ t, exec (.addI x) s = .next t ∧ t = { s with i := t.i } ∧ SameMemory s t ∧
    t.i.toNat = (s.i.toNat + (s.reg x).toNat) % (if s.cfg.extended then 0x10000 else 0x1000)

/-- 42 R153, R154: FX29 and FX30, the glyph addresses of digit `Vx & 0xF`. -/
def Obligations.GlyphAddresses : Prop :=
  ∀ (x : Reg) (s : State),
    (∃ t, exec (.ldF x) s = .next t ∧ t = { s with i := t.i } ∧ SameMemory s t ∧ t.i.toNat = 5 * ((s.reg x).toNat % 16)) ∧
    (∃ t, exec (.ldHf x) s = .next t ∧ t = { s with i := t.i } ∧ SameMemory s t ∧
      t.i.toNat = 80 + 10 * ((s.reg x).toNat % 16))

/-- 42 R155: FX33, the three digits at `I`, `I + 1`, `I + 2` (decision D21); the whole range checked first (D3). -/
def Obligations.BinaryCodedDecimal : Prop :=
  ∀ (x : Reg) (s : State),
    (s.i.toNat + 2 < s.memSize → ∃ t, exec (.ldB x) s = .next t ∧ t = { s with mem := t.mem } ∧
      (t.readByte s.i.toNat).toNat = (s.reg x).toNat / 100 ∧
      (t.readByte (s.i.toNat + 1)).toNat = (s.reg x).toNat / 10 % 10 ∧
      (t.readByte (s.i.toNat + 2)).toNat = (s.reg x).toNat % 10 ∧ SameMemoryOutside s t s.i.toNat 3) ∧
    (s.memSize ≤ s.i.toNat + 2 → ∃ t, exec (.ldB x) s = .next t ∧ HaltedOutOfRange s t (s.i.toNat + 2))

/-- 42 R158: FX55 (the wrap of the advance is decision D22, the check of the range D3). -/
def Obligations.StoreRegisterBlock : Prop :=
  ∀ (x : Reg) (s : State),
    (s.i.toNat + x.val < s.memSize → ∃ t, exec (.storeRegs x) s = .next t ∧ t = { s with mem := t.mem, i := t.i } ∧
      (∀ k : Reg, k ≤ x → t.readByte (s.i.toNat + k.val) = s.reg k) ∧ SameMemoryOutside s t s.i.toNat (x.val + 1) ∧
      t.i.toNat = if s.cfg.qLoadStore then s.i.toNat else (s.i.toNat + x.val + 1) % 65536) ∧
    (s.memSize ≤ s.i.toNat + x.val → ∃ t, exec (.storeRegs x) s = .next t ∧ HaltedOutOfRange s t (s.i.toNat + x.val))

/-- 42 R159: FX65 (D22, D3 as for FX55). -/
def Obligations.LoadRegisterBlock : Prop :=
  ∀ (x : Reg) (s : State),
    (s.i.toNat + x.val < s.memSize → ∃ t, exec (.loadRegs x) s = .next t ∧ t = { s with v := t.v, i := t.i } ∧
      (∀ k : Reg, t.reg k = if k ≤ x then s.readByte (s.i.toNat + k.val) else s.reg k) ∧ SameMemory s t ∧
      t.i.toNat = if s.cfg.qLoadStore then s.i.toNat else (s.i.toNat + x.val + 1) % 65536) ∧
    (s.memSize ≤ s.i.toNat + x.val → ∃ t, exec (.loadRegs x) s = .next t ∧ HaltedOutOfRange s t (s.i.toNat + x.val))

/-- 42 R160: 5XY2; register `r` of the range goes to `I + |x - r|`, in either direction; `I` stays (D22, D3). -/
def Obligations.SaveRegisterRange : Prop :=
  ∀ (x y : Reg) (s : State) (cnt : Nat), cnt = Nat.dist x.val y.val + 1 →
    (s.i.toNat + cnt - 1 < s.memSize → ∃ t, exec (.save x y) s = .next t ∧ t = { s with mem := t.mem } ∧
      (∀ r : Reg, min x y ≤ r → r ≤ max x y → t.readByte (s.i.toNat + Nat.dist x.val r.val) = s.reg r) ∧
      SameMemoryOutside s t s.i.toNat cnt) ∧
    (s.memSize ≤ s.i.toNat + cnt - 1 → ∃ t, exec (.save x y) s = .next t ∧ HaltedOutOfRange s t (s.i.toNat + cnt - 1))

/-- 42 R161: 5XY3, the inverse; `I` stays (D22, D3). -/
def Obligations.LoadRegisterRange : Prop :=
  ∀ (x y : Reg) (s : State) (cnt : Nat), cnt = Nat.dist x.val y.val + 1 →
    (s.i.toNat + cnt - 1 < s.memSize → ∃ t, exec (.load x y) s = .next t ∧ t = { s with v := t.v } ∧ SameMemory s t ∧
      (∀ r : Reg, t.reg r = if min x y ≤ r ∧ r ≤ max x y then s.readByte (s.i.toNat + Nat.dist x.val r.val) else s.reg r)) ∧
    (s.memSize ≤ s.i.toNat + cnt - 1 → ∃ t, exec (.load x y) s = .next t ∧ HaltedOutOfRange s t (s.i.toNat + cnt - 1))

/-! ## Display -/

/-- 43 R170, R176: 00E0 clears the whole grid of the selected planes, 00E1 inverts their active region (the regions are
decision D15); 43 R171: a plane that is not selected is left unchanged. -/
def Obligations.ClearAndInvert : Prop :=
  ∀ s : State,
    (∃ t, exec .cls s = .next t ∧ t = { s with planes := t.planes } ∧ SameMemory s t ∧
      (∀ p y x, s.Selects p → cell t.planes p y x = false) ∧
      (∀ p y x, ¬s.Selects p → cell t.planes p y x = cell s.planes p y x)) ∧
    (∃ t, exec .inv s = .next t ∧ t = { s with planes := t.planes } ∧ SameMemory s t ∧
      (∀ p y x, s.Selects p → s.Active y x → cell t.planes p y x = !cell s.planes p y x) ∧
      (∀ p y x, ¬(s.Selects p ∧ s.Active y x) → cell t.planes p y x = cell s.planes p y x))

/-- 43 R171 to R175: the four scrolls of the selected planes' active region, back-filled with 0 (`HSCROLL` and the region
are decision D9). -/
def Obligations.ScrollsMoveTheActiveRegion : Prop :=
  ∀ (n : BitVec 4) (s : State),
    let post (t : State) (f : Nat → Nat → Nat → Bool) : Prop :=
      t = { s with planes := t.planes } ∧ SameMemory s t ∧
      (∀ p y x, s.Selects p → s.Active y x → cell t.planes p y x = f p y x) ∧
      (∀ p y x, ¬(s.Selects p ∧ s.Active y x) → cell t.planes p y x = cell s.planes p y x)
    (∃ t, exec (.scd n) s = .next t ∧ post t fun p y x => decide (n.toNat ≤ y) && cell s.planes p (y - n.toNat) x) ∧
    (∃ t, exec (.scu n) s = .next t ∧
      post t fun p y x => decide (y + n.toNat < s.height) && cell s.planes p (y + n.toNat) x) ∧
    (∃ t, exec .scr s = .next t ∧ post t fun p y x => decide (s.cfg.hScroll ≤ x) && cell s.planes p y (x - s.cfg.hScroll)) ∧
    (∃ t, exec .scl s = .next t ∧
      post t fun p y x => decide (x + s.cfg.hScroll < s.width) && cell s.planes p y (x + s.cfg.hScroll))

/-- 43 R178, R179, R180: the resolution switches clear all four planes whatever the mask, and change nothing else but
`HIRES`. -/
def Obligations.ResolutionSwitchesClearAllPlanes : Prop :=
  ∀ s : State,
    (∃ t, exec .low s = .next t ∧ t = { s with hires := false, planes := t.planes } ∧ SameMemory s t ∧
      ∀ p y x, cell t.planes p y x = false) ∧
    (∃ t, exec .high s = .next t ∧ t = { s with hires := true, planes := t.planes } ∧ SameMemory s t ∧
      ∀ p y x, cell t.planes p y x = false)

/-- 43 R182 to R184, R186: draw mode and plane mask; FN01 with `N` = 0 is an illegal
instruction (decision D11), the word F001 where `ENC_PLANE` has its default. -/
def Obligations.DrawModeAndPlaneMask : Prop :=
  ∀ s : State,
    exec .dmor s = .next { s with drawMode := .or } ∧ exec .dmand s = .next { s with drawMode := .and } ∧
    exec .dmxor s = .next { s with drawMode := .xor } ∧
    (∀ n : BitVec 4, n ≠ 0 → exec (.plane n) s = .next { s with planeMask := n }) ∧
    ∃ w : Word, w.toNat = 0xF000 + s.cfg.enc.val.plane.toNat ∧
      exec (.plane 0) s = .next { s with run := .halted (.unknownOpcode w) }

/-- 43 R188, R192: what a draw changes: the selected planes and `VF`, which is 0 or 1; `I` and memory stay; sprite data not
wholly in memory halt the machine with nothing drawn (decision D3). -/
def Obligations.DrawChangesOnlySelectedPlanesAndVF : Prop :=
  ∀ (x y : Reg) (n : BitVec 4) (s : State),
    (s.drawBytes n = 0 ∨ s.i.toNat + s.drawBytes n - 1 < s.memSize →
      ∃ t, exec (.drw x y n) s = .next t ∧ t = { s with planes := t.planes, v := t.v } ∧
        (t.reg vf = 0 ∨ t.reg vf = 1) ∧ (∀ r, r ≠ vf → t.reg r = s.reg r) ∧ SameMemory s t ∧
        ∀ p cy cx, ¬(s.Selects p ∧ s.Active cy cx) → cell t.planes p cy cx = cell s.planes p cy cx) ∧
    (s.drawBytes n ≠ 0 → s.memSize ≤ s.i.toNat + s.drawBytes n - 1 →
      ∃ t, exec (.drw x y n) s = .next t ∧ HaltedOutOfRange s t (s.i.toNat + s.drawBytes n - 1))

/-- 43 R188 to R191 cell by cell: a cell of a selected plane that a set, not dropped sprite bit falls on is composed with it, every other cell keeps
its value, and `VF` is 1 exactly if such a cell was set before (the data layout is decisions D12, D13, the rule of
composition D14). -/
def Obligations.DrawComposesTheCellsTheSpriteHits : Prop :=
  ∀ (x y : Reg) (n : BitVec 4) (s t : State),
    s.drawBytes n = 0 ∨ s.i.toNat + s.drawBytes n - 1 < s.memSize → exec (.drw x y n) s = .next t →
    (∀ p ty tx, s.Selects p → s.SpriteHits x y n p ty tx → cell t.planes p ty tx =
      match s.drawMode with
      | .xor => !cell s.planes p ty tx
      | .or => true
      | .and => cell s.planes p ty tx) ∧
    (∀ p ty tx, ¬(s.Selects p ∧ s.SpriteHits x y n p ty tx) → cell t.planes p ty tx = cell s.planes p ty tx) ∧
    (t.reg vf = 1 ↔ ∃ p ty tx, s.Selects p ∧ s.SpriteHits x y n p ty tx ∧ cell s.planes p ty tx = true)

/-- 43 R192 (f), 95 S5: drawing the same sprite twice at the same place under XOR restores every cell, and the second draw
collides if a set bit of the sprite is not dropped. -/
def Obligations.XorDrawTwiceRestores : Prop :=
  ∀ (x y : Reg) (n : BitVec 4) (s t u : State), x ≠ vf → y ≠ vf → s.drawMode = .xor →
    s.drawBytes n = 0 ∨ s.i.toNat + s.drawBytes n - 1 < s.memSize →
    exec (.drw x y n) s = .next t → exec (.drw x y n) t = .next u →
    (∀ p cy cx, cell u.planes p cy cx = cell s.planes p cy cx) ∧
    ((∃ p ty tx, s.Selects p ∧ s.SpriteHits x y n p ty tx) → t.reg vf = 0 → u.reg vf = 1)

/-- 43 R194: FX3E (its operands are decision D24, the check of the range D3). -/
def Obligations.PaletteLoad : Prop :=
  ∀ (x : Reg) (s : State),
    (s.i.toNat + 2 < s.memSize → ∃ t, exec (.pal x) s = .next t ∧ t = { s with pal := t.pal } ∧ SameMemory s t ∧
      ∀ k : Fin 16, t.pal[k] = if k.val = (s.reg x).toNat % 16
        then ⟨s.readByte s.i.toNat, s.readByte (s.i.toNat + 1), s.readByte (s.i.toNat + 2)⟩ else s.pal[k]) ∧
    (s.memSize ≤ s.i.toNat + 2 → ∃ t, exec (.pal x) s = .next t ∧ HaltedOutOfRange s t (s.i.toNat + 2))

/-! ## Keys, timers, flags, exit -/

/-- 44 R202, R203, 10 R40: FX0A waits; a key release writes its code and resumes; it changes nothing unless waiting. -/
def Obligations.KeyWaitAndRelease : Prop :=
  (∀ (x : Reg) (s : State), exec (.ldVxK x) s = .next { s with run := .waitingForKey x }) ∧
  ∀ (s : State) (code : Byte) (rest : List Event), s.env.events = .keyRelease code :: rest →
    ∃ t, step s = .next t ∧ t.env = { s.env with events := rest } ∧
      (∀ x, s.run = .waitingForKey x → t = { s with v := t.v, run := .running, env := t.env } ∧ t.reg x = code ∧
        ∀ r, r ≠ x → t.reg r = s.reg r) ∧
      ((∀ x, s.run ≠ .waitingForKey x) → t = { s with env := t.env })

/-- 44 R204, R205: FX07 and FX15. -/
def Obligations.DelayTimerReadAndWrite : Prop :=
  ∀ (x : Reg) (s : State),
    (∃ t, exec (.ldVxDt x) s = .next t ∧ t.reg x = s.dt ∧ OnlyRegs s t [x]) ∧
    exec (.ldDtVx x) s = .next { s with dt := s.reg x }

/-- 10 R42: a timer tick, in every run state; a timer at 0 stays 0 (decision D16); the voices count on it (D17). -/
def Obligations.TimerTickCountsDown : Prop :=
  ∀ (s : State) (rest : List Event), s.env.events = .timerTick :: rest →
    ∃ t, step s = .next t ∧ t.dt.toNat = s.dt.toNat - 1 ∧ t.st.toNat = s.st.toNat - 1 ∧
      (∀ k : Fin 4, t.voices[k].count.toNat = s.voices[k].count.toNat - 1 ∧
        t.voices[k] = { s.voices[k] with count := t.voices[k].count }) ∧
      t = { s with dt := t.dt, st := t.st, voices := t.voices, env := { s.env with events := rest } }

/-- 44 R206, 45 R221, R229: FX18 writes `ST` and, for a real voice, its countdown; an expired voice that becomes active
starts from zero filter state (decisions D17, D33); the null voice discards the voice part (D26). -/
def Obligations.SoundTimerStartsTheSelectedVoice : Prop :=
  ∀ (x : Reg) (s : State), ∃ t, exec (.ldStVx x) s = .next t ∧ SameMemory s t ∧
    t = { s with st := s.reg x, voices := t.voices, env := { s.env with out := s.env.out ++ [.onSoundTimerSet (s.reg x)] } } ∧
    (4 ≤ s.sel.toNat → t.voices = s.voices) ∧
    (∀ k : Fin 4, k.val ≠ s.sel.toNat → t.voices[k] = s.voices[k]) ∧
    (∀ k : Fin 4, k.val = s.sel.toNat →
      t.voices[k] = if s.voices[k].count = 0 ∧ s.reg x ≠ 0
        then { s.voices[k] with count := s.reg x, dspL := Dsp.zero, dspR := Dsp.zero }
        else { s.voices[k] with count := s.reg x })

/-- 44 R210, R211: FX75 copies `V0..Vx` into the flag vector and exports all of it; FX85 imports all of it, an absent vector
as zeros, and copies `FLAGS[0..x]` back (the range of registers and the working copy are decision D20; log entry 8). -/
def Obligations.FlagsExportAndImport : Prop :=
  ∀ (x : Reg) (s : State),
    (∃ t, exec (.flagsOut x) s = .next t ∧ SameMemory s t ∧
      t = { s with flags := t.flags, env := { s.env with out := s.env.out ++ [.exportFlags t.flags] } } ∧
      ∀ k : Reg, t.flags[k.val] = if k ≤ x then s.reg k else s.flags[k.val]) ∧
    (∃ t, exec (.flagsIn x) s = .next t ∧ SameMemory s t ∧
      t = { s with flags := t.flags, v := t.v, env := { s.env with flagsIn := s.env.flagsIn.tail, draws := s.env.draws + 1 } } ∧
      (∀ f rest, s.env.flagsIn = some f :: rest → t.flags = f) ∧
      (∀ rest, s.env.flagsIn = none :: rest → ∀ k : Reg, t.flags[k.val] = 0) ∧
      ∀ k : Reg, t.reg k = if k ≤ x then t.flags[k.val] else s.reg k)

/-- 44 R212: 00FD emits `on_exit` and stops the machine, with nothing else changed (decision D35). -/
def Obligations.ExitStopsTheMachine : Prop :=
  ∀ s : State, exec .exit s = .next { s with run := .halted .exit, env := { s.env with out := s.env.out ++ [.onExit] } }

/-! ## Audio -/

/-- 45 R220, R221, R224, R225, R226: voice select, pitch, volume, channel mask; each emits its hook; while the null voice is
selected no voice changes (decision D26; the mask's bits are D8). -/
def Obligations.VoiceControls : Prop :=
  ∀ (x : Reg) (s : State),
    let post (t : State) (o : Output) (f : Voice → Voice) : Prop :=
      SameMemory s t ∧ t = { s with voices := t.voices, env := { s.env with out := s.env.out ++ [o] } } ∧
      (4 ≤ s.sel.toNat → t.voices = s.voices) ∧
      ∀ k : Fin 4, t.voices[k] = if k.val = s.sel.toNat then f s.voices[k] else s.voices[k]
    exec (.voice x) s =
      .next { s with sel := s.reg x, env := { s.env with out := s.env.out ++ [.onVoiceSelect (s.reg x)] } } ∧
    (∃ t, exec (.pitch x) s = .next t ∧ post t (.onVoicePitchSet (s.reg x)) fun q => { q with pitch := s.reg x }) ∧
    (∃ t, exec (.vol x) s = .next t ∧ post t (.onVoiceVolumeSet (s.reg x)) fun q => { q with vol := s.reg x }) ∧
    (∃ t m, exec (.chan x) s = .next t ∧ m.toNat = (s.reg x).toNat % 4 ∧
      post t (.onVoiceChannelMaskSet m) fun q => { q with chan := m })

/-- 45 R222, R223: FM02 reads `PATTERN_BYTES` bytes at `I` and gives the selected voice the unpacked waveform: sample `k * (8 / bits) + j`
is the `j`-th cell of byte `k`, from the most significant, times the replicator of `bits` (decision D25). `M` above 3 is an
illegal instruction. -/
def Obligations.PatternLoadUnpacks : Prop :=
  ∀ (m : BitVec 4) (s : State) (len : Nat), len = s.cfg.patternBytes →
    (m.toNat ≤ 3 → s.i.toNat + len - 1 < s.memSize → ∀ bits, bits = 2 ^ m.toNat → ∃ t pat, exec (.audio m) s = .next t ∧
      pat.length = len ∧ (∀ k, k < len → pat.getD k 0 = s.readByte (s.i.toNat + k)) ∧ SameMemory s t ∧
      t = { s with voices := t.voices, env := { s.env with out := s.env.out ++ [.onVoiceBufferLoad pat bits] } } ∧
      (∀ v : Fin 4, v.val ≠ s.sel.toNat → t.voices[v] = s.voices[v]) ∧
      (∀ v : Fin 4, v.val = s.sel.toNat → t.voices[v] = { s.voices[v] with buf := t.voices[v].buf } ∧
        t.voices[v].buf.length = len * (8 / bits) ∧
        ∀ k j, k < len → j < 8 / bits → (t.voices[v].buf.getD (k * (8 / bits) + j) 0).toNat =
          ((pat.getD k 0).toNat / 2 ^ (8 - bits * (j + 1)) % 2 ^ bits) * (255 / (2 ^ bits - 1)))) ∧
    (m.toNat ≤ 3 → s.memSize ≤ s.i.toNat + len - 1 →
      ∃ t, exec (.audio m) s = .next t ∧ HaltedOutOfRange s t (s.i.toNat + len - 1)) ∧
    (3 < m.toNat → ∃ t w, exec (.audio m) s = .next t ∧ w.toNat = 0xF000 + m.toNat * 256 + s.cfg.enc.val.pattern.toNat ∧
      t = { s with run := .halted (.unknownOpcode w) })

/-- 45 R231, R233, R234, R235: the exact pitch law, `freq(p) = 4000 * 2^((p - 64) / 48)`; `SS`, set by the host or by the
default rule (decision D27, a half rounded up: log entry 26); and what one supersample does. A phase `u` stands for
`Σ u[j] * 2^(j/48)` units of `1 / (numerator of FS_OUT * SS)` sample (log entries 23, 26); the sample at `floor(pos) mod len` is
fed to the filter, whatever `LPF` is (log entry 25), and the position advances by `freq / (FS_OUT * SS)` and wraps modulo
`len`. -/
def Obligations.PitchLawIsExact : Prop :=
  ∀ real : Phase → ℝ, (∀ u, real u = ∑ j : Fin 48, (u[j.val] : ℝ) * (2 : ℝ) ^ ((j.val : ℝ) / 48)) →
    (∀ c : Config, (∀ n, c.ss = some n → supersample c = max 1 n) ∧
      (c.ss = none → (supersample c : ℤ) = max 1 (round (96000 / c.fsOut.val)))) ∧
    (∀ p : Byte, real (freqPhase p) = 4000 * (2 : ℝ) ^ (((p.toNat : ℝ) - 64) / 48)) ∧
    ∀ (c : Config) (q : Voice) (d : Dsp) (samples : Phase → ℝ),
      (∀ u, samples u = real u / (c.fsOut.val.num * supersample c)) → q.buf ≠ [] →
      ∀ (k : ℤ) (d' : Dsp), k = ⌊samples d.pos⌋ → d' = superStep c q d →
        (∀ (K : Type) (_ : Field K) (f : AudioFunctions K),
          (d'.fval f c, d'.fvel f c) = f.lpf c (d.fval f c) (d.fvel f c) (q.buf.getD (k % q.buf.length).toNat 0) ∧
          Dsp.zero.fval f c = 0 ∧ Dsp.zero.fvel f c = 0) ∧
        0 ≤ samples d'.pos ∧ samples d'.pos < q.buf.length ∧
        ∃ turns : ℤ, samples d'.pos = samples d.pos +
          4000 * (2 : ℝ) ^ (((q.pitch.toNat : ℝ) - 64) / 48) / ((c.fsOut.val : ℝ) * supersample c) - turns * q.buf.length

/-- 45 R238: rendering `d1` samples and then `d2` gives the samples and the final state of rendering `d1 + d2` at once. -/
def Obligations.RenderingIsContinuous : Prop :=
  ∀ (c : Config) (q : Voice) (d1 d2 : Nat),
    let first := renderVoice c d1 q
    let second := renderVoice c d2 first.2
    let whole := renderVoice c (d1 + d2) q
    whole.1.1 = first.1.1 ++ second.1.1 ∧ whole.1.2 = first.1.2 ++ second.1.2 ∧ whole.2 = second.2

/-- 45 R230, R232, R236, R237, R252: a `Render` changes only `dsp` and the queue. Under every reading of `LPF` and `AMP` in
every field, sample `i` of a channel is the sum over the active voices of the gain, `vol / 255` or 0, times `AMP` of the filter
value after `SS * (i + 1)` supersamples; the `dsp` of an active voice is the one after `SS * d`, and an expired voice keeps its
own. The new chunk is enqueued; the oldest chunks are dropped, each only while the target is exceeded, and never the newest. -/
def Obligations.RenderAppendsOneChunk : Prop :=
  ∀ (s : State) (d : Nat) (rest : List Event), s.env.events = .render d :: rest →
    ∀ after : Voice → Nat → Dsp → Dsp, (∀ q n, after q n = (superStep s.cfg q)^[supersample s.cfg * n]) →
    ∃ t chunk dropped, step s = .next t ∧
      t = { s with voices := t.voices, queue := t.queue, env := { s.env with events := rest } } ∧
      chunk.l.length = d ∧ chunk.r.length = d ∧ chunk.rd = 0 ∧ chunk.remaining = d ∧
      (∀ k : Fin 4, t.voices[k] = if s.voices[k].count = 0 then s.voices[k] else { s.voices[k] with
        dspL := after s.voices[k] d s.voices[k].dspL, dspR := after s.voices[k] d s.voices[k].dspR }) ∧
      (∀ (K : Type) (_ : Field K) (f : AudioFunctions K) (i : Nat), i < d →
        let sum (enable : Nat) (dsp : Voice → Dsp) : K := ∑ k : Fin 4, if s.voices[k].count = 0 then 0 else
          (if s.voices[k].chan.getLsbD enable then (s.voices[k].vol.toNat : K) / 255 else 0) *
            f.amp s.cfg ((after s.voices[k] (i + 1) (dsp s.voices[k])).fval f s.cfg)
        (chunk.l.getD i Sample.silence).value f s.cfg = sum 0 Voice.dspL ∧
        (chunk.r.getD i Sample.silence).value f s.cfg = sum 1 Voice.dspR) ∧
      s.queue ++ [chunk] = dropped ++ t.queue ∧ t.queue.getLast? = some chunk ∧
      (t.queue.length = 1 ∨ (t.queue.map Chunk.remaining).sum ≤ s.cfg.queueTarget) ∧
      (∀ before h behind, s.queue ++ [chunk] = before ++ h :: behind → before.length < dropped.length →
        s.cfg.queueTarget < ((h :: behind).map Chunk.remaining).sum) ∧
      ((∀ k : Fin 4, s.voices[k].count = 0) →
        chunk.l = List.replicate d Sample.silence ∧ chunk.r = List.replicate d Sample.silence)

/-- 45 R251: a `Pull` hands out the samples waiting, in order, and zeros when there are no more (decision D28); it changes
only the queue, in which the samples not handed out stay. `Sample.silence` is the number 0 under every reading. -/
def Obligations.PullTakesTheWaitingSamples : Prop :=
  ∀ (s : State) (n : Nat) (rest : List Event), s.env.events = .pull n :: rest → (∀ c ∈ s.queue, c.Ok) →
    ∀ (waitL waitR : List Chunk → List Sample), (∀ q, waitL q = q.flatMap fun c => c.l.drop c.rd) →
      (∀ q, waitR q = q.flatMap fun c => c.r.drop c.rd) →
      ∃ t l r, step s = .next t ∧
        t = { s with queue := t.queue, env := { s.env with events := rest, out := s.env.out ++ [.samples s.cfg l r] } } ∧
        l.length = n ∧ r.length = n ∧
        l = (waitL s.queue ++ List.replicate n Sample.silence).take n ∧
        r = (waitR s.queue ++ List.replicate n Sample.silence).take n ∧
        waitL t.queue = (waitL s.queue).drop n ∧ waitR t.queue = (waitR s.queue).drop n ∧
        ∀ (K : Type) (_ : Field K) (f : AudioFunctions K), Sample.silence.value f s.cfg = 0

/-! ## Reset -/

/-- 70 R290, R292, 10 R47: `Init` in any run state gives the reset values, the fonts, the program and zeros in memory;
`HIRES` and `PLANEMASK` are decision D10, the palette, the flags, the voices and the queue D23. -/
def Obligations.InitResetsTheCore : Prop :=
  ∀ (s : State) (program : List Byte) (c : Config) (rest : List Event), s.env.events = .init program c :: rest →
    program.length ≤ c.maxProgramSize → program.length ≤ (if c.extended then 0x10000 else 0x1000) - 0x200 →
    ∃ t, step s = .next t ∧ t.run = .running ∧ t.pc = 0x200 ∧ t.i = 0 ∧ t.stack = [] ∧ t.dt = 0 ∧ t.st = 0 ∧
      (∀ r, t.reg r = 0) ∧ (∀ p y x, cell t.planes p y x = false) ∧ t.drawMode = .xor ∧ t.hires = false ∧
      t.planeMask = 1 ∧ t.pal = c.palInit ∧ (∀ k : Reg, t.flags[k.val] = 0) ∧ t.sel = 0 ∧
      (∀ k : Fin 4, t.voices[k] = Voice.initial) ∧ t.queue = [] ∧ t.cfg = c ∧ t.env = { s.env with events := rest } ∧
      (∀ k : Fin 80, t.readByte k.val = c.fontSmall[k]) ∧ (∀ k : Fin 160, t.readByte (80 + k.val) = c.fontBig[k]) ∧
      (∀ k, k < program.length → t.readByte (0x200 + k) = program.getD k 0) ∧
      (∀ a, 0xF0 ≤ a → a < 0x200 ∨ 0x200 + program.length ≤ a → t.readByte a = 0)

/-- 70 R297: an `Init` that violates its precondition is refused (decision D31). -/
def Obligations.InitRefusesALongProgram : Prop :=
  ∀ (s : State) (program : List Byte) (c : Config) (rest : List Event), s.env.events = .init program c :: rest →
    c.maxProgramSize < program.length ∨ (if c.extended then 0x10000 else 0x1000) - 0x200 < program.length →
    step s = .refused .initProgramTooLong

/-! ## Rules of the whole machine -/

/-- The invariant of 10 R51 holds after reset. -/
def Obligations.ResetMeetsTheInvariant : Prop := State.reset.Inv

/-- 10 R51: every step, whatever the event, keeps the invariant. -/
def Obligations.EveryStepKeepsTheInvariant : Prop := ∀ s t : State, s.Inv → step s = .next t → t.Inv

/-- 20 R61, 10 R24, 10 R48, 70 R308: only FX33, FX55 and 5XY2 write memory, only 2NNN and 00EE the stack, and no instruction
changes the configuration. -/
def Obligations.WritersOfMemoryStackAndConfiguration : Prop :=
  ∀ (i : Instr) (s t : State), exec i s = .next t → t.cfg = s.cfg ∧
    ((∀ x, i ≠ .ldB x) → (∀ x, i ≠ .storeRegs x) → (∀ x y, i ≠ .save x y) → SameMemory s t) ∧
    ((∀ nnn, i ≠ .call nnn) → i ≠ .ret → t.stack = s.stack)

/-- 42 R163, 10 R26, R27, R31, R33, R34, R35, R37: which instructions change `I`, `DT`, `ST`, `DRAWMODE`, `PAL`, `FLAGS`,
`SEL`; the queue is changed by none. -/
def Obligations.WritersOfTheControlState : Prop :=
  ∀ (i : Instr) (s t : State), exec i s = .next t → t.queue = s.queue ∧
    ((∀ n, i ≠ .ldI n) → (∀ n, i ≠ .ldl n) → (∀ x, i ≠ .addI x ∧ i ≠ .ldF x ∧ i ≠ .ldHf x) →
      (s.cfg.qLoadStore = false → ∀ x, i ≠ .storeRegs x ∧ i ≠ .loadRegs x) → t.i = s.i) ∧
    ((∀ x, i ≠ .ldDtVx x) → t.dt = s.dt) ∧ ((∀ x, i ≠ .ldStVx x) → t.st = s.st) ∧
    (i ≠ .dmor → i ≠ .dmand → i ≠ .dmxor → t.drawMode = s.drawMode) ∧ (i ≠ .low → i ≠ .high → t.hires = s.hires) ∧
    ((∀ n, i ≠ .plane n) → t.planeMask = s.planeMask) ∧ ((∀ x, i ≠ .pal x) → t.pal = s.pal) ∧
    ((∀ x, i ≠ .flagsOut x ∧ i ≠ .flagsIn x) → t.flags = s.flags) ∧ ((∀ x, i ≠ .voice x) → t.sel = s.sel)

/-- 60 R270, R271: halts are precise: an instruction that ends in an error halt has written nothing but `RUN` (a key skip has
consulted its port) and emitted no hook (decision D5). -/
def Obligations.HaltsArePrecise : Prop :=
  ∀ (i : Instr) (s t : State) (r : HaltReason), s.run = .running → exec i s = .next t → t.run = .halted r → r ≠ .exit →
    t = { s with run := .halted r, env := t.env } ∧ t.env.out = s.env.out

/-- 44 R213: every instruction takes a next state in every state, and the run state stays as it was except for a halt, FX0A
and 00FD. -/
def Obligations.EveryInstructionTakesANextState : Prop :=
  ∀ (i : Instr) (s : State), ∃ t, exec i s = .next t ∧
    (t.run = s.run ∨ (∃ r, t.run = .halted r ∧ (r = .exit ↔ i = .exit)) ∨ ∃ x, i = .ldVxK x ∧ t.run = .waitingForKey x)

/-- 60 R275, 70 R292: `Halted` is left by `Init` only, and its reason never changes before it. -/
def Obligations.HaltedUntilInit : Prop :=
  ∀ (s t : State) (r : HaltReason), s.run = .halted r → step s = .next t →
    t.run = .halted r ∧ t.pc = s.pc ∧ t.v = s.v ∧ t.mem = s.mem ∧ t.stack = s.stack ∧ t.i = s.i ∧ t.planes = s.planes ∨
    ∃ program c rest, s.env.events = .init program c :: rest
end

