-- ==== Sys2Proof/Laws/Encoding.lean ====
section
/-! SUPPORT. The fields of a composed word, and back: what a decoding or a round-trip proof cites instead of unfolding bit
slices; and what the tables of the two groups with parameters (30_encoding.md R90) decode to. -/

namespace Sys2Proof

@[simp] theorem regOfNibble_nibbleOfReg (x : Reg) : regOfNibble (nibbleOfReg x) = x := by
  ext
  simp [regOfNibble, nibbleOfReg]

@[simp] theorem nibbleOfReg_regOfNibble (b : BitVec 4) : nibbleOfReg (regOfNibble b) = b := by
  simp [regOfNibble, nibbleOfReg]

/-! ## Fields of the three word shapes -/

section Fields

variable (o x y n : BitVec 4) (nn : Byte) (nnn : BitVec 12)

theorem wordXYN_toNat : (wordXYN o x y n).toNat = ((o.toNat * 16 + x.toNat) * 16 + y.toNat) * 16 + n.toNat := by
  simp only [wordXYN, BitVec.toNat_append]
  rw [← Nat.shiftLeft_add_eq_or_of_lt n.isLt, ← Nat.shiftLeft_add_eq_or_of_lt y.isLt, ← Nat.shiftLeft_add_eq_or_of_lt x.isLt]
  simp only [Nat.shiftLeft_eq]

theorem wordXNN_toNat : (wordXNN o x nn).toNat = (o.toNat * 16 + x.toNat) * 256 + nn.toNat := by
  simp only [wordXNN, BitVec.toNat_append]
  rw [← Nat.shiftLeft_add_eq_or_of_lt nn.isLt, ← Nat.shiftLeft_add_eq_or_of_lt x.isLt]
  simp only [Nat.shiftLeft_eq]

theorem wordNNN_toNat : (wordNNN o nnn).toNat = o.toNat * 4096 + nnn.toNat := by
  simp only [wordNNN, BitVec.toNat_append]
  rw [← Nat.shiftLeft_add_eq_or_of_lt nnn.isLt]
  simp only [Nat.shiftLeft_eq]

/-- Each field of a word as a quotient and a remainder of its number (R82). -/
theorem field_toNat (w : Word) :
    (fieldO w).toNat = w.toNat / 4096 ∧ (fieldX w).toNat = w.toNat / 256 % 16 ∧ (fieldY w).toNat = w.toNat / 16 % 16 ∧
      (fieldN w).toNat = w.toNat % 16 ∧ (fieldNN w).toNat = w.toNat % 256 ∧ (fieldNNN w).toNat = w.toNat % 4096 := by
  have := w.isLt
  simp only [fieldO, fieldX, fieldY, fieldN, fieldNN, fieldNNN, BitVec.extractLsb'_toNat, Nat.shiftRight_eq_div_pow]
  refine ⟨?_, ?_, ?_, ?_, ?_, ?_⟩ <;> norm_num
  omega

@[simp] theorem fieldO_wordXYN : fieldO (wordXYN o x y n) = o := by
  apply BitVec.eq_of_toNat_eq
  rw [(field_toNat _).1, wordXYN_toNat]
  omega
@[simp] theorem fieldX_wordXYN : fieldX (wordXYN o x y n) = x := by
  apply BitVec.eq_of_toNat_eq
  rw [(field_toNat _).2.1, wordXYN_toNat]
  omega
@[simp] theorem fieldY_wordXYN : fieldY (wordXYN o x y n) = y := by
  apply BitVec.eq_of_toNat_eq
  rw [(field_toNat _).2.2.1, wordXYN_toNat]
  omega
@[simp] theorem fieldN_wordXYN : fieldN (wordXYN o x y n) = n := by
  apply BitVec.eq_of_toNat_eq
  rw [(field_toNat _).2.2.2.1, wordXYN_toNat]
  omega
@[simp] theorem fieldO_wordXNN : fieldO (wordXNN o x nn) = o := by
  apply BitVec.eq_of_toNat_eq
  rw [(field_toNat _).1, wordXNN_toNat]
  omega
@[simp] theorem fieldX_wordXNN : fieldX (wordXNN o x nn) = x := by
  apply BitVec.eq_of_toNat_eq
  rw [(field_toNat _).2.1, wordXNN_toNat]
  omega
@[simp] theorem fieldNN_wordXNN : fieldNN (wordXNN o x nn) = nn := by
  apply BitVec.eq_of_toNat_eq
  rw [(field_toNat _).2.2.2.2.1, wordXNN_toNat]
  omega
@[simp] theorem fieldO_wordNNN : fieldO (wordNNN o nnn) = o := by
  apply BitVec.eq_of_toNat_eq
  rw [(field_toNat _).1, wordNNN_toNat]
  omega
@[simp] theorem fieldNNN_wordNNN : fieldNNN (wordNNN o nnn) = nnn := by
  apply BitVec.eq_of_toNat_eq
  rw [(field_toNat _).2.2.2.2.2, wordNNN_toNat]
  omega

theorem fieldY_wordXNN : fieldY (wordXNN o x nn) = nn.extractLsb' 4 4 := by
  apply BitVec.eq_of_toNat_eq
  rw [(field_toNat _).2.2.1, wordXNN_toNat, BitVec.extractLsb'_toNat, Nat.shiftRight_eq_div_pow]
  omega

/-! A word is composed of its own fields. -/

theorem wordXYN_fields (w : Word) : wordXYN (fieldO w) (fieldX w) (fieldY w) (fieldN w) = w := by
  obtain ⟨ho, hx, hy, hn, _, _⟩ := field_toNat w
  apply BitVec.eq_of_toNat_eq
  rw [wordXYN_toNat, ho, hx, hy, hn]
  omega

theorem wordXNN_fields (w : Word) : wordXNN (fieldO w) (fieldX w) (fieldNN w) = w := by
  obtain ⟨ho, hx, _, _, hnn, _⟩ := field_toNat w
  apply BitVec.eq_of_toNat_eq
  rw [wordXNN_toNat, ho, hx, hnn]
  omega

theorem wordNNN_fields (w : Word) : wordNNN (fieldO w) (fieldNNN w) = w := by
  obtain ⟨ho, _, _, _, _, hnnn⟩ := field_toNat w
  apply BitVec.eq_of_toNat_eq
  rw [wordNNN_toNat, ho, hnnn]
  omega

end Fields

/-! ## Bytes of a word -/

theorem wordOfBytes_toNat (hi lo : Byte) : (wordOfBytes hi lo).toNat = hi.toNat * 256 + lo.toNat := by
  simp only [wordOfBytes, BitVec.toNat_append]
  rw [← Nat.shiftLeft_add_eq_or_of_lt lo.isLt]
  simp only [Nat.shiftLeft_eq]

theorem highByte_toNat (w : Word) : (highByte w).toNat = w.toNat / 256 := by
  have := w.isLt
  simp only [highByte, BitVec.extractLsb'_toNat, Nat.shiftRight_eq_div_pow]
  omega

theorem lowByte_toNat (w : Word) : (lowByte w).toNat = w.toNat % 256 := by
  simp only [lowByte, BitVec.extractLsb'_toNat, Nat.shiftRight_eq_div_pow]
  omega

@[simp] theorem wordOfBytes_high_low (w : Word) : wordOfBytes (highByte w) (lowByte w) = w := by
  apply BitVec.eq_of_toNat_eq
  rw [wordOfBytes_toNat, highByte_toNat, lowByte_toNat]
  omega

@[simp] theorem highByte_wordOfBytes (hi lo : Byte) : highByte (wordOfBytes hi lo) = hi := by
  apply BitVec.eq_of_toNat_eq
  rw [highByte_toNat, wordOfBytes_toNat]
  omega

@[simp] theorem lowByte_wordOfBytes (hi lo : Byte) : lowByte (wordOfBytes hi lo) = lo := by
  apply BitVec.eq_of_toNat_eq
  rw [lowByte_toNat, wordOfBytes_toNat]
  omega

/-! ## Which composed words are the long literal -/

theorem fieldO_long : fieldO longLiteral = 0xF := by decide
theorem fieldNN_long : fieldNN longLiteral = 0 := by decide

theorem wordXYN_ne_long (o x y n : BitVec 4) (h : o ≠ 0xF) : wordXYN o x y n ≠ longLiteral := fun e =>
  h ((fieldO_wordXYN o x y n).symm.trans ((congrArg fieldO e).trans fieldO_long))

theorem wordNNN_ne_long (o : BitVec 4) (nnn : BitVec 12) (h : o ≠ 0xF) : wordNNN o nnn ≠ longLiteral := fun e =>
  h ((fieldO_wordNNN o nnn).symm.trans ((congrArg fieldO e).trans fieldO_long))

theorem wordXNN_ne_long (o x : BitVec 4) (nn : Byte) (h : o ≠ 0xF ∨ nn ≠ 0) : wordXNN o x nn ≠ longLiteral := fun e =>
  h.elim (fun h => h ((fieldO_wordXNN o x nn).symm.trans ((congrArg fieldO e).trans fieldO_long)))
    (fun h => h ((fieldNN_wordXNN o x nn).symm.trans ((congrArg fieldNN e).trans fieldNN_long)))

/-! ## Decoding a word that stands in bytes

A proof gives these the lemma of the word's own shape (wordXYN_ne_long for a wordXYN): unifying two shapes is slow. -/

theorem decodeBytes_of_ok {e : Encodings} {w : Word} {i : Instr} (rest : List Byte) (hl : w ≠ longLiteral)
    (h : decodeWord e w = .ok i) :
    decodeBytes e (highByte w :: lowByte w :: rest) = .ok (i, rest) := by
  simp only [decodeBytes, wordOfBytes_high_low, hl, if_false, h]

theorem decodeBytes_of_error {e : Encodings} {w : Word} {why : IllegalWord} (rest : List Byte) (hl : w ≠ longLiteral)
    (h : decodeWord e w = .error why) : decodeBytes e (highByte w :: lowByte w :: rest) = .error (.illegal why) := by
  simp only [decodeBytes, wordOfBytes_high_low, hl, if_false, h]

theorem decodeBytes_long (e : Encodings) (w : Word) (rest : List Byte) :
    decodeBytes e (highByte longLiteral :: lowByte longLiteral :: highByte w :: lowByte w :: rest) = .ok (.ldl w, rest) := by
  simp only [decodeBytes, wordOfBytes_high_low, if_true]

/-! ## The groups whose words are parameters (30 R85, R86, R88, R90) -/

theorem lookup_of_mem {α : Type} {k : Byte} {a : α} {l : List (Byte × α)} (hl : (l.map Prod.fst).Nodup) (h : (k, a) ∈ l) :
    l.lookup k = some a := by
  induction l with
  | nil => cases h
  | cons p l ih =>
    rw [List.map_cons, List.nodup_cons] at hl
    rcases List.mem_cons.1 h with rfl | h
    · rw [List.lookup_cons_self]
    · have : (k == p.1) = false := beq_false_of_ne fun e => hl.1 (e ▸ List.mem_map_of_mem h)
      rw [List.lookup_cons, this]
      exact ih hl.2 h

theorem mem_of_lookup {α : Type} {k : Byte} {a : α} {l : List (Byte × α)} (h : l.lookup k = some a) : (k, a) ∈ l := by
  induction l with
  | nil => cases h
  | cons p l ih =>
    rw [List.lookup_cons] at h
    split at h
    · rename_i hk
      cases h
      rw [beq_iff_eq.1 hk]
      exact List.mem_cons_self
    · exact List.mem_cons_of_mem _ (ih h)

theorem lookup_eq_none_iff {α : Type} {k : Byte} {l : List (Byte × α)} : l.lookup k = none ↔ k ∉ l.map Prod.fst := by
  induction l with
  | nil => simp
  | cons p l ih =>
    rw [List.lookup_cons, List.map_cons, List.mem_cons, not_or, ← ih]
    split
    · rename_i hk
      simp [beq_iff_eq.1 hk]
    · rename_i hk
      exact ⟨fun h => ⟨fun e => by simp [e] at hk, h⟩, fun h => h.2⟩

theorem machineTable_keys (e : Encodings) : e.machineTable.map Prod.fst = e.machineKeys := rfl
theorem extendedTable_keys (e : Encodings) (x : BitVec 4) : (e.extendedTable x).map Prod.fst = e.extendedKeys := rfl

/-- What an unambiguous choice of the parameters says. -/
theorem unambiguous_iff (e : Encodings) : e.unambiguous = true ↔
    e.machineKeys.Nodup ∧ e.scrollDown ≠ e.scrollUp ∧
      (∀ k ∈ e.machineKeys, k.extractLsb' 4 4 ≠ e.scrollDown ∧ k.extractLsb' 4 4 ≠ e.scrollUp) ∧
      e.extendedKeys.Nodup ∧ 0x00 ∉ e.extendedKeys := decide_eq_true_iff

theorem decodeWord_group0 (e : Encodings) {w : Word} (h : fieldO w = 0x0) : decodeWord e w = decodeMachine e w := by
  simp only [decodeWord, h]
  rfl

theorem decodeWord_groupF (e : Encodings) {w : Word} (h : fieldO w = 0xF) : decodeWord e w = decodeExtended e w := by
  simp only [decodeWord, h]
  rfl

/-- Each row of group 0 is the encoding of its instruction. -/
theorem machineTable_rows (e : Encodings) : ∀ p ∈ e.machineTable, p.2.wf = true ∧ encode e p.2 = [wordMachine p.1] := by
  simp only [Encodings.machineTable, List.forall_mem_cons]
  exact ⟨⟨rfl, rfl⟩, ⟨rfl, rfl⟩, ⟨rfl, rfl⟩, ⟨rfl, rfl⟩, ⟨rfl, rfl⟩, ⟨rfl, rfl⟩, ⟨rfl, rfl⟩, ⟨rfl, rfl⟩, ⟨rfl, rfl⟩, ⟨rfl, rfl⟩,
    ⟨rfl, rfl⟩, fun _ h => absurd h List.not_mem_nil⟩

/-- Each row of the extended group is the encoding of its instruction, which is well formed. -/
theorem extendedTable_rows (e : Encodings) (x : BitVec 4) :
    ∀ p ∈ e.extendedTable x, ∀ i, p.2 = some i → i.wf = true ∧ encode e i = [wordXNN 0xF x p.1] := by
  have row (k : Byte) (i : Instr) (h1 : i.wf = true) (h2 : encode e i = [wordReg 0xF (regOfNibble x) k]) :
      ∀ j, some i = some j → j.wf = true ∧ encode e j = [wordXNN 0xF x k] := fun j hj => by
    cases hj
    exact ⟨h1, by rw [h2, wordReg, nibbleOfReg_regOfNibble]⟩
  simp only [Encodings.extendedTable, List.forall_mem_cons]
  refine ⟨row _ _ rfl rfl, fun i h => ?_, fun i h => ?_, row _ _ rfl rfl, row _ _ rfl rfl, row _ _ rfl rfl, row _ _ rfl rfl,
    row _ _ rfl rfl, row _ _ rfl rfl, row _ _ rfl rfl, row _ _ rfl rfl, row _ _ rfl rfl, row _ _ rfl rfl, row _ _ rfl rfl,
    row _ _ rfl rfl, row _ _ rfl rfl, row _ _ rfl rfl, row _ _ rfl rfl, row _ _ rfl rfl, fun _ h => absurd h List.not_mem_nil⟩
  · split at h
    · cases h
    · rename_i hn
      cases h
      exact ⟨by simpa [Instr.wf] using hn, rfl⟩
  · split at h
    · rename_i hn
      cases h
      exact ⟨by simpa [Instr.wf] using hn, rfl⟩
    · cases h

/-- A word of group 0 without an operand decodes to its row. -/
theorem decodeWord_machine {e : Encodings} (he : e.unambiguous = true) {k : Byte} {i : Instr} (h : (k, i) ∈ e.machineTable) :
    decodeWord e (wordMachine k) = .ok i := by
  obtain ⟨h1, -, h3, -, -⟩ := (unambiguous_iff e).1 he
  obtain ⟨n1, n2⟩ := h3 k (machineTable_keys e ▸ List.mem_map_of_mem h)
  rw [wordMachine, decodeWord_group0 e (fieldO_wordXNN _ _ _), decodeMachine, fieldX_wordXNN, fieldY_wordXNN, fieldNN_wordXNN, if_neg (fun h => h rfl), if_neg n1,
    if_neg n2, lookup_of_mem (machineTable_keys e ▸ h1) h]

/-- A word of the extended group decodes to its row. -/
theorem decodeWord_extended {e : Encodings} (he : e.unambiguous = true) {x : BitVec 4} {k : Byte} {i : Instr}
    (h : (k, some i) ∈ e.extendedTable x) : decodeWord e (wordXNN 0xF x k) = .ok i := by
  obtain ⟨-, -, -, h4, -⟩ := (unambiguous_iff e).1 he
  rw [decodeWord_groupF e (fieldO_wordXNN _ _ _), decodeExtended, fieldX_wordXNN, fieldNN_wordXNN, lookup_of_mem (extendedTable_keys e x ▸ h4) h]

/-- No word of the extended group is the long literal. -/
theorem extended_ne_long {e : Encodings} (he : e.unambiguous = true) {k : Byte} (hk : k ∈ e.extendedKeys) (x : BitVec 4) :
    wordXNN 0xF x k ≠ longLiteral :=
  wordXNN_ne_long _ _ _ (.inr fun h => ((unambiguous_iff e).1 he).2.2.2.2 (h ▸ hk))

end Sys2Proof
end

