-- ==== Sys2Proof/Laws/State.lean ====
section
/-! SUPPORT. One lemma per field per update of State, and what each update leaves of the derived reads, so that no proof
unfolds a record update. -/

namespace Sys2Proof.Machine

variable (s : State)

/-! ### setReg -/

@[simp] theorem setReg_v (x : Reg) (b : Byte) : (s.setReg x b).v = s.v.set x.val b := rfl
@[simp] theorem setReg_i (x : Reg) (b : Byte) : (s.setReg x b).i = s.i := rfl
@[simp] theorem setReg_pc (x : Reg) (b : Byte) : (s.setReg x b).pc = s.pc := rfl
@[simp] theorem setReg_stack (x : Reg) (b : Byte) : (s.setReg x b).stack = s.stack := rfl
@[simp] theorem setReg_mem (x : Reg) (b : Byte) : (s.setReg x b).mem = s.mem := rfl
@[simp] theorem setReg_dt (x : Reg) (b : Byte) : (s.setReg x b).dt = s.dt := rfl
@[simp] theorem setReg_st (x : Reg) (b : Byte) : (s.setReg x b).st = s.st := rfl
@[simp] theorem setReg_run (x : Reg) (b : Byte) : (s.setReg x b).run = s.run := rfl
@[simp] theorem setReg_hires (x : Reg) (b : Byte) : (s.setReg x b).hires = s.hires := rfl
@[simp] theorem setReg_planeMask (x : Reg) (b : Byte) : (s.setReg x b).planeMask = s.planeMask := rfl
@[simp] theorem setReg_drawMode (x : Reg) (b : Byte) : (s.setReg x b).drawMode = s.drawMode := rfl
@[simp] theorem setReg_planes (x : Reg) (b : Byte) : (s.setReg x b).planes = s.planes := rfl
@[simp] theorem setReg_pal (x : Reg) (b : Byte) : (s.setReg x b).pal = s.pal := rfl
@[simp] theorem setReg_flags (x : Reg) (b : Byte) : (s.setReg x b).flags = s.flags := rfl
@[simp] theorem setReg_sel (x : Reg) (b : Byte) : (s.setReg x b).sel = s.sel := rfl
@[simp] theorem setReg_voices (x : Reg) (b : Byte) : (s.setReg x b).voices = s.voices := rfl
@[simp] theorem setReg_queue (x : Reg) (b : Byte) : (s.setReg x b).queue = s.queue := rfl
@[simp] theorem setReg_cfg (x : Reg) (b : Byte) : (s.setReg x b).cfg = s.cfg := rfl
@[simp] theorem setReg_env (x : Reg) (b : Byte) : (s.setReg x b).env = s.env := rfl
@[simp] theorem setReg_memSize (x : Reg) (b : Byte) : (s.setReg x b).memSize = s.memSize := rfl
@[simp] theorem setReg_readByte (x : Reg) (b : Byte) (k : Nat) : (s.setReg x b).readByte k = s.readByte k := rfl
@[simp] theorem setReg_readWord (x : Reg) (b : Byte) (k : Nat) : (s.setReg x b).readWord k = s.readWord k := rfl
@[simp] theorem setReg_readBytes (x : Reg) (b : Byte) (k n : Nat) : (s.setReg x b).readBytes k n = s.readBytes k n := rfl
@[simp] theorem setReg_width (x : Reg) (b : Byte) : (s.setReg x b).width = s.width := rfl
@[simp] theorem setReg_height (x : Reg) (b : Byte) : (s.setReg x b).height = s.height := rfl
@[simp] theorem setReg_dataAddr (x : Reg) (b : Byte) (k : Nat) : (s.setReg x b).dataAddr k = s.dataAddr k := rfl
@[simp] theorem setReg_selected (x : Reg) (b : Byte) : (s.setReg x b).selected = s.selected := rfl
@[simp] theorem setReg_spriteBytes (x : Reg) (b : Byte) (n4 : BitVec 4) : (s.setReg x b).spriteBytes n4 = s.spriteBytes n4 := rfl

/-! ### setI -/

@[simp] theorem setI_v (a : Word) : (s.setI a).v = s.v := rfl
@[simp] theorem setI_i (a : Word) : (s.setI a).i = a := rfl
@[simp] theorem setI_pc (a : Word) : (s.setI a).pc = s.pc := rfl
@[simp] theorem setI_stack (a : Word) : (s.setI a).stack = s.stack := rfl
@[simp] theorem setI_mem (a : Word) : (s.setI a).mem = s.mem := rfl
@[simp] theorem setI_dt (a : Word) : (s.setI a).dt = s.dt := rfl
@[simp] theorem setI_st (a : Word) : (s.setI a).st = s.st := rfl
@[simp] theorem setI_run (a : Word) : (s.setI a).run = s.run := rfl
@[simp] theorem setI_hires (a : Word) : (s.setI a).hires = s.hires := rfl
@[simp] theorem setI_planeMask (a : Word) : (s.setI a).planeMask = s.planeMask := rfl
@[simp] theorem setI_drawMode (a : Word) : (s.setI a).drawMode = s.drawMode := rfl
@[simp] theorem setI_planes (a : Word) : (s.setI a).planes = s.planes := rfl
@[simp] theorem setI_pal (a : Word) : (s.setI a).pal = s.pal := rfl
@[simp] theorem setI_flags (a : Word) : (s.setI a).flags = s.flags := rfl
@[simp] theorem setI_sel (a : Word) : (s.setI a).sel = s.sel := rfl
@[simp] theorem setI_voices (a : Word) : (s.setI a).voices = s.voices := rfl
@[simp] theorem setI_queue (a : Word) : (s.setI a).queue = s.queue := rfl
@[simp] theorem setI_cfg (a : Word) : (s.setI a).cfg = s.cfg := rfl
@[simp] theorem setI_env (a : Word) : (s.setI a).env = s.env := rfl
@[simp] theorem setI_memSize (a : Word) : (s.setI a).memSize = s.memSize := rfl
@[simp] theorem setI_reg (a : Word) (z : Reg) : (s.setI a).reg z = s.reg z := rfl
@[simp] theorem setI_readByte (a : Word) (k : Nat) : (s.setI a).readByte k = s.readByte k := rfl
@[simp] theorem setI_readWord (a : Word) (k : Nat) : (s.setI a).readWord k = s.readWord k := rfl
@[simp] theorem setI_readBytes (a : Word) (k n : Nat) : (s.setI a).readBytes k n = s.readBytes k n := rfl
@[simp] theorem setI_width (a : Word) : (s.setI a).width = s.width := rfl
@[simp] theorem setI_height (a : Word) : (s.setI a).height = s.height := rfl
@[simp] theorem setI_chanMask (a : Word) (z : Reg) : (s.setI a).chanMask z = s.chanMask z := rfl
@[simp] theorem setI_digit (a : Word) (z : Reg) : (s.setI a).digit z = s.digit z := rfl
@[simp] theorem setI_selected (a : Word) : (s.setI a).selected = s.selected := rfl
@[simp] theorem setI_spriteBytes (a : Word) (n4 : BitVec 4) : (s.setI a).spriteBytes n4 = s.spriteBytes n4 := rfl

/-! ### setPc -/

@[simp] theorem setPc_v (a : Nat) : (s.setPc a).v = s.v := rfl
@[simp] theorem setPc_i (a : Nat) : (s.setPc a).i = s.i := rfl
@[simp] theorem setPc_pc (a : Nat) : (s.setPc a).pc = BitVec.ofNat 16 (a % s.memSize) := rfl
@[simp] theorem setPc_stack (a : Nat) : (s.setPc a).stack = s.stack := rfl
@[simp] theorem setPc_mem (a : Nat) : (s.setPc a).mem = s.mem := rfl
@[simp] theorem setPc_dt (a : Nat) : (s.setPc a).dt = s.dt := rfl
@[simp] theorem setPc_st (a : Nat) : (s.setPc a).st = s.st := rfl
@[simp] theorem setPc_run (a : Nat) : (s.setPc a).run = s.run := rfl
@[simp] theorem setPc_hires (a : Nat) : (s.setPc a).hires = s.hires := rfl
@[simp] theorem setPc_planeMask (a : Nat) : (s.setPc a).planeMask = s.planeMask := rfl
@[simp] theorem setPc_drawMode (a : Nat) : (s.setPc a).drawMode = s.drawMode := rfl
@[simp] theorem setPc_planes (a : Nat) : (s.setPc a).planes = s.planes := rfl
@[simp] theorem setPc_pal (a : Nat) : (s.setPc a).pal = s.pal := rfl
@[simp] theorem setPc_flags (a : Nat) : (s.setPc a).flags = s.flags := rfl
@[simp] theorem setPc_sel (a : Nat) : (s.setPc a).sel = s.sel := rfl
@[simp] theorem setPc_voices (a : Nat) : (s.setPc a).voices = s.voices := rfl
@[simp] theorem setPc_queue (a : Nat) : (s.setPc a).queue = s.queue := rfl
@[simp] theorem setPc_cfg (a : Nat) : (s.setPc a).cfg = s.cfg := rfl
@[simp] theorem setPc_env (a : Nat) : (s.setPc a).env = s.env := rfl
@[simp] theorem setPc_memSize (a : Nat) : (s.setPc a).memSize = s.memSize := rfl
@[simp] theorem setPc_reg (a : Nat) (z : Reg) : (s.setPc a).reg z = s.reg z := rfl
@[simp] theorem setPc_readByte (a : Nat) (k : Nat) : (s.setPc a).readByte k = s.readByte k := rfl
@[simp] theorem setPc_readWord (a : Nat) (k : Nat) : (s.setPc a).readWord k = s.readWord k := rfl
@[simp] theorem setPc_readBytes (a : Nat) (k n : Nat) : (s.setPc a).readBytes k n = s.readBytes k n := rfl
@[simp] theorem setPc_width (a : Nat) : (s.setPc a).width = s.width := rfl
@[simp] theorem setPc_height (a : Nat) : (s.setPc a).height = s.height := rfl
@[simp] theorem setPc_chanMask (a : Nat) (z : Reg) : (s.setPc a).chanMask z = s.chanMask z := rfl
@[simp] theorem setPc_digit (a : Nat) (z : Reg) : (s.setPc a).digit z = s.digit z := rfl
@[simp] theorem setPc_dataAddr (a : Nat) (k : Nat) : (s.setPc a).dataAddr k = s.dataAddr k := rfl
@[simp] theorem setPc_selected (a : Nat) : (s.setPc a).selected = s.selected := rfl
@[simp] theorem setPc_spriteBytes (a : Nat) (n4 : BitVec 4) : (s.setPc a).spriteBytes n4 = s.spriteBytes n4 := rfl

/-! ### setStack -/

@[simp] theorem setStack_v (a : List Word) : (s.setStack a).v = s.v := rfl
@[simp] theorem setStack_i (a : List Word) : (s.setStack a).i = s.i := rfl
@[simp] theorem setStack_pc (a : List Word) : (s.setStack a).pc = s.pc := rfl
@[simp] theorem setStack_stack (a : List Word) : (s.setStack a).stack = a := rfl
@[simp] theorem setStack_mem (a : List Word) : (s.setStack a).mem = s.mem := rfl
@[simp] theorem setStack_dt (a : List Word) : (s.setStack a).dt = s.dt := rfl
@[simp] theorem setStack_st (a : List Word) : (s.setStack a).st = s.st := rfl
@[simp] theorem setStack_run (a : List Word) : (s.setStack a).run = s.run := rfl
@[simp] theorem setStack_hires (a : List Word) : (s.setStack a).hires = s.hires := rfl
@[simp] theorem setStack_planeMask (a : List Word) : (s.setStack a).planeMask = s.planeMask := rfl
@[simp] theorem setStack_drawMode (a : List Word) : (s.setStack a).drawMode = s.drawMode := rfl
@[simp] theorem setStack_planes (a : List Word) : (s.setStack a).planes = s.planes := rfl
@[simp] theorem setStack_pal (a : List Word) : (s.setStack a).pal = s.pal := rfl
@[simp] theorem setStack_flags (a : List Word) : (s.setStack a).flags = s.flags := rfl
@[simp] theorem setStack_sel (a : List Word) : (s.setStack a).sel = s.sel := rfl
@[simp] theorem setStack_voices (a : List Word) : (s.setStack a).voices = s.voices := rfl
@[simp] theorem setStack_queue (a : List Word) : (s.setStack a).queue = s.queue := rfl
@[simp] theorem setStack_cfg (a : List Word) : (s.setStack a).cfg = s.cfg := rfl
@[simp] theorem setStack_env (a : List Word) : (s.setStack a).env = s.env := rfl
@[simp] theorem setStack_memSize (a : List Word) : (s.setStack a).memSize = s.memSize := rfl
@[simp] theorem setStack_reg (a : List Word) (z : Reg) : (s.setStack a).reg z = s.reg z := rfl
@[simp] theorem setStack_readByte (a : List Word) (k : Nat) : (s.setStack a).readByte k = s.readByte k := rfl
@[simp] theorem setStack_readWord (a : List Word) (k : Nat) : (s.setStack a).readWord k = s.readWord k := rfl
@[simp] theorem setStack_readBytes (a : List Word) (k n : Nat) : (s.setStack a).readBytes k n = s.readBytes k n := rfl
@[simp] theorem setStack_width (a : List Word) : (s.setStack a).width = s.width := rfl
@[simp] theorem setStack_height (a : List Word) : (s.setStack a).height = s.height := rfl
@[simp] theorem setStack_chanMask (a : List Word) (z : Reg) : (s.setStack a).chanMask z = s.chanMask z := rfl
@[simp] theorem setStack_digit (a : List Word) (z : Reg) : (s.setStack a).digit z = s.digit z := rfl
@[simp] theorem setStack_dataAddr (a : List Word) (k : Nat) : (s.setStack a).dataAddr k = s.dataAddr k := rfl
@[simp] theorem setStack_selected (a : List Word) : (s.setStack a).selected = s.selected := rfl
@[simp] theorem setStack_spriteBytes (a : List Word) (n4 : BitVec 4) : (s.setStack a).spriteBytes n4 = s.spriteBytes n4 := rfl

/-! ### setMem -/

@[simp] theorem setMem_v (a : Memory) : (s.setMem a).v = s.v := rfl
@[simp] theorem setMem_i (a : Memory) : (s.setMem a).i = s.i := rfl
@[simp] theorem setMem_pc (a : Memory) : (s.setMem a).pc = s.pc := rfl
@[simp] theorem setMem_stack (a : Memory) : (s.setMem a).stack = s.stack := rfl
@[simp] theorem setMem_mem (a : Memory) : (s.setMem a).mem = a := rfl
@[simp] theorem setMem_dt (a : Memory) : (s.setMem a).dt = s.dt := rfl
@[simp] theorem setMem_st (a : Memory) : (s.setMem a).st = s.st := rfl
@[simp] theorem setMem_run (a : Memory) : (s.setMem a).run = s.run := rfl
@[simp] theorem setMem_hires (a : Memory) : (s.setMem a).hires = s.hires := rfl
@[simp] theorem setMem_planeMask (a : Memory) : (s.setMem a).planeMask = s.planeMask := rfl
@[simp] theorem setMem_drawMode (a : Memory) : (s.setMem a).drawMode = s.drawMode := rfl
@[simp] theorem setMem_planes (a : Memory) : (s.setMem a).planes = s.planes := rfl
@[simp] theorem setMem_pal (a : Memory) : (s.setMem a).pal = s.pal := rfl
@[simp] theorem setMem_flags (a : Memory) : (s.setMem a).flags = s.flags := rfl
@[simp] theorem setMem_sel (a : Memory) : (s.setMem a).sel = s.sel := rfl
@[simp] theorem setMem_voices (a : Memory) : (s.setMem a).voices = s.voices := rfl
@[simp] theorem setMem_queue (a : Memory) : (s.setMem a).queue = s.queue := rfl
@[simp] theorem setMem_cfg (a : Memory) : (s.setMem a).cfg = s.cfg := rfl
@[simp] theorem setMem_env (a : Memory) : (s.setMem a).env = s.env := rfl
@[simp] theorem setMem_memSize (a : Memory) : (s.setMem a).memSize = s.memSize := rfl
@[simp] theorem setMem_reg (a : Memory) (z : Reg) : (s.setMem a).reg z = s.reg z := rfl
@[simp] theorem setMem_width (a : Memory) : (s.setMem a).width = s.width := rfl
@[simp] theorem setMem_height (a : Memory) : (s.setMem a).height = s.height := rfl
@[simp] theorem setMem_chanMask (a : Memory) (z : Reg) : (s.setMem a).chanMask z = s.chanMask z := rfl
@[simp] theorem setMem_digit (a : Memory) (z : Reg) : (s.setMem a).digit z = s.digit z := rfl
@[simp] theorem setMem_dataAddr (a : Memory) (k : Nat) : (s.setMem a).dataAddr k = s.dataAddr k := rfl
@[simp] theorem setMem_selected (a : Memory) : (s.setMem a).selected = s.selected := rfl
@[simp] theorem setMem_spriteBytes (a : Memory) (n4 : BitVec 4) : (s.setMem a).spriteBytes n4 = s.spriteBytes n4 := rfl

/-! ### writeByte -/

@[simp] theorem writeByte_v (a : Nat) (b : Byte) : (s.writeByte a b).v = s.v := rfl
@[simp] theorem writeByte_i (a : Nat) (b : Byte) : (s.writeByte a b).i = s.i := rfl
@[simp] theorem writeByte_pc (a : Nat) (b : Byte) : (s.writeByte a b).pc = s.pc := rfl
@[simp] theorem writeByte_stack (a : Nat) (b : Byte) : (s.writeByte a b).stack = s.stack := rfl
@[simp] theorem writeByte_mem (a : Nat) (b : Byte) : (s.writeByte a b).mem = memWrite s.cfg s.mem a b := rfl
@[simp] theorem writeByte_dt (a : Nat) (b : Byte) : (s.writeByte a b).dt = s.dt := rfl
@[simp] theorem writeByte_st (a : Nat) (b : Byte) : (s.writeByte a b).st = s.st := rfl
@[simp] theorem writeByte_run (a : Nat) (b : Byte) : (s.writeByte a b).run = s.run := rfl
@[simp] theorem writeByte_hires (a : Nat) (b : Byte) : (s.writeByte a b).hires = s.hires := rfl
@[simp] theorem writeByte_planeMask (a : Nat) (b : Byte) : (s.writeByte a b).planeMask = s.planeMask := rfl
@[simp] theorem writeByte_drawMode (a : Nat) (b : Byte) : (s.writeByte a b).drawMode = s.drawMode := rfl
@[simp] theorem writeByte_planes (a : Nat) (b : Byte) : (s.writeByte a b).planes = s.planes := rfl
@[simp] theorem writeByte_pal (a : Nat) (b : Byte) : (s.writeByte a b).pal = s.pal := rfl
@[simp] theorem writeByte_flags (a : Nat) (b : Byte) : (s.writeByte a b).flags = s.flags := rfl
@[simp] theorem writeByte_sel (a : Nat) (b : Byte) : (s.writeByte a b).sel = s.sel := rfl
@[simp] theorem writeByte_voices (a : Nat) (b : Byte) : (s.writeByte a b).voices = s.voices := rfl
@[simp] theorem writeByte_queue (a : Nat) (b : Byte) : (s.writeByte a b).queue = s.queue := rfl
@[simp] theorem writeByte_cfg (a : Nat) (b : Byte) : (s.writeByte a b).cfg = s.cfg := rfl
@[simp] theorem writeByte_env (a : Nat) (b : Byte) : (s.writeByte a b).env = s.env := rfl
@[simp] theorem writeByte_memSize (a : Nat) (b : Byte) : (s.writeByte a b).memSize = s.memSize := rfl
@[simp] theorem writeByte_reg (a : Nat) (b : Byte) (z : Reg) : (s.writeByte a b).reg z = s.reg z := rfl
@[simp] theorem writeByte_width (a : Nat) (b : Byte) : (s.writeByte a b).width = s.width := rfl
@[simp] theorem writeByte_height (a : Nat) (b : Byte) : (s.writeByte a b).height = s.height := rfl
@[simp] theorem writeByte_chanMask (a : Nat) (b : Byte) (z : Reg) : (s.writeByte a b).chanMask z = s.chanMask z := rfl
@[simp] theorem writeByte_digit (a : Nat) (b : Byte) (z : Reg) : (s.writeByte a b).digit z = s.digit z := rfl
@[simp] theorem writeByte_dataAddr (a : Nat) (b : Byte) (k : Nat) : (s.writeByte a b).dataAddr k = s.dataAddr k := rfl
@[simp] theorem writeByte_selected (a : Nat) (b : Byte) : (s.writeByte a b).selected = s.selected := rfl
@[simp] theorem writeByte_spriteBytes (a : Nat) (b : Byte) (n4 : BitVec 4) : (s.writeByte a b).spriteBytes n4 = s.spriteBytes n4 := rfl

/-! ### setDt -/

@[simp] theorem setDt_v (a : Byte) : (s.setDt a).v = s.v := rfl
@[simp] theorem setDt_i (a : Byte) : (s.setDt a).i = s.i := rfl
@[simp] theorem setDt_pc (a : Byte) : (s.setDt a).pc = s.pc := rfl
@[simp] theorem setDt_stack (a : Byte) : (s.setDt a).stack = s.stack := rfl
@[simp] theorem setDt_mem (a : Byte) : (s.setDt a).mem = s.mem := rfl
@[simp] theorem setDt_dt (a : Byte) : (s.setDt a).dt = a := rfl
@[simp] theorem setDt_st (a : Byte) : (s.setDt a).st = s.st := rfl
@[simp] theorem setDt_run (a : Byte) : (s.setDt a).run = s.run := rfl
@[simp] theorem setDt_hires (a : Byte) : (s.setDt a).hires = s.hires := rfl
@[simp] theorem setDt_planeMask (a : Byte) : (s.setDt a).planeMask = s.planeMask := rfl
@[simp] theorem setDt_drawMode (a : Byte) : (s.setDt a).drawMode = s.drawMode := rfl
@[simp] theorem setDt_planes (a : Byte) : (s.setDt a).planes = s.planes := rfl
@[simp] theorem setDt_pal (a : Byte) : (s.setDt a).pal = s.pal := rfl
@[simp] theorem setDt_flags (a : Byte) : (s.setDt a).flags = s.flags := rfl
@[simp] theorem setDt_sel (a : Byte) : (s.setDt a).sel = s.sel := rfl
@[simp] theorem setDt_voices (a : Byte) : (s.setDt a).voices = s.voices := rfl
@[simp] theorem setDt_queue (a : Byte) : (s.setDt a).queue = s.queue := rfl
@[simp] theorem setDt_cfg (a : Byte) : (s.setDt a).cfg = s.cfg := rfl
@[simp] theorem setDt_env (a : Byte) : (s.setDt a).env = s.env := rfl
@[simp] theorem setDt_memSize (a : Byte) : (s.setDt a).memSize = s.memSize := rfl
@[simp] theorem setDt_reg (a : Byte) (z : Reg) : (s.setDt a).reg z = s.reg z := rfl
@[simp] theorem setDt_readByte (a : Byte) (k : Nat) : (s.setDt a).readByte k = s.readByte k := rfl
@[simp] theorem setDt_readWord (a : Byte) (k : Nat) : (s.setDt a).readWord k = s.readWord k := rfl
@[simp] theorem setDt_readBytes (a : Byte) (k n : Nat) : (s.setDt a).readBytes k n = s.readBytes k n := rfl
@[simp] theorem setDt_width (a : Byte) : (s.setDt a).width = s.width := rfl
@[simp] theorem setDt_height (a : Byte) : (s.setDt a).height = s.height := rfl
@[simp] theorem setDt_chanMask (a : Byte) (z : Reg) : (s.setDt a).chanMask z = s.chanMask z := rfl
@[simp] theorem setDt_digit (a : Byte) (z : Reg) : (s.setDt a).digit z = s.digit z := rfl
@[simp] theorem setDt_dataAddr (a : Byte) (k : Nat) : (s.setDt a).dataAddr k = s.dataAddr k := rfl
@[simp] theorem setDt_selected (a : Byte) : (s.setDt a).selected = s.selected := rfl
@[simp] theorem setDt_spriteBytes (a : Byte) (n4 : BitVec 4) : (s.setDt a).spriteBytes n4 = s.spriteBytes n4 := rfl

/-! ### setSt -/

@[simp] theorem setSt_v (a : Byte) : (s.setSt a).v = s.v := rfl
@[simp] theorem setSt_i (a : Byte) : (s.setSt a).i = s.i := rfl
@[simp] theorem setSt_pc (a : Byte) : (s.setSt a).pc = s.pc := rfl
@[simp] theorem setSt_stack (a : Byte) : (s.setSt a).stack = s.stack := rfl
@[simp] theorem setSt_mem (a : Byte) : (s.setSt a).mem = s.mem := rfl
@[simp] theorem setSt_dt (a : Byte) : (s.setSt a).dt = s.dt := rfl
@[simp] theorem setSt_st (a : Byte) : (s.setSt a).st = a := rfl
@[simp] theorem setSt_run (a : Byte) : (s.setSt a).run = s.run := rfl
@[simp] theorem setSt_hires (a : Byte) : (s.setSt a).hires = s.hires := rfl
@[simp] theorem setSt_planeMask (a : Byte) : (s.setSt a).planeMask = s.planeMask := rfl
@[simp] theorem setSt_drawMode (a : Byte) : (s.setSt a).drawMode = s.drawMode := rfl
@[simp] theorem setSt_planes (a : Byte) : (s.setSt a).planes = s.planes := rfl
@[simp] theorem setSt_pal (a : Byte) : (s.setSt a).pal = s.pal := rfl
@[simp] theorem setSt_flags (a : Byte) : (s.setSt a).flags = s.flags := rfl
@[simp] theorem setSt_sel (a : Byte) : (s.setSt a).sel = s.sel := rfl
@[simp] theorem setSt_voices (a : Byte) : (s.setSt a).voices = s.voices := rfl
@[simp] theorem setSt_queue (a : Byte) : (s.setSt a).queue = s.queue := rfl
@[simp] theorem setSt_cfg (a : Byte) : (s.setSt a).cfg = s.cfg := rfl
@[simp] theorem setSt_env (a : Byte) : (s.setSt a).env = s.env := rfl
@[simp] theorem setSt_memSize (a : Byte) : (s.setSt a).memSize = s.memSize := rfl
@[simp] theorem setSt_reg (a : Byte) (z : Reg) : (s.setSt a).reg z = s.reg z := rfl
@[simp] theorem setSt_readByte (a : Byte) (k : Nat) : (s.setSt a).readByte k = s.readByte k := rfl
@[simp] theorem setSt_readWord (a : Byte) (k : Nat) : (s.setSt a).readWord k = s.readWord k := rfl
@[simp] theorem setSt_readBytes (a : Byte) (k n : Nat) : (s.setSt a).readBytes k n = s.readBytes k n := rfl
@[simp] theorem setSt_width (a : Byte) : (s.setSt a).width = s.width := rfl
@[simp] theorem setSt_height (a : Byte) : (s.setSt a).height = s.height := rfl
@[simp] theorem setSt_chanMask (a : Byte) (z : Reg) : (s.setSt a).chanMask z = s.chanMask z := rfl
@[simp] theorem setSt_digit (a : Byte) (z : Reg) : (s.setSt a).digit z = s.digit z := rfl
@[simp] theorem setSt_dataAddr (a : Byte) (k : Nat) : (s.setSt a).dataAddr k = s.dataAddr k := rfl
@[simp] theorem setSt_selected (a : Byte) : (s.setSt a).selected = s.selected := rfl
@[simp] theorem setSt_spriteBytes (a : Byte) (n4 : BitVec 4) : (s.setSt a).spriteBytes n4 = s.spriteBytes n4 := rfl

/-! ### setRun -/

@[simp] theorem setRun_v (a : RunState) : (s.setRun a).v = s.v := rfl
@[simp] theorem setRun_i (a : RunState) : (s.setRun a).i = s.i := rfl
@[simp] theorem setRun_pc (a : RunState) : (s.setRun a).pc = s.pc := rfl
@[simp] theorem setRun_stack (a : RunState) : (s.setRun a).stack = s.stack := rfl
@[simp] theorem setRun_mem (a : RunState) : (s.setRun a).mem = s.mem := rfl
@[simp] theorem setRun_dt (a : RunState) : (s.setRun a).dt = s.dt := rfl
@[simp] theorem setRun_st (a : RunState) : (s.setRun a).st = s.st := rfl
@[simp] theorem setRun_run (a : RunState) : (s.setRun a).run = a := rfl
@[simp] theorem setRun_hires (a : RunState) : (s.setRun a).hires = s.hires := rfl
@[simp] theorem setRun_planeMask (a : RunState) : (s.setRun a).planeMask = s.planeMask := rfl
@[simp] theorem setRun_drawMode (a : RunState) : (s.setRun a).drawMode = s.drawMode := rfl
@[simp] theorem setRun_planes (a : RunState) : (s.setRun a).planes = s.planes := rfl
@[simp] theorem setRun_pal (a : RunState) : (s.setRun a).pal = s.pal := rfl
@[simp] theorem setRun_flags (a : RunState) : (s.setRun a).flags = s.flags := rfl
@[simp] theorem setRun_sel (a : RunState) : (s.setRun a).sel = s.sel := rfl
@[simp] theorem setRun_voices (a : RunState) : (s.setRun a).voices = s.voices := rfl
@[simp] theorem setRun_queue (a : RunState) : (s.setRun a).queue = s.queue := rfl
@[simp] theorem setRun_cfg (a : RunState) : (s.setRun a).cfg = s.cfg := rfl
@[simp] theorem setRun_env (a : RunState) : (s.setRun a).env = s.env := rfl
@[simp] theorem setRun_memSize (a : RunState) : (s.setRun a).memSize = s.memSize := rfl
@[simp] theorem setRun_reg (a : RunState) (z : Reg) : (s.setRun a).reg z = s.reg z := rfl
@[simp] theorem setRun_readByte (a : RunState) (k : Nat) : (s.setRun a).readByte k = s.readByte k := rfl
@[simp] theorem setRun_readWord (a : RunState) (k : Nat) : (s.setRun a).readWord k = s.readWord k := rfl
@[simp] theorem setRun_readBytes (a : RunState) (k n : Nat) : (s.setRun a).readBytes k n = s.readBytes k n := rfl
@[simp] theorem setRun_width (a : RunState) : (s.setRun a).width = s.width := rfl
@[simp] theorem setRun_height (a : RunState) : (s.setRun a).height = s.height := rfl
@[simp] theorem setRun_chanMask (a : RunState) (z : Reg) : (s.setRun a).chanMask z = s.chanMask z := rfl
@[simp] theorem setRun_digit (a : RunState) (z : Reg) : (s.setRun a).digit z = s.digit z := rfl
@[simp] theorem setRun_dataAddr (a : RunState) (k : Nat) : (s.setRun a).dataAddr k = s.dataAddr k := rfl
@[simp] theorem setRun_selected (a : RunState) : (s.setRun a).selected = s.selected := rfl
@[simp] theorem setRun_spriteBytes (a : RunState) (n4 : BitVec 4) : (s.setRun a).spriteBytes n4 = s.spriteBytes n4 := rfl

/-! ### raiseHalt -/

@[simp] theorem raiseHalt_v (r : HaltReason) : (raiseHalt r s).v = s.v := rfl
@[simp] theorem raiseHalt_i (r : HaltReason) : (raiseHalt r s).i = s.i := rfl
@[simp] theorem raiseHalt_pc (r : HaltReason) : (raiseHalt r s).pc = s.pc := rfl
@[simp] theorem raiseHalt_stack (r : HaltReason) : (raiseHalt r s).stack = s.stack := rfl
@[simp] theorem raiseHalt_mem (r : HaltReason) : (raiseHalt r s).mem = s.mem := rfl
@[simp] theorem raiseHalt_dt (r : HaltReason) : (raiseHalt r s).dt = s.dt := rfl
@[simp] theorem raiseHalt_st (r : HaltReason) : (raiseHalt r s).st = s.st := rfl
@[simp] theorem raiseHalt_run (r : HaltReason) : (raiseHalt r s).run = .halted r := rfl
@[simp] theorem raiseHalt_hires (r : HaltReason) : (raiseHalt r s).hires = s.hires := rfl
@[simp] theorem raiseHalt_planeMask (r : HaltReason) : (raiseHalt r s).planeMask = s.planeMask := rfl
@[simp] theorem raiseHalt_drawMode (r : HaltReason) : (raiseHalt r s).drawMode = s.drawMode := rfl
@[simp] theorem raiseHalt_planes (r : HaltReason) : (raiseHalt r s).planes = s.planes := rfl
@[simp] theorem raiseHalt_pal (r : HaltReason) : (raiseHalt r s).pal = s.pal := rfl
@[simp] theorem raiseHalt_flags (r : HaltReason) : (raiseHalt r s).flags = s.flags := rfl
@[simp] theorem raiseHalt_sel (r : HaltReason) : (raiseHalt r s).sel = s.sel := rfl
@[simp] theorem raiseHalt_voices (r : HaltReason) : (raiseHalt r s).voices = s.voices := rfl
@[simp] theorem raiseHalt_queue (r : HaltReason) : (raiseHalt r s).queue = s.queue := rfl
@[simp] theorem raiseHalt_cfg (r : HaltReason) : (raiseHalt r s).cfg = s.cfg := rfl
@[simp] theorem raiseHalt_env (r : HaltReason) : (raiseHalt r s).env = s.env := rfl
@[simp] theorem raiseHalt_memSize (r : HaltReason) : (raiseHalt r s).memSize = s.memSize := rfl
@[simp] theorem raiseHalt_reg (r : HaltReason) (z : Reg) : (raiseHalt r s).reg z = s.reg z := rfl
@[simp] theorem raiseHalt_readByte (r : HaltReason) (k : Nat) : (raiseHalt r s).readByte k = s.readByte k := rfl
@[simp] theorem raiseHalt_readWord (r : HaltReason) (k : Nat) : (raiseHalt r s).readWord k = s.readWord k := rfl
@[simp] theorem raiseHalt_readBytes (r : HaltReason) (k n : Nat) : (raiseHalt r s).readBytes k n = s.readBytes k n := rfl
@[simp] theorem raiseHalt_width (r : HaltReason) : (raiseHalt r s).width = s.width := rfl
@[simp] theorem raiseHalt_height (r : HaltReason) : (raiseHalt r s).height = s.height := rfl
@[simp] theorem raiseHalt_chanMask (r : HaltReason) (z : Reg) : (raiseHalt r s).chanMask z = s.chanMask z := rfl
@[simp] theorem raiseHalt_digit (r : HaltReason) (z : Reg) : (raiseHalt r s).digit z = s.digit z := rfl
@[simp] theorem raiseHalt_dataAddr (r : HaltReason) (k : Nat) : (raiseHalt r s).dataAddr k = s.dataAddr k := rfl
@[simp] theorem raiseHalt_selected (r : HaltReason) : (raiseHalt r s).selected = s.selected := rfl
@[simp] theorem raiseHalt_spriteBytes (r : HaltReason) (n4 : BitVec 4) : (raiseHalt r s).spriteBytes n4 = s.spriteBytes n4 := rfl

/-! ### setHires -/

@[simp] theorem setHires_v (a : Bool) : (s.setHires a).v = s.v := rfl
@[simp] theorem setHires_i (a : Bool) : (s.setHires a).i = s.i := rfl
@[simp] theorem setHires_pc (a : Bool) : (s.setHires a).pc = s.pc := rfl
@[simp] theorem setHires_stack (a : Bool) : (s.setHires a).stack = s.stack := rfl
@[simp] theorem setHires_mem (a : Bool) : (s.setHires a).mem = s.mem := rfl
@[simp] theorem setHires_dt (a : Bool) : (s.setHires a).dt = s.dt := rfl
@[simp] theorem setHires_st (a : Bool) : (s.setHires a).st = s.st := rfl
@[simp] theorem setHires_run (a : Bool) : (s.setHires a).run = s.run := rfl
@[simp] theorem setHires_hires (a : Bool) : (s.setHires a).hires = a := rfl
@[simp] theorem setHires_planeMask (a : Bool) : (s.setHires a).planeMask = s.planeMask := rfl
@[simp] theorem setHires_drawMode (a : Bool) : (s.setHires a).drawMode = s.drawMode := rfl
@[simp] theorem setHires_planes (a : Bool) : (s.setHires a).planes = s.planes := rfl
@[simp] theorem setHires_pal (a : Bool) : (s.setHires a).pal = s.pal := rfl
@[simp] theorem setHires_flags (a : Bool) : (s.setHires a).flags = s.flags := rfl
@[simp] theorem setHires_sel (a : Bool) : (s.setHires a).sel = s.sel := rfl
@[simp] theorem setHires_voices (a : Bool) : (s.setHires a).voices = s.voices := rfl
@[simp] theorem setHires_queue (a : Bool) : (s.setHires a).queue = s.queue := rfl
@[simp] theorem setHires_cfg (a : Bool) : (s.setHires a).cfg = s.cfg := rfl
@[simp] theorem setHires_env (a : Bool) : (s.setHires a).env = s.env := rfl
@[simp] theorem setHires_memSize (a : Bool) : (s.setHires a).memSize = s.memSize := rfl
@[simp] theorem setHires_reg (a : Bool) (z : Reg) : (s.setHires a).reg z = s.reg z := rfl
@[simp] theorem setHires_readByte (a : Bool) (k : Nat) : (s.setHires a).readByte k = s.readByte k := rfl
@[simp] theorem setHires_readWord (a : Bool) (k : Nat) : (s.setHires a).readWord k = s.readWord k := rfl
@[simp] theorem setHires_readBytes (a : Bool) (k n : Nat) : (s.setHires a).readBytes k n = s.readBytes k n := rfl
@[simp] theorem setHires_chanMask (a : Bool) (z : Reg) : (s.setHires a).chanMask z = s.chanMask z := rfl
@[simp] theorem setHires_digit (a : Bool) (z : Reg) : (s.setHires a).digit z = s.digit z := rfl
@[simp] theorem setHires_dataAddr (a : Bool) (k : Nat) : (s.setHires a).dataAddr k = s.dataAddr k := rfl
@[simp] theorem setHires_selected (a : Bool) : (s.setHires a).selected = s.selected := rfl
@[simp] theorem setHires_spriteBytes (a : Bool) (n4 : BitVec 4) : (s.setHires a).spriteBytes n4 = s.spriteBytes n4 := rfl

/-! ### setPlaneMask -/

@[simp] theorem setPlaneMask_v (a : BitVec 4) : (s.setPlaneMask a).v = s.v := rfl
@[simp] theorem setPlaneMask_i (a : BitVec 4) : (s.setPlaneMask a).i = s.i := rfl
@[simp] theorem setPlaneMask_pc (a : BitVec 4) : (s.setPlaneMask a).pc = s.pc := rfl
@[simp] theorem setPlaneMask_stack (a : BitVec 4) : (s.setPlaneMask a).stack = s.stack := rfl
@[simp] theorem setPlaneMask_mem (a : BitVec 4) : (s.setPlaneMask a).mem = s.mem := rfl
@[simp] theorem setPlaneMask_dt (a : BitVec 4) : (s.setPlaneMask a).dt = s.dt := rfl
@[simp] theorem setPlaneMask_st (a : BitVec 4) : (s.setPlaneMask a).st = s.st := rfl
@[simp] theorem setPlaneMask_run (a : BitVec 4) : (s.setPlaneMask a).run = s.run := rfl
@[simp] theorem setPlaneMask_hires (a : BitVec 4) : (s.setPlaneMask a).hires = s.hires := rfl
@[simp] theorem setPlaneMask_planeMask (a : BitVec 4) : (s.setPlaneMask a).planeMask = a := rfl
@[simp] theorem setPlaneMask_drawMode (a : BitVec 4) : (s.setPlaneMask a).drawMode = s.drawMode := rfl
@[simp] theorem setPlaneMask_planes (a : BitVec 4) : (s.setPlaneMask a).planes = s.planes := rfl
@[simp] theorem setPlaneMask_pal (a : BitVec 4) : (s.setPlaneMask a).pal = s.pal := rfl
@[simp] theorem setPlaneMask_flags (a : BitVec 4) : (s.setPlaneMask a).flags = s.flags := rfl
@[simp] theorem setPlaneMask_sel (a : BitVec 4) : (s.setPlaneMask a).sel = s.sel := rfl
@[simp] theorem setPlaneMask_voices (a : BitVec 4) : (s.setPlaneMask a).voices = s.voices := rfl
@[simp] theorem setPlaneMask_queue (a : BitVec 4) : (s.setPlaneMask a).queue = s.queue := rfl
@[simp] theorem setPlaneMask_cfg (a : BitVec 4) : (s.setPlaneMask a).cfg = s.cfg := rfl
@[simp] theorem setPlaneMask_env (a : BitVec 4) : (s.setPlaneMask a).env = s.env := rfl
@[simp] theorem setPlaneMask_memSize (a : BitVec 4) : (s.setPlaneMask a).memSize = s.memSize := rfl
@[simp] theorem setPlaneMask_reg (a : BitVec 4) (z : Reg) : (s.setPlaneMask a).reg z = s.reg z := rfl
@[simp] theorem setPlaneMask_readByte (a : BitVec 4) (k : Nat) : (s.setPlaneMask a).readByte k = s.readByte k := rfl
@[simp] theorem setPlaneMask_readWord (a : BitVec 4) (k : Nat) : (s.setPlaneMask a).readWord k = s.readWord k := rfl
@[simp] theorem setPlaneMask_readBytes (a : BitVec 4) (k n : Nat) : (s.setPlaneMask a).readBytes k n = s.readBytes k n := rfl
@[simp] theorem setPlaneMask_width (a : BitVec 4) : (s.setPlaneMask a).width = s.width := rfl
@[simp] theorem setPlaneMask_height (a : BitVec 4) : (s.setPlaneMask a).height = s.height := rfl
@[simp] theorem setPlaneMask_chanMask (a : BitVec 4) (z : Reg) : (s.setPlaneMask a).chanMask z = s.chanMask z := rfl
@[simp] theorem setPlaneMask_digit (a : BitVec 4) (z : Reg) : (s.setPlaneMask a).digit z = s.digit z := rfl
@[simp] theorem setPlaneMask_dataAddr (a : BitVec 4) (k : Nat) : (s.setPlaneMask a).dataAddr k = s.dataAddr k := rfl
@[simp] theorem setPlaneMask_selected (a : BitVec 4) : (s.setPlaneMask a).selected = s.selected := rfl

/-! ### setDrawMode -/

@[simp] theorem setDrawMode_v (a : DrawMode) : (s.setDrawMode a).v = s.v := rfl
@[simp] theorem setDrawMode_i (a : DrawMode) : (s.setDrawMode a).i = s.i := rfl
@[simp] theorem setDrawMode_pc (a : DrawMode) : (s.setDrawMode a).pc = s.pc := rfl
@[simp] theorem setDrawMode_stack (a : DrawMode) : (s.setDrawMode a).stack = s.stack := rfl
@[simp] theorem setDrawMode_mem (a : DrawMode) : (s.setDrawMode a).mem = s.mem := rfl
@[simp] theorem setDrawMode_dt (a : DrawMode) : (s.setDrawMode a).dt = s.dt := rfl
@[simp] theorem setDrawMode_st (a : DrawMode) : (s.setDrawMode a).st = s.st := rfl
@[simp] theorem setDrawMode_run (a : DrawMode) : (s.setDrawMode a).run = s.run := rfl
@[simp] theorem setDrawMode_hires (a : DrawMode) : (s.setDrawMode a).hires = s.hires := rfl
@[simp] theorem setDrawMode_planeMask (a : DrawMode) : (s.setDrawMode a).planeMask = s.planeMask := rfl
@[simp] theorem setDrawMode_drawMode (a : DrawMode) : (s.setDrawMode a).drawMode = a := rfl
@[simp] theorem setDrawMode_planes (a : DrawMode) : (s.setDrawMode a).planes = s.planes := rfl
@[simp] theorem setDrawMode_pal (a : DrawMode) : (s.setDrawMode a).pal = s.pal := rfl
@[simp] theorem setDrawMode_flags (a : DrawMode) : (s.setDrawMode a).flags = s.flags := rfl
@[simp] theorem setDrawMode_sel (a : DrawMode) : (s.setDrawMode a).sel = s.sel := rfl
@[simp] theorem setDrawMode_voices (a : DrawMode) : (s.setDrawMode a).voices = s.voices := rfl
@[simp] theorem setDrawMode_queue (a : DrawMode) : (s.setDrawMode a).queue = s.queue := rfl
@[simp] theorem setDrawMode_cfg (a : DrawMode) : (s.setDrawMode a).cfg = s.cfg := rfl
@[simp] theorem setDrawMode_env (a : DrawMode) : (s.setDrawMode a).env = s.env := rfl
@[simp] theorem setDrawMode_memSize (a : DrawMode) : (s.setDrawMode a).memSize = s.memSize := rfl
@[simp] theorem setDrawMode_reg (a : DrawMode) (z : Reg) : (s.setDrawMode a).reg z = s.reg z := rfl
@[simp] theorem setDrawMode_readByte (a : DrawMode) (k : Nat) : (s.setDrawMode a).readByte k = s.readByte k := rfl
@[simp] theorem setDrawMode_readWord (a : DrawMode) (k : Nat) : (s.setDrawMode a).readWord k = s.readWord k := rfl
@[simp] theorem setDrawMode_readBytes (a : DrawMode) (k n : Nat) : (s.setDrawMode a).readBytes k n = s.readBytes k n := rfl
@[simp] theorem setDrawMode_width (a : DrawMode) : (s.setDrawMode a).width = s.width := rfl
@[simp] theorem setDrawMode_height (a : DrawMode) : (s.setDrawMode a).height = s.height := rfl
@[simp] theorem setDrawMode_chanMask (a : DrawMode) (z : Reg) : (s.setDrawMode a).chanMask z = s.chanMask z := rfl
@[simp] theorem setDrawMode_digit (a : DrawMode) (z : Reg) : (s.setDrawMode a).digit z = s.digit z := rfl
@[simp] theorem setDrawMode_dataAddr (a : DrawMode) (k : Nat) : (s.setDrawMode a).dataAddr k = s.dataAddr k := rfl
@[simp] theorem setDrawMode_selected (a : DrawMode) : (s.setDrawMode a).selected = s.selected := rfl
@[simp] theorem setDrawMode_spriteBytes (a : DrawMode) (n4 : BitVec 4) : (s.setDrawMode a).spriteBytes n4 = s.spriteBytes n4 := rfl

/-! ### setPlanes -/

@[simp] theorem setPlanes_v (a : Planes) : (s.setPlanes a).v = s.v := rfl
@[simp] theorem setPlanes_i (a : Planes) : (s.setPlanes a).i = s.i := rfl
@[simp] theorem setPlanes_pc (a : Planes) : (s.setPlanes a).pc = s.pc := rfl
@[simp] theorem setPlanes_stack (a : Planes) : (s.setPlanes a).stack = s.stack := rfl
@[simp] theorem setPlanes_mem (a : Planes) : (s.setPlanes a).mem = s.mem := rfl
@[simp] theorem setPlanes_dt (a : Planes) : (s.setPlanes a).dt = s.dt := rfl
@[simp] theorem setPlanes_st (a : Planes) : (s.setPlanes a).st = s.st := rfl
@[simp] theorem setPlanes_run (a : Planes) : (s.setPlanes a).run = s.run := rfl
@[simp] theorem setPlanes_hires (a : Planes) : (s.setPlanes a).hires = s.hires := rfl
@[simp] theorem setPlanes_planeMask (a : Planes) : (s.setPlanes a).planeMask = s.planeMask := rfl
@[simp] theorem setPlanes_drawMode (a : Planes) : (s.setPlanes a).drawMode = s.drawMode := rfl
@[simp] theorem setPlanes_planes (a : Planes) : (s.setPlanes a).planes = a := rfl
@[simp] theorem setPlanes_pal (a : Planes) : (s.setPlanes a).pal = s.pal := rfl
@[simp] theorem setPlanes_flags (a : Planes) : (s.setPlanes a).flags = s.flags := rfl
@[simp] theorem setPlanes_sel (a : Planes) : (s.setPlanes a).sel = s.sel := rfl
@[simp] theorem setPlanes_voices (a : Planes) : (s.setPlanes a).voices = s.voices := rfl
@[simp] theorem setPlanes_queue (a : Planes) : (s.setPlanes a).queue = s.queue := rfl
@[simp] theorem setPlanes_cfg (a : Planes) : (s.setPlanes a).cfg = s.cfg := rfl
@[simp] theorem setPlanes_env (a : Planes) : (s.setPlanes a).env = s.env := rfl
@[simp] theorem setPlanes_memSize (a : Planes) : (s.setPlanes a).memSize = s.memSize := rfl
@[simp] theorem setPlanes_reg (a : Planes) (z : Reg) : (s.setPlanes a).reg z = s.reg z := rfl
@[simp] theorem setPlanes_readByte (a : Planes) (k : Nat) : (s.setPlanes a).readByte k = s.readByte k := rfl
@[simp] theorem setPlanes_readWord (a : Planes) (k : Nat) : (s.setPlanes a).readWord k = s.readWord k := rfl
@[simp] theorem setPlanes_readBytes (a : Planes) (k n : Nat) : (s.setPlanes a).readBytes k n = s.readBytes k n := rfl
@[simp] theorem setPlanes_width (a : Planes) : (s.setPlanes a).width = s.width := rfl
@[simp] theorem setPlanes_height (a : Planes) : (s.setPlanes a).height = s.height := rfl
@[simp] theorem setPlanes_chanMask (a : Planes) (z : Reg) : (s.setPlanes a).chanMask z = s.chanMask z := rfl
@[simp] theorem setPlanes_digit (a : Planes) (z : Reg) : (s.setPlanes a).digit z = s.digit z := rfl
@[simp] theorem setPlanes_dataAddr (a : Planes) (k : Nat) : (s.setPlanes a).dataAddr k = s.dataAddr k := rfl
@[simp] theorem setPlanes_selected (a : Planes) : (s.setPlanes a).selected = s.selected := rfl
@[simp] theorem setPlanes_spriteBytes (a : Planes) (n4 : BitVec 4) : (s.setPlanes a).spriteBytes n4 = s.spriteBytes n4 := rfl

/-! ### clearAll -/

@[simp] theorem clearAll_v : (s.clearAll).v = s.v := rfl
@[simp] theorem clearAll_i : (s.clearAll).i = s.i := rfl
@[simp] theorem clearAll_pc : (s.clearAll).pc = s.pc := rfl
@[simp] theorem clearAll_stack : (s.clearAll).stack = s.stack := rfl
@[simp] theorem clearAll_mem : (s.clearAll).mem = s.mem := rfl
@[simp] theorem clearAll_dt : (s.clearAll).dt = s.dt := rfl
@[simp] theorem clearAll_st : (s.clearAll).st = s.st := rfl
@[simp] theorem clearAll_run : (s.clearAll).run = s.run := rfl
@[simp] theorem clearAll_hires : (s.clearAll).hires = s.hires := rfl
@[simp] theorem clearAll_planeMask : (s.clearAll).planeMask = s.planeMask := rfl
@[simp] theorem clearAll_drawMode : (s.clearAll).drawMode = s.drawMode := rfl
@[simp] theorem clearAll_planes : (s.clearAll).planes = Vector.replicate 4 (Vector.replicate 64 0) := rfl
@[simp] theorem clearAll_pal : (s.clearAll).pal = s.pal := rfl
@[simp] theorem clearAll_flags : (s.clearAll).flags = s.flags := rfl
@[simp] theorem clearAll_sel : (s.clearAll).sel = s.sel := rfl
@[simp] theorem clearAll_voices : (s.clearAll).voices = s.voices := rfl
@[simp] theorem clearAll_queue : (s.clearAll).queue = s.queue := rfl
@[simp] theorem clearAll_cfg : (s.clearAll).cfg = s.cfg := rfl
@[simp] theorem clearAll_env : (s.clearAll).env = s.env := rfl
@[simp] theorem clearAll_memSize : (s.clearAll).memSize = s.memSize := rfl
@[simp] theorem clearAll_reg (z : Reg) : (s.clearAll).reg z = s.reg z := rfl
@[simp] theorem clearAll_readByte (k : Nat) : (s.clearAll).readByte k = s.readByte k := rfl
@[simp] theorem clearAll_readWord (k : Nat) : (s.clearAll).readWord k = s.readWord k := rfl
@[simp] theorem clearAll_readBytes (k n : Nat) : (s.clearAll).readBytes k n = s.readBytes k n := rfl
@[simp] theorem clearAll_width : (s.clearAll).width = s.width := rfl
@[simp] theorem clearAll_height : (s.clearAll).height = s.height := rfl
@[simp] theorem clearAll_chanMask (z : Reg) : (s.clearAll).chanMask z = s.chanMask z := rfl
@[simp] theorem clearAll_digit (z : Reg) : (s.clearAll).digit z = s.digit z := rfl
@[simp] theorem clearAll_dataAddr (k : Nat) : (s.clearAll).dataAddr k = s.dataAddr k := rfl
@[simp] theorem clearAll_selected : (s.clearAll).selected = s.selected := rfl
@[simp] theorem clearAll_spriteBytes (n4 : BitVec 4) : (s.clearAll).spriteBytes n4 = s.spriteBytes n4 := rfl

/-! ### setPal -/

@[simp] theorem setPal_v (a : Vector Rgb 16) : (s.setPal a).v = s.v := rfl
@[simp] theorem setPal_i (a : Vector Rgb 16) : (s.setPal a).i = s.i := rfl
@[simp] theorem setPal_pc (a : Vector Rgb 16) : (s.setPal a).pc = s.pc := rfl
@[simp] theorem setPal_stack (a : Vector Rgb 16) : (s.setPal a).stack = s.stack := rfl
@[simp] theorem setPal_mem (a : Vector Rgb 16) : (s.setPal a).mem = s.mem := rfl
@[simp] theorem setPal_dt (a : Vector Rgb 16) : (s.setPal a).dt = s.dt := rfl
@[simp] theorem setPal_st (a : Vector Rgb 16) : (s.setPal a).st = s.st := rfl
@[simp] theorem setPal_run (a : Vector Rgb 16) : (s.setPal a).run = s.run := rfl
@[simp] theorem setPal_hires (a : Vector Rgb 16) : (s.setPal a).hires = s.hires := rfl
@[simp] theorem setPal_planeMask (a : Vector Rgb 16) : (s.setPal a).planeMask = s.planeMask := rfl
@[simp] theorem setPal_drawMode (a : Vector Rgb 16) : (s.setPal a).drawMode = s.drawMode := rfl
@[simp] theorem setPal_planes (a : Vector Rgb 16) : (s.setPal a).planes = s.planes := rfl
@[simp] theorem setPal_pal (a : Vector Rgb 16) : (s.setPal a).pal = a := rfl
@[simp] theorem setPal_flags (a : Vector Rgb 16) : (s.setPal a).flags = s.flags := rfl
@[simp] theorem setPal_sel (a : Vector Rgb 16) : (s.setPal a).sel = s.sel := rfl
@[simp] theorem setPal_voices (a : Vector Rgb 16) : (s.setPal a).voices = s.voices := rfl
@[simp] theorem setPal_queue (a : Vector Rgb 16) : (s.setPal a).queue = s.queue := rfl
@[simp] theorem setPal_cfg (a : Vector Rgb 16) : (s.setPal a).cfg = s.cfg := rfl
@[simp] theorem setPal_env (a : Vector Rgb 16) : (s.setPal a).env = s.env := rfl
@[simp] theorem setPal_memSize (a : Vector Rgb 16) : (s.setPal a).memSize = s.memSize := rfl
@[simp] theorem setPal_reg (a : Vector Rgb 16) (z : Reg) : (s.setPal a).reg z = s.reg z := rfl
@[simp] theorem setPal_readByte (a : Vector Rgb 16) (k : Nat) : (s.setPal a).readByte k = s.readByte k := rfl
@[simp] theorem setPal_readWord (a : Vector Rgb 16) (k : Nat) : (s.setPal a).readWord k = s.readWord k := rfl
@[simp] theorem setPal_readBytes (a : Vector Rgb 16) (k n : Nat) : (s.setPal a).readBytes k n = s.readBytes k n := rfl
@[simp] theorem setPal_width (a : Vector Rgb 16) : (s.setPal a).width = s.width := rfl
@[simp] theorem setPal_height (a : Vector Rgb 16) : (s.setPal a).height = s.height := rfl
@[simp] theorem setPal_chanMask (a : Vector Rgb 16) (z : Reg) : (s.setPal a).chanMask z = s.chanMask z := rfl
@[simp] theorem setPal_digit (a : Vector Rgb 16) (z : Reg) : (s.setPal a).digit z = s.digit z := rfl
@[simp] theorem setPal_dataAddr (a : Vector Rgb 16) (k : Nat) : (s.setPal a).dataAddr k = s.dataAddr k := rfl
@[simp] theorem setPal_selected (a : Vector Rgb 16) : (s.setPal a).selected = s.selected := rfl
@[simp] theorem setPal_spriteBytes (a : Vector Rgb 16) (n4 : BitVec 4) : (s.setPal a).spriteBytes n4 = s.spriteBytes n4 := rfl

/-! ### setFlags -/

@[simp] theorem setFlags_v (a : FlagVec) : (s.setFlags a).v = s.v := rfl
@[simp] theorem setFlags_i (a : FlagVec) : (s.setFlags a).i = s.i := rfl
@[simp] theorem setFlags_pc (a : FlagVec) : (s.setFlags a).pc = s.pc := rfl
@[simp] theorem setFlags_stack (a : FlagVec) : (s.setFlags a).stack = s.stack := rfl
@[simp] theorem setFlags_mem (a : FlagVec) : (s.setFlags a).mem = s.mem := rfl
@[simp] theorem setFlags_dt (a : FlagVec) : (s.setFlags a).dt = s.dt := rfl
@[simp] theorem setFlags_st (a : FlagVec) : (s.setFlags a).st = s.st := rfl
@[simp] theorem setFlags_run (a : FlagVec) : (s.setFlags a).run = s.run := rfl
@[simp] theorem setFlags_hires (a : FlagVec) : (s.setFlags a).hires = s.hires := rfl
@[simp] theorem setFlags_planeMask (a : FlagVec) : (s.setFlags a).planeMask = s.planeMask := rfl
@[simp] theorem setFlags_drawMode (a : FlagVec) : (s.setFlags a).drawMode = s.drawMode := rfl
@[simp] theorem setFlags_planes (a : FlagVec) : (s.setFlags a).planes = s.planes := rfl
@[simp] theorem setFlags_pal (a : FlagVec) : (s.setFlags a).pal = s.pal := rfl
@[simp] theorem setFlags_flags (a : FlagVec) : (s.setFlags a).flags = a := rfl
@[simp] theorem setFlags_sel (a : FlagVec) : (s.setFlags a).sel = s.sel := rfl
@[simp] theorem setFlags_voices (a : FlagVec) : (s.setFlags a).voices = s.voices := rfl
@[simp] theorem setFlags_queue (a : FlagVec) : (s.setFlags a).queue = s.queue := rfl
@[simp] theorem setFlags_cfg (a : FlagVec) : (s.setFlags a).cfg = s.cfg := rfl
@[simp] theorem setFlags_env (a : FlagVec) : (s.setFlags a).env = s.env := rfl
@[simp] theorem setFlags_memSize (a : FlagVec) : (s.setFlags a).memSize = s.memSize := rfl
@[simp] theorem setFlags_reg (a : FlagVec) (z : Reg) : (s.setFlags a).reg z = s.reg z := rfl
@[simp] theorem setFlags_readByte (a : FlagVec) (k : Nat) : (s.setFlags a).readByte k = s.readByte k := rfl
@[simp] theorem setFlags_readWord (a : FlagVec) (k : Nat) : (s.setFlags a).readWord k = s.readWord k := rfl
@[simp] theorem setFlags_readBytes (a : FlagVec) (k n : Nat) : (s.setFlags a).readBytes k n = s.readBytes k n := rfl
@[simp] theorem setFlags_width (a : FlagVec) : (s.setFlags a).width = s.width := rfl
@[simp] theorem setFlags_height (a : FlagVec) : (s.setFlags a).height = s.height := rfl
@[simp] theorem setFlags_chanMask (a : FlagVec) (z : Reg) : (s.setFlags a).chanMask z = s.chanMask z := rfl
@[simp] theorem setFlags_digit (a : FlagVec) (z : Reg) : (s.setFlags a).digit z = s.digit z := rfl
@[simp] theorem setFlags_dataAddr (a : FlagVec) (k : Nat) : (s.setFlags a).dataAddr k = s.dataAddr k := rfl
@[simp] theorem setFlags_selected (a : FlagVec) : (s.setFlags a).selected = s.selected := rfl
@[simp] theorem setFlags_spriteBytes (a : FlagVec) (n4 : BitVec 4) : (s.setFlags a).spriteBytes n4 = s.spriteBytes n4 := rfl

/-! ### setSel -/

@[simp] theorem setSel_v (a : Byte) : (s.setSel a).v = s.v := rfl
@[simp] theorem setSel_i (a : Byte) : (s.setSel a).i = s.i := rfl
@[simp] theorem setSel_pc (a : Byte) : (s.setSel a).pc = s.pc := rfl
@[simp] theorem setSel_stack (a : Byte) : (s.setSel a).stack = s.stack := rfl
@[simp] theorem setSel_mem (a : Byte) : (s.setSel a).mem = s.mem := rfl
@[simp] theorem setSel_dt (a : Byte) : (s.setSel a).dt = s.dt := rfl
@[simp] theorem setSel_st (a : Byte) : (s.setSel a).st = s.st := rfl
@[simp] theorem setSel_run (a : Byte) : (s.setSel a).run = s.run := rfl
@[simp] theorem setSel_hires (a : Byte) : (s.setSel a).hires = s.hires := rfl
@[simp] theorem setSel_planeMask (a : Byte) : (s.setSel a).planeMask = s.planeMask := rfl
@[simp] theorem setSel_drawMode (a : Byte) : (s.setSel a).drawMode = s.drawMode := rfl
@[simp] theorem setSel_planes (a : Byte) : (s.setSel a).planes = s.planes := rfl
@[simp] theorem setSel_pal (a : Byte) : (s.setSel a).pal = s.pal := rfl
@[simp] theorem setSel_flags (a : Byte) : (s.setSel a).flags = s.flags := rfl
@[simp] theorem setSel_sel (a : Byte) : (s.setSel a).sel = a := rfl
@[simp] theorem setSel_voices (a : Byte) : (s.setSel a).voices = s.voices := rfl
@[simp] theorem setSel_queue (a : Byte) : (s.setSel a).queue = s.queue := rfl
@[simp] theorem setSel_cfg (a : Byte) : (s.setSel a).cfg = s.cfg := rfl
@[simp] theorem setSel_env (a : Byte) : (s.setSel a).env = s.env := rfl
@[simp] theorem setSel_memSize (a : Byte) : (s.setSel a).memSize = s.memSize := rfl
@[simp] theorem setSel_reg (a : Byte) (z : Reg) : (s.setSel a).reg z = s.reg z := rfl
@[simp] theorem setSel_readByte (a : Byte) (k : Nat) : (s.setSel a).readByte k = s.readByte k := rfl
@[simp] theorem setSel_readWord (a : Byte) (k : Nat) : (s.setSel a).readWord k = s.readWord k := rfl
@[simp] theorem setSel_readBytes (a : Byte) (k n : Nat) : (s.setSel a).readBytes k n = s.readBytes k n := rfl
@[simp] theorem setSel_width (a : Byte) : (s.setSel a).width = s.width := rfl
@[simp] theorem setSel_height (a : Byte) : (s.setSel a).height = s.height := rfl
@[simp] theorem setSel_chanMask (a : Byte) (z : Reg) : (s.setSel a).chanMask z = s.chanMask z := rfl
@[simp] theorem setSel_digit (a : Byte) (z : Reg) : (s.setSel a).digit z = s.digit z := rfl
@[simp] theorem setSel_dataAddr (a : Byte) (k : Nat) : (s.setSel a).dataAddr k = s.dataAddr k := rfl
@[simp] theorem setSel_spriteBytes (a : Byte) (n4 : BitVec 4) : (s.setSel a).spriteBytes n4 = s.spriteBytes n4 := rfl

/-! ### setVoices -/

@[simp] theorem setVoices_v (a : Vector Voice 4) : (s.setVoices a).v = s.v := rfl
@[simp] theorem setVoices_i (a : Vector Voice 4) : (s.setVoices a).i = s.i := rfl
@[simp] theorem setVoices_pc (a : Vector Voice 4) : (s.setVoices a).pc = s.pc := rfl
@[simp] theorem setVoices_stack (a : Vector Voice 4) : (s.setVoices a).stack = s.stack := rfl
@[simp] theorem setVoices_mem (a : Vector Voice 4) : (s.setVoices a).mem = s.mem := rfl
@[simp] theorem setVoices_dt (a : Vector Voice 4) : (s.setVoices a).dt = s.dt := rfl
@[simp] theorem setVoices_st (a : Vector Voice 4) : (s.setVoices a).st = s.st := rfl
@[simp] theorem setVoices_run (a : Vector Voice 4) : (s.setVoices a).run = s.run := rfl
@[simp] theorem setVoices_hires (a : Vector Voice 4) : (s.setVoices a).hires = s.hires := rfl
@[simp] theorem setVoices_planeMask (a : Vector Voice 4) : (s.setVoices a).planeMask = s.planeMask := rfl
@[simp] theorem setVoices_drawMode (a : Vector Voice 4) : (s.setVoices a).drawMode = s.drawMode := rfl
@[simp] theorem setVoices_planes (a : Vector Voice 4) : (s.setVoices a).planes = s.planes := rfl
@[simp] theorem setVoices_pal (a : Vector Voice 4) : (s.setVoices a).pal = s.pal := rfl
@[simp] theorem setVoices_flags (a : Vector Voice 4) : (s.setVoices a).flags = s.flags := rfl
@[simp] theorem setVoices_sel (a : Vector Voice 4) : (s.setVoices a).sel = s.sel := rfl
@[simp] theorem setVoices_voices (a : Vector Voice 4) : (s.setVoices a).voices = a := rfl
@[simp] theorem setVoices_queue (a : Vector Voice 4) : (s.setVoices a).queue = s.queue := rfl
@[simp] theorem setVoices_cfg (a : Vector Voice 4) : (s.setVoices a).cfg = s.cfg := rfl
@[simp] theorem setVoices_env (a : Vector Voice 4) : (s.setVoices a).env = s.env := rfl
@[simp] theorem setVoices_memSize (a : Vector Voice 4) : (s.setVoices a).memSize = s.memSize := rfl
@[simp] theorem setVoices_reg (a : Vector Voice 4) (z : Reg) : (s.setVoices a).reg z = s.reg z := rfl
@[simp] theorem setVoices_readByte (a : Vector Voice 4) (k : Nat) : (s.setVoices a).readByte k = s.readByte k := rfl
@[simp] theorem setVoices_readWord (a : Vector Voice 4) (k : Nat) : (s.setVoices a).readWord k = s.readWord k := rfl
@[simp] theorem setVoices_readBytes (a : Vector Voice 4) (k n : Nat) : (s.setVoices a).readBytes k n = s.readBytes k n := rfl
@[simp] theorem setVoices_width (a : Vector Voice 4) : (s.setVoices a).width = s.width := rfl
@[simp] theorem setVoices_height (a : Vector Voice 4) : (s.setVoices a).height = s.height := rfl
@[simp] theorem setVoices_chanMask (a : Vector Voice 4) (z : Reg) : (s.setVoices a).chanMask z = s.chanMask z := rfl
@[simp] theorem setVoices_digit (a : Vector Voice 4) (z : Reg) : (s.setVoices a).digit z = s.digit z := rfl
@[simp] theorem setVoices_dataAddr (a : Vector Voice 4) (k : Nat) : (s.setVoices a).dataAddr k = s.dataAddr k := rfl
@[simp] theorem setVoices_selected (a : Vector Voice 4) : (s.setVoices a).selected = s.selected := rfl
@[simp] theorem setVoices_spriteBytes (a : Vector Voice 4) (n4 : BitVec 4) : (s.setVoices a).spriteBytes n4 = s.spriteBytes n4 := rfl

/-! ### setQueue -/

@[simp] theorem setQueue_v (a : List Chunk) : (s.setQueue a).v = s.v := rfl
@[simp] theorem setQueue_i (a : List Chunk) : (s.setQueue a).i = s.i := rfl
@[simp] theorem setQueue_pc (a : List Chunk) : (s.setQueue a).pc = s.pc := rfl
@[simp] theorem setQueue_stack (a : List Chunk) : (s.setQueue a).stack = s.stack := rfl
@[simp] theorem setQueue_mem (a : List Chunk) : (s.setQueue a).mem = s.mem := rfl
@[simp] theorem setQueue_dt (a : List Chunk) : (s.setQueue a).dt = s.dt := rfl
@[simp] theorem setQueue_st (a : List Chunk) : (s.setQueue a).st = s.st := rfl
@[simp] theorem setQueue_run (a : List Chunk) : (s.setQueue a).run = s.run := rfl
@[simp] theorem setQueue_hires (a : List Chunk) : (s.setQueue a).hires = s.hires := rfl
@[simp] theorem setQueue_planeMask (a : List Chunk) : (s.setQueue a).planeMask = s.planeMask := rfl
@[simp] theorem setQueue_drawMode (a : List Chunk) : (s.setQueue a).drawMode = s.drawMode := rfl
@[simp] theorem setQueue_planes (a : List Chunk) : (s.setQueue a).planes = s.planes := rfl
@[simp] theorem setQueue_pal (a : List Chunk) : (s.setQueue a).pal = s.pal := rfl
@[simp] theorem setQueue_flags (a : List Chunk) : (s.setQueue a).flags = s.flags := rfl
@[simp] theorem setQueue_sel (a : List Chunk) : (s.setQueue a).sel = s.sel := rfl
@[simp] theorem setQueue_voices (a : List Chunk) : (s.setQueue a).voices = s.voices := rfl
@[simp] theorem setQueue_queue (a : List Chunk) : (s.setQueue a).queue = a := rfl
@[simp] theorem setQueue_cfg (a : List Chunk) : (s.setQueue a).cfg = s.cfg := rfl
@[simp] theorem setQueue_env (a : List Chunk) : (s.setQueue a).env = s.env := rfl
@[simp] theorem setQueue_memSize (a : List Chunk) : (s.setQueue a).memSize = s.memSize := rfl
@[simp] theorem setQueue_reg (a : List Chunk) (z : Reg) : (s.setQueue a).reg z = s.reg z := rfl
@[simp] theorem setQueue_readByte (a : List Chunk) (k : Nat) : (s.setQueue a).readByte k = s.readByte k := rfl
@[simp] theorem setQueue_readWord (a : List Chunk) (k : Nat) : (s.setQueue a).readWord k = s.readWord k := rfl
@[simp] theorem setQueue_readBytes (a : List Chunk) (k n : Nat) : (s.setQueue a).readBytes k n = s.readBytes k n := rfl
@[simp] theorem setQueue_width (a : List Chunk) : (s.setQueue a).width = s.width := rfl
@[simp] theorem setQueue_height (a : List Chunk) : (s.setQueue a).height = s.height := rfl
@[simp] theorem setQueue_chanMask (a : List Chunk) (z : Reg) : (s.setQueue a).chanMask z = s.chanMask z := rfl
@[simp] theorem setQueue_digit (a : List Chunk) (z : Reg) : (s.setQueue a).digit z = s.digit z := rfl
@[simp] theorem setQueue_dataAddr (a : List Chunk) (k : Nat) : (s.setQueue a).dataAddr k = s.dataAddr k := rfl
@[simp] theorem setQueue_selected (a : List Chunk) : (s.setQueue a).selected = s.selected := rfl
@[simp] theorem setQueue_spriteBytes (a : List Chunk) (n4 : BitVec 4) : (s.setQueue a).spriteBytes n4 = s.spriteBytes n4 := rfl

/-! ### setEnv -/

@[simp] theorem setEnv_v (a : Env) : (s.setEnv a).v = s.v := rfl
@[simp] theorem setEnv_i (a : Env) : (s.setEnv a).i = s.i := rfl
@[simp] theorem setEnv_pc (a : Env) : (s.setEnv a).pc = s.pc := rfl
@[simp] theorem setEnv_stack (a : Env) : (s.setEnv a).stack = s.stack := rfl
@[simp] theorem setEnv_mem (a : Env) : (s.setEnv a).mem = s.mem := rfl
@[simp] theorem setEnv_dt (a : Env) : (s.setEnv a).dt = s.dt := rfl
@[simp] theorem setEnv_st (a : Env) : (s.setEnv a).st = s.st := rfl
@[simp] theorem setEnv_run (a : Env) : (s.setEnv a).run = s.run := rfl
@[simp] theorem setEnv_hires (a : Env) : (s.setEnv a).hires = s.hires := rfl
@[simp] theorem setEnv_planeMask (a : Env) : (s.setEnv a).planeMask = s.planeMask := rfl
@[simp] theorem setEnv_drawMode (a : Env) : (s.setEnv a).drawMode = s.drawMode := rfl
@[simp] theorem setEnv_planes (a : Env) : (s.setEnv a).planes = s.planes := rfl
@[simp] theorem setEnv_pal (a : Env) : (s.setEnv a).pal = s.pal := rfl
@[simp] theorem setEnv_flags (a : Env) : (s.setEnv a).flags = s.flags := rfl
@[simp] theorem setEnv_sel (a : Env) : (s.setEnv a).sel = s.sel := rfl
@[simp] theorem setEnv_voices (a : Env) : (s.setEnv a).voices = s.voices := rfl
@[simp] theorem setEnv_queue (a : Env) : (s.setEnv a).queue = s.queue := rfl
@[simp] theorem setEnv_cfg (a : Env) : (s.setEnv a).cfg = s.cfg := rfl
@[simp] theorem setEnv_env (a : Env) : (s.setEnv a).env = a := rfl
@[simp] theorem setEnv_memSize (a : Env) : (s.setEnv a).memSize = s.memSize := rfl
@[simp] theorem setEnv_reg (a : Env) (z : Reg) : (s.setEnv a).reg z = s.reg z := rfl
@[simp] theorem setEnv_readByte (a : Env) (k : Nat) : (s.setEnv a).readByte k = s.readByte k := rfl
@[simp] theorem setEnv_readWord (a : Env) (k : Nat) : (s.setEnv a).readWord k = s.readWord k := rfl
@[simp] theorem setEnv_readBytes (a : Env) (k n : Nat) : (s.setEnv a).readBytes k n = s.readBytes k n := rfl
@[simp] theorem setEnv_width (a : Env) : (s.setEnv a).width = s.width := rfl
@[simp] theorem setEnv_height (a : Env) : (s.setEnv a).height = s.height := rfl
@[simp] theorem setEnv_chanMask (a : Env) (z : Reg) : (s.setEnv a).chanMask z = s.chanMask z := rfl
@[simp] theorem setEnv_digit (a : Env) (z : Reg) : (s.setEnv a).digit z = s.digit z := rfl
@[simp] theorem setEnv_dataAddr (a : Env) (k : Nat) : (s.setEnv a).dataAddr k = s.dataAddr k := rfl
@[simp] theorem setEnv_selected (a : Env) : (s.setEnv a).selected = s.selected := rfl
@[simp] theorem setEnv_spriteBytes (a : Env) (n4 : BitVec 4) : (s.setEnv a).spriteBytes n4 = s.spriteBytes n4 := rfl

/-! ### emit -/

@[simp] theorem emit_v (o : Output) : (s.emit o).v = s.v := rfl
@[simp] theorem emit_i (o : Output) : (s.emit o).i = s.i := rfl
@[simp] theorem emit_pc (o : Output) : (s.emit o).pc = s.pc := rfl
@[simp] theorem emit_stack (o : Output) : (s.emit o).stack = s.stack := rfl
@[simp] theorem emit_mem (o : Output) : (s.emit o).mem = s.mem := rfl
@[simp] theorem emit_dt (o : Output) : (s.emit o).dt = s.dt := rfl
@[simp] theorem emit_st (o : Output) : (s.emit o).st = s.st := rfl
@[simp] theorem emit_run (o : Output) : (s.emit o).run = s.run := rfl
@[simp] theorem emit_hires (o : Output) : (s.emit o).hires = s.hires := rfl
@[simp] theorem emit_planeMask (o : Output) : (s.emit o).planeMask = s.planeMask := rfl
@[simp] theorem emit_drawMode (o : Output) : (s.emit o).drawMode = s.drawMode := rfl
@[simp] theorem emit_planes (o : Output) : (s.emit o).planes = s.planes := rfl
@[simp] theorem emit_pal (o : Output) : (s.emit o).pal = s.pal := rfl
@[simp] theorem emit_flags (o : Output) : (s.emit o).flags = s.flags := rfl
@[simp] theorem emit_sel (o : Output) : (s.emit o).sel = s.sel := rfl
@[simp] theorem emit_voices (o : Output) : (s.emit o).voices = s.voices := rfl
@[simp] theorem emit_queue (o : Output) : (s.emit o).queue = s.queue := rfl
@[simp] theorem emit_cfg (o : Output) : (s.emit o).cfg = s.cfg := rfl
@[simp] theorem emit_env (o : Output) : (s.emit o).env = { s.env with out := s.env.out ++ [o] } := rfl
@[simp] theorem emit_memSize (o : Output) : (s.emit o).memSize = s.memSize := rfl
@[simp] theorem emit_reg (o : Output) (z : Reg) : (s.emit o).reg z = s.reg z := rfl
@[simp] theorem emit_readByte (o : Output) (k : Nat) : (s.emit o).readByte k = s.readByte k := rfl
@[simp] theorem emit_readWord (o : Output) (k : Nat) : (s.emit o).readWord k = s.readWord k := rfl
@[simp] theorem emit_readBytes (o : Output) (k n : Nat) : (s.emit o).readBytes k n = s.readBytes k n := rfl
@[simp] theorem emit_width (o : Output) : (s.emit o).width = s.width := rfl
@[simp] theorem emit_height (o : Output) : (s.emit o).height = s.height := rfl
@[simp] theorem emit_chanMask (o : Output) (z : Reg) : (s.emit o).chanMask z = s.chanMask z := rfl
@[simp] theorem emit_digit (o : Output) (z : Reg) : (s.emit o).digit z = s.digit z := rfl
@[simp] theorem emit_dataAddr (o : Output) (k : Nat) : (s.emit o).dataAddr k = s.dataAddr k := rfl
@[simp] theorem emit_selected (o : Output) : (s.emit o).selected = s.selected := rfl
@[simp] theorem emit_spriteBytes (o : Output) (n4 : BitVec 4) : (s.emit o).spriteBytes n4 = s.spriteBytes n4 := rfl

/-! ### afterRand -/

@[simp] theorem afterRand_v : (s.afterRand).v = s.v := rfl
@[simp] theorem afterRand_i : (s.afterRand).i = s.i := rfl
@[simp] theorem afterRand_pc : (s.afterRand).pc = s.pc := rfl
@[simp] theorem afterRand_stack : (s.afterRand).stack = s.stack := rfl
@[simp] theorem afterRand_mem : (s.afterRand).mem = s.mem := rfl
@[simp] theorem afterRand_dt : (s.afterRand).dt = s.dt := rfl
@[simp] theorem afterRand_st : (s.afterRand).st = s.st := rfl
@[simp] theorem afterRand_run : (s.afterRand).run = s.run := rfl
@[simp] theorem afterRand_hires : (s.afterRand).hires = s.hires := rfl
@[simp] theorem afterRand_planeMask : (s.afterRand).planeMask = s.planeMask := rfl
@[simp] theorem afterRand_drawMode : (s.afterRand).drawMode = s.drawMode := rfl
@[simp] theorem afterRand_planes : (s.afterRand).planes = s.planes := rfl
@[simp] theorem afterRand_pal : (s.afterRand).pal = s.pal := rfl
@[simp] theorem afterRand_flags : (s.afterRand).flags = s.flags := rfl
@[simp] theorem afterRand_sel : (s.afterRand).sel = s.sel := rfl
@[simp] theorem afterRand_voices : (s.afterRand).voices = s.voices := rfl
@[simp] theorem afterRand_queue : (s.afterRand).queue = s.queue := rfl
@[simp] theorem afterRand_cfg : (s.afterRand).cfg = s.cfg := rfl
@[simp] theorem afterRand_env : (s.afterRand).env = { s.env with randIn := s.env.randIn.tail, draws := s.env.draws + 1 } := rfl
@[simp] theorem afterRand_memSize : (s.afterRand).memSize = s.memSize := rfl
@[simp] theorem afterRand_reg (z : Reg) : (s.afterRand).reg z = s.reg z := rfl
@[simp] theorem afterRand_readByte (k : Nat) : (s.afterRand).readByte k = s.readByte k := rfl
@[simp] theorem afterRand_readWord (k : Nat) : (s.afterRand).readWord k = s.readWord k := rfl
@[simp] theorem afterRand_readBytes (k n : Nat) : (s.afterRand).readBytes k n = s.readBytes k n := rfl
@[simp] theorem afterRand_width : (s.afterRand).width = s.width := rfl
@[simp] theorem afterRand_height : (s.afterRand).height = s.height := rfl
@[simp] theorem afterRand_chanMask (z : Reg) : (s.afterRand).chanMask z = s.chanMask z := rfl
@[simp] theorem afterRand_digit (z : Reg) : (s.afterRand).digit z = s.digit z := rfl
@[simp] theorem afterRand_dataAddr (k : Nat) : (s.afterRand).dataAddr k = s.dataAddr k := rfl
@[simp] theorem afterRand_selected : (s.afterRand).selected = s.selected := rfl
@[simp] theorem afterRand_spriteBytes (n4 : BitVec 4) : (s.afterRand).spriteBytes n4 = s.spriteBytes n4 := rfl

/-! ### afterKeySample -/

@[simp] theorem afterKeySample_v : (s.afterKeySample).v = s.v := rfl
@[simp] theorem afterKeySample_i : (s.afterKeySample).i = s.i := rfl
@[simp] theorem afterKeySample_pc : (s.afterKeySample).pc = s.pc := rfl
@[simp] theorem afterKeySample_stack : (s.afterKeySample).stack = s.stack := rfl
@[simp] theorem afterKeySample_mem : (s.afterKeySample).mem = s.mem := rfl
@[simp] theorem afterKeySample_dt : (s.afterKeySample).dt = s.dt := rfl
@[simp] theorem afterKeySample_st : (s.afterKeySample).st = s.st := rfl
@[simp] theorem afterKeySample_run : (s.afterKeySample).run = s.run := rfl
@[simp] theorem afterKeySample_hires : (s.afterKeySample).hires = s.hires := rfl
@[simp] theorem afterKeySample_planeMask : (s.afterKeySample).planeMask = s.planeMask := rfl
@[simp] theorem afterKeySample_drawMode : (s.afterKeySample).drawMode = s.drawMode := rfl
@[simp] theorem afterKeySample_planes : (s.afterKeySample).planes = s.planes := rfl
@[simp] theorem afterKeySample_pal : (s.afterKeySample).pal = s.pal := rfl
@[simp] theorem afterKeySample_flags : (s.afterKeySample).flags = s.flags := rfl
@[simp] theorem afterKeySample_sel : (s.afterKeySample).sel = s.sel := rfl
@[simp] theorem afterKeySample_voices : (s.afterKeySample).voices = s.voices := rfl
@[simp] theorem afterKeySample_queue : (s.afterKeySample).queue = s.queue := rfl
@[simp] theorem afterKeySample_cfg : (s.afterKeySample).cfg = s.cfg := rfl
@[simp] theorem afterKeySample_env : (s.afterKeySample).env = { s.env with draws := s.env.draws + 1 } := rfl
@[simp] theorem afterKeySample_memSize : (s.afterKeySample).memSize = s.memSize := rfl
@[simp] theorem afterKeySample_reg (z : Reg) : (s.afterKeySample).reg z = s.reg z := rfl
@[simp] theorem afterKeySample_readByte (k : Nat) : (s.afterKeySample).readByte k = s.readByte k := rfl
@[simp] theorem afterKeySample_readWord (k : Nat) : (s.afterKeySample).readWord k = s.readWord k := rfl
@[simp] theorem afterKeySample_readBytes (k n : Nat) : (s.afterKeySample).readBytes k n = s.readBytes k n := rfl
@[simp] theorem afterKeySample_width : (s.afterKeySample).width = s.width := rfl
@[simp] theorem afterKeySample_height : (s.afterKeySample).height = s.height := rfl
@[simp] theorem afterKeySample_chanMask (z : Reg) : (s.afterKeySample).chanMask z = s.chanMask z := rfl
@[simp] theorem afterKeySample_digit (z : Reg) : (s.afterKeySample).digit z = s.digit z := rfl
@[simp] theorem afterKeySample_dataAddr (k : Nat) : (s.afterKeySample).dataAddr k = s.dataAddr k := rfl
@[simp] theorem afterKeySample_selected : (s.afterKeySample).selected = s.selected := rfl
@[simp] theorem afterKeySample_spriteBytes (n4 : BitVec 4) : (s.afterKeySample).spriteBytes n4 = s.spriteBytes n4 := rfl

/-! ### afterFlagsAnswer -/

@[simp] theorem afterFlagsAnswer_v : (s.afterFlagsAnswer).v = s.v := rfl
@[simp] theorem afterFlagsAnswer_i : (s.afterFlagsAnswer).i = s.i := rfl
@[simp] theorem afterFlagsAnswer_pc : (s.afterFlagsAnswer).pc = s.pc := rfl
@[simp] theorem afterFlagsAnswer_stack : (s.afterFlagsAnswer).stack = s.stack := rfl
@[simp] theorem afterFlagsAnswer_mem : (s.afterFlagsAnswer).mem = s.mem := rfl
@[simp] theorem afterFlagsAnswer_dt : (s.afterFlagsAnswer).dt = s.dt := rfl
@[simp] theorem afterFlagsAnswer_st : (s.afterFlagsAnswer).st = s.st := rfl
@[simp] theorem afterFlagsAnswer_run : (s.afterFlagsAnswer).run = s.run := rfl
@[simp] theorem afterFlagsAnswer_hires : (s.afterFlagsAnswer).hires = s.hires := rfl
@[simp] theorem afterFlagsAnswer_planeMask : (s.afterFlagsAnswer).planeMask = s.planeMask := rfl
@[simp] theorem afterFlagsAnswer_drawMode : (s.afterFlagsAnswer).drawMode = s.drawMode := rfl
@[simp] theorem afterFlagsAnswer_planes : (s.afterFlagsAnswer).planes = s.planes := rfl
@[simp] theorem afterFlagsAnswer_pal : (s.afterFlagsAnswer).pal = s.pal := rfl
@[simp] theorem afterFlagsAnswer_flags : (s.afterFlagsAnswer).flags = s.flags := rfl
@[simp] theorem afterFlagsAnswer_sel : (s.afterFlagsAnswer).sel = s.sel := rfl
@[simp] theorem afterFlagsAnswer_voices : (s.afterFlagsAnswer).voices = s.voices := rfl
@[simp] theorem afterFlagsAnswer_queue : (s.afterFlagsAnswer).queue = s.queue := rfl
@[simp] theorem afterFlagsAnswer_cfg : (s.afterFlagsAnswer).cfg = s.cfg := rfl
@[simp] theorem afterFlagsAnswer_env : (s.afterFlagsAnswer).env = { s.env with flagsIn := s.env.flagsIn.tail, draws := s.env.draws + 1 } := rfl
@[simp] theorem afterFlagsAnswer_memSize : (s.afterFlagsAnswer).memSize = s.memSize := rfl
@[simp] theorem afterFlagsAnswer_reg (z : Reg) : (s.afterFlagsAnswer).reg z = s.reg z := rfl
@[simp] theorem afterFlagsAnswer_readByte (k : Nat) : (s.afterFlagsAnswer).readByte k = s.readByte k := rfl
@[simp] theorem afterFlagsAnswer_readWord (k : Nat) : (s.afterFlagsAnswer).readWord k = s.readWord k := rfl
@[simp] theorem afterFlagsAnswer_readBytes (k n : Nat) : (s.afterFlagsAnswer).readBytes k n = s.readBytes k n := rfl
@[simp] theorem afterFlagsAnswer_width : (s.afterFlagsAnswer).width = s.width := rfl
@[simp] theorem afterFlagsAnswer_height : (s.afterFlagsAnswer).height = s.height := rfl
@[simp] theorem afterFlagsAnswer_chanMask (z : Reg) : (s.afterFlagsAnswer).chanMask z = s.chanMask z := rfl
@[simp] theorem afterFlagsAnswer_digit (z : Reg) : (s.afterFlagsAnswer).digit z = s.digit z := rfl
@[simp] theorem afterFlagsAnswer_dataAddr (k : Nat) : (s.afterFlagsAnswer).dataAddr k = s.dataAddr k := rfl
@[simp] theorem afterFlagsAnswer_selected : (s.afterFlagsAnswer).selected = s.selected := rfl
@[simp] theorem afterFlagsAnswer_spriteBytes (n4 : BitVec 4) : (s.afterFlagsAnswer).spriteBytes n4 = s.spriteBytes n4 := rfl

end Sys2Proof.Machine
end

