-- ==== Sys2Proof/Laws/Memory.lean ====
section
/-! SUPPORT. The laws of memory: read after write, and that every memory operation keeps the canonical form. -/

namespace Sys2Proof.Machine

/-! ## Lookup after insert and erase -/

theorem memLookup_memErase (m : Memory) (a k : Nat) :
    memLookup (memErase m a) k = if k = a then none else memLookup m k := by
  induction m with
  | nil => simp [memErase, memLookup]
  | cons e m ih =>
    obtain ⟨j, c⟩ := e
    by_cases hja : j = a
    · subst hja
      simp only [memErase, if_pos, ih, memLookup]
      by_cases hk : k = j
      · simp [hk]
      · simp [hk, Ne.symm hk]
    · simp only [memErase, if_neg hja, memLookup, ih]
      by_cases hjk : j = k
      · simp [hjk, show ¬k = a from hjk ▸ hja]
      · simp [hjk]

theorem memLookup_memInsert (m : Memory) (a k : Nat) (b : Byte) :
    memLookup (memInsert m a b) k = if k = a then some b else memLookup m k := by
  induction m with
  | nil => simp [memInsert, memLookup, eq_comm (a := a)]
  | cons e m ih =>
    obtain ⟨j, c⟩ := e
    unfold memInsert
    split
    · by_cases h : k = a
      · simp [memLookup, h]
      · simp [memLookup, h, Ne.symm h]
    · split
      · rename_i _ haj
        subst haj
        by_cases h : k = a
        · simp [memLookup, h]
        · simp [memLookup, h, Ne.symm h]
      · rename_i _ haj
        simp only [memLookup, ih]
        by_cases hjk : j = k
        · simp [hjk, show ¬k = a from fun h => haj (by omega)]
        · simp [hjk]

theorem memRead_memWrite (c : Config) (m : Memory) (a k : Nat) (b : Byte) :
    memRead c (memWrite c m a b) k = if k = a then b else memRead c m k := by
  unfold memRead memWrite
  split
  · rename_i hb
    rw [memLookup_memErase]
    by_cases h : k = a <;> simp [h, hb]
  · rw [memLookup_memInsert]
    by_cases h : k = a <;> simp [h]

/-! ## The canonical form -/

theorem memErase_keys (m : Memory) (a : Nat) (e : Host.Cell) (h : e ∈ memErase m a) : e ∈ m := by
  induction m with
  | nil => simp [memErase] at h
  | cons p m ih =>
    obtain ⟨j, c⟩ := p
    unfold memErase at h
    split at h
    · exact List.mem_cons_of_mem _ (ih h)
    · rcases List.mem_cons.1 h with rfl | h
      · exact List.mem_cons_self
      · exact List.mem_cons_of_mem _ (ih h)

theorem memInsert_keys (m : Memory) (a : Nat) (b : Byte) (e : Host.Cell) (h : e ∈ memInsert m a b) :
    e = (a, b) ∨ e ∈ m := by
  induction m with
  | nil => exact .inl (by simpa [memInsert] using h)
  | cons p m ih =>
    obtain ⟨j, c⟩ := p
    unfold memInsert at h
    split at h
    · rcases List.mem_cons.1 h with rfl | h
      · exact .inl rfl
      · exact .inr h
    · split at h
      · rcases List.mem_cons.1 h with rfl | h
        · exact .inl rfl
        · exact .inr (List.mem_cons_of_mem _ h)
      · rcases List.mem_cons.1 h with rfl | h
        · exact .inr List.mem_cons_self
        · exact (ih h).imp id (List.mem_cons_of_mem _)

theorem memErase_sorted (m : Memory) (a : Nat) (h : m.Pairwise fun p q => p.1 < q.1) :
    (memErase m a).Pairwise fun p q => p.1 < q.1 := by
  induction m with
  | nil => simp [memErase]
  | cons p m ih =>
    obtain ⟨j, c⟩ := p
    rw [List.pairwise_cons] at h
    unfold memErase
    split
    · exact ih h.2
    · exact List.pairwise_cons.2 ⟨fun e he => h.1 e (memErase_keys m a e he), ih h.2⟩

theorem memInsert_sorted (m : Memory) (a : Nat) (b : Byte) (h : m.Pairwise fun p q => p.1 < q.1) :
    (memInsert m a b).Pairwise fun p q => p.1 < q.1 := by
  induction m with
  | nil => simp [memInsert]
  | cons p m ih =>
    obtain ⟨j, c⟩ := p
    have h' := List.pairwise_cons.1 h
    unfold memInsert
    split
    · rename_i haj
      refine List.pairwise_cons.2 ⟨fun e he => ?_, h⟩
      rcases List.mem_cons.1 he with rfl | he
      · exact haj
      · exact Nat.lt_trans haj (h'.1 e he)
    · split
      · rename_i _ haj
        subst haj
        exact List.pairwise_cons.2 ⟨h'.1, h'.2⟩
      · rename_i h1 h2
        refine List.pairwise_cons.2 ⟨fun e he => ?_, ih h'.2⟩
        rcases memInsert_keys m a b e he with rfl | he
        · show j < a
          omega
        · exact h'.1 e he

/-- What the canonical form says, clause by clause. -/
theorem memory_wf_iff (c : Config) (m : Memory) :
    Memory.wf c m = true ↔
      (m.Pairwise fun p q => p.1 < q.1) ∧ ∀ p ∈ m, p.1 < memSize c ∧ p.2 ≠ initByte c p.1 := by
  simp [Memory.wf, List.all_eq_true]

theorem memory_wf_nil (c : Config) : Memory.wf c [] = true := rfl

/-- A write below `MEMSIZE` keeps the canonical form. -/
theorem memWrite_wf (c : Config) (m : Memory) (a : Nat) (b : Byte) (ha : a < memSize c) (h : Memory.wf c m = true) :
    Memory.wf c (memWrite c m a b) = true := by
  rw [memory_wf_iff] at h ⊢
  unfold memWrite
  split
  · exact ⟨memErase_sorted m a h.1, fun p hp => h.2 p (memErase_keys m a p hp)⟩
  · rename_i hb
    refine ⟨memInsert_sorted m a b h.1, fun p hp => ?_⟩
    rcases memInsert_keys m a b p hp with rfl | hp
    · exact ⟨ha, hb⟩
    · exact h.2 p hp

/-! ## Reading after writing, on State -/

variable (s : State)

theorem readByte_writeByte (a k : Nat) (b : Byte) : (s.writeByte a b).readByte k = if k = a then b else s.readByte k :=
  memRead_memWrite s.cfg s.mem a k b

/-- A multi-byte store changes `cfg`, and every other field but memory, not at all. -/
theorem writeBytes_fields (bs : List Byte) (a : Nat) : s.writeBytes a bs = { s with mem := (s.writeBytes a bs).mem } := by
  induction bs generalizing s a with
  | nil => rfl
  | cons b bs ih => exact ih (s.writeByte a b) (a + 1)

@[simp] theorem writeBytes_cfg (a : Nat) (bs : List Byte) : (s.writeBytes a bs).cfg = s.cfg := by rw [writeBytes_fields]
@[simp] theorem writeBytes_memSize (a : Nat) (bs : List Byte) : (s.writeBytes a bs).memSize = s.memSize := by
  rw [writeBytes_fields]; rfl

/-- The stored bytes and every other byte, after a multi-byte store. -/
theorem readByte_writeBytes (a k : Nat) (bs : List Byte) :
    (s.writeBytes a bs).readByte k = if a ≤ k ∧ k < a + bs.length then bs.getD (k - a) 0 else s.readByte k := by
  induction bs generalizing s a with
  | nil => simp [State.writeBytes, show ¬(a ≤ k ∧ k < a) by omega]
  | cons b bs ih =>
    rw [State.writeBytes, ih, readByte_writeByte]
    by_cases h1 : a + 1 ≤ k ∧ k < a + 1 + bs.length
    · obtain ⟨j, hj⟩ : ∃ j, k = a + 1 + j := ⟨k - (a + 1), by omega⟩
      subst hj
      rw [if_pos h1, if_pos ⟨by omega, by simp only [List.length_cons]; omega⟩]
      simp [show a + 1 + j - a = j + 1 by omega]
    · rw [if_neg h1]
      by_cases h2 : k = a
      · subst h2
        simp
      · rw [if_neg h2, if_neg (by simp only [List.length_cons]; omega)]

/-- A byte outside the stored range reads as before. -/
theorem readByte_writeBytes_outside (a k : Nat) (bs : List Byte) (h : k < a ∨ a + bs.length ≤ k) :
    (s.writeBytes a bs).readByte k = s.readByte k := by
  rw [readByte_writeBytes, if_neg (by omega)]

/-- A multi-byte store below `MEMSIZE` keeps the canonical form. -/
theorem writeBytes_wf (a : Nat) (bs : List Byte) (ha : a + bs.length ≤ s.memSize) (h : Memory.wf s.cfg s.mem = true) :
    Memory.wf s.cfg (s.writeBytes a bs).mem = true := by
  induction bs generalizing s a with
  | nil => exact h
  | cons b bs ih =>
    simp only [List.length_cons] at ha
    exact ih (s.writeByte a b) (a + 1) (by simp; omega) (memWrite_wf s.cfg s.mem a b (by unfold State.memSize at ha; omega) h)

end Sys2Proof.Machine
end

