-- ==== Sys2Proof/Laws/Ops.lean ====
section
/-! SUPPORT. What each shared operation can do, said once: registers and pc, range checks, skips, results with a flag, block
transfers, the selected voice, the fetch and the step. A proof cites these instead of unfolding the operations. -/

namespace Sys2Proof.Machine

variable (s : State)

/-! ## Registers and memory size -/

theorem reg_setReg (x y : Reg) (b : Byte) : (s.setReg x b).reg y = if y = x then b else s.reg y := by
  simp only [State.reg, State.setReg, Vector.getElem_set, Fin.ext_iff, eq_comm (a := x.val)]

@[simp] theorem reg_setReg_self (x : Reg) (b : Byte) : (s.setReg x b).reg x = b := by rw [reg_setReg, if_pos rfl]

theorem reg_setReg_of_ne (x y : Reg) (b : Byte) (h : y ≠ x) : (s.setReg x b).reg y = s.reg y := by
  rw [reg_setReg, if_neg h]

theorem memSize_cases : s.memSize = 0x1000 ∨ s.memSize = 0x10000 := by
  unfold State.memSize memSize
  split <;> simp

theorem memSize_pos : 0 < s.memSize := by rcases memSize_cases s with h | h <;> omega

theorem memSize_le : s.memSize ≤ 65536 := by rcases memSize_cases s with h | h <;> omega

theorem le_memSize : 4096 ≤ s.memSize := by rcases memSize_cases s with h | h <;> omega

/-- `pc` is stored modulo `MEMSIZE` (10 R23). -/
theorem pc_setPc (t : Nat) : (s.setPc t).pc.toNat = t % s.memSize := by
  have := memSize_le s
  have := Nat.mod_lt t (memSize_pos s)
  simp only [setPc_pc, BitVec.toNat_ofNat]
  omega

theorem pc_setPc_lt (t : Nat) : (s.setPc t).pc.toNat < s.memSize := by
  rw [pc_setPc]
  exact Nat.mod_lt _ (memSize_pos s)

theorem pc_setPc_of_lt (t : Nat) (h : t < s.memSize) : (s.setPc t).pc.toNat = t := by rw [pc_setPc, Nat.mod_eq_of_lt h]

/-- A jump to a 16-bit value below `MEMSIZE` stores it whole. -/
theorem setPc_toNat (a : Word) (h : a.toNat < s.memSize) : s.setPc a.toNat = { s with pc := a } := by
  unfold State.setPc
  rw [Nat.mod_eq_of_lt h, BitVec.ofNat_toNat, BitVec.setWidth_eq]

/-! ## Range checks (20 R64) -/

variable {s} in
theorem withRange_eq {a n : Nat} (h : n = 0 ∨ a + n - 1 < s.memSize) (t : State) : s.withRange a n t = t := by
  unfold State.withRange
  rw [if_pos h]

variable {s} in
theorem withRange_halt {a n : Nat} (hn : n ≠ 0) (h : s.memSize ≤ a + n - 1) (t : State) :
    HaltedOutOfRange s (s.withRange a n t) (a + n - 1) := by
  unfold State.withRange
  rw [if_neg (by omega)]
  rfl

/-- The check passes, or the machine halts with nothing written. -/
theorem withRange_cases (a n : Nat) (t : State) :
    s.withRange a n t = t ∧ (n = 0 ∨ a + n - 1 < s.memSize) ∨
    s.withRange a n t = raiseHalt (.accessOutOfRange (a + n - 1)) s ∧ n ≠ 0 ∧ s.memSize ≤ a + n - 1 := by
  by_cases h : n = 0 ∨ a + n - 1 < s.memSize
  · exact .inl ⟨withRange_eq h t, h⟩
  · refine .inr ⟨?_, by omega, by omega⟩
    unfold State.withRange
    rw [if_neg h]

/-! ## The skip step (40 R100) -/

theorem readWord_toNat (a : Nat) : (s.readWord a).toNat = (s.readByte a).toNat * 256 + (s.readByte (a + 1)).toNat :=
  wordOfBytes_toNat _ _

theorem readWord_eq_long (a : Nat) :
    s.readWord a = longLiteral ↔ (s.readByte a).toNat * 256 + (s.readByte (a + 1)).toNat = 0xF000 := by
  rw [← readWord_toNat]
  exact ⟨fun h => by rw [h]; rfl, fun h => BitVec.eq_of_toNat_eq h⟩

/-- All a skip instruction can do. -/
theorem skipIf_outcome (c : Bool) : SkipOutcome s (skipIf c s) (c = true) := by
  refine ⟨fun h => by simp [skipIf, h], fun h hr => ?_, fun h hr => ?_⟩
  · have e : skipIf c s = s.setPc (s.pc.toNat + (if s.readWord s.pc.toNat = longLiteral then 4 else 2)) := by
      simp only [skipIf, h, if_true, skip]
      exact withRange_eq (.inr (by omega)) _
    rw [e]
    refine ⟨rfl, ?_⟩
    rw [pc_setPc]
    simp only [readWord_eq_long]
  · have e : skipIf c s = skip s := by simp only [skipIf, h, if_true]
    rw [e]
    exact withRange_halt (by decide) (by omega) _

/-- The same, for a condition stated as a proposition. -/
theorem skipIf_outcome_iff {c : Bool} {p : Prop} (h : c = true ↔ p) : SkipOutcome s (skipIf c s) p :=
  propext h ▸ skipIf_outcome s c

/-! ## Results with a flag (41 R122, R124, R135) -/

/-- All a result with a flag can do. -/
theorem setResultFlag_spec (x : Reg) (rf : Byte × Byte) :
    ResultAndFlag s (s.setResultFlag x rf) x rf.1.toNat rf.2.toNat := by
  refine ⟨fun h => ?_, by simp [State.setResultFlag], rfl, fun _ => rfl, fun r hr => ?_⟩
  · rw [State.setResultFlag, reg_setReg_of_ne _ _ _ _ h, reg_setReg_self]
  · simp only [List.mem_cons, List.not_mem_nil, or_false, not_or] at hr
    rw [State.setResultFlag, reg_setReg_of_ne _ _ _ _ hr.2, reg_setReg_of_ne _ _ _ _ hr.1]

/-- All a plain register write can do. -/
theorem setReg_onlyRegs (x : Reg) (b : Byte) : OnlyRegs s (s.setReg x b) [x] :=
  ⟨rfl, fun _ => rfl, fun r hr => reg_setReg_of_ne _ _ _ _ (by simpa using hr)⟩

/-- All a logic operation can do. -/
theorem setLogic_spec (x : Reg) (r : Byte) :
    (s.cfg.qLogic = false → (s.setLogic x r).reg x = r ∧ OnlyRegs s (s.setLogic x r) [x]) ∧
    (s.cfg.qLogic = true → (x ≠ vf → (s.setLogic x r).reg x = r) ∧ (s.setLogic x r).reg vf = 0 ∧
      OnlyRegs s (s.setLogic x r) [x, vf]) := by
  refine ⟨fun h => ?_, fun h => ?_⟩
  · simp only [State.setLogic, h]
    exact ⟨reg_setReg_self _ _ _, setReg_onlyRegs _ _ _⟩
  · have e : s.setLogic x r = s.setResultFlag x (r, 0) := by simp only [State.setLogic, h, if_true]; rfl
    have := setResultFlag_spec s x (r, 0)
    rw [e]
    exact ⟨fun hx => BitVec.eq_of_toNat_eq (this.1 hx), BitVec.eq_of_toNat_eq this.2.1, this.2.2⟩

/-! ## Flags on naturals (41 R127 to R134) -/

theorem addFlag_toNat (a b : Byte) :
    (addFlag a b).1.toNat = (a.toNat + b.toNat) % 256 ∧
    (addFlag a b).2.toNat = if a.toNat + b.toNat > 255 then 1 else 0 := by
  refine ⟨by simp [addFlag], ?_⟩
  simp only [addFlag, flagByte, decide_eq_true_eq]
  split <;> rfl

theorem subFlag_toNat (a b : Byte) :
    (subFlag a b).1.toNat = (a.toNat + 256 - b.toNat) % 256 ∧
    (subFlag a b).2.toNat = if a.toNat ≥ b.toNat then 1 else 0 := by
  refine ⟨by simp [subFlag], ?_⟩
  simp only [subFlag, flagByte, decide_eq_true_eq]
  split <;> rfl

theorem shrFlag_toNat (a : Byte) : (shrFlag a).1.toNat = a.toNat / 2 ∧ (shrFlag a).2.toNat = a.toNat % 2 := by
  revert a
  decide

theorem shlFlag_toNat (a : Byte) : (shlFlag a).1.toNat = a.toNat * 2 % 256 ∧ (shlFlag a).2.toNat = a.toNat / 128 := by
  revert a
  decide

theorem mulFlag_toNat (a b : Byte) :
    (mulFlag a b).1.toNat = a.toNat * b.toNat % 256 ∧ (mulFlag a b).2.toNat = a.toNat * b.toNat / 256 := by
  have : a.toNat * b.toNat ≤ 255 * 255 := Nat.mul_le_mul (by omega) (by omega)
  refine ⟨by simp [mulFlag], ?_⟩
  simp only [mulFlag, BitVec.toNat_ofNat]
  omega

theorem divFlag_toNat (c : Config) (a b : Byte) :
    (b = 0 → divFlag c a b = c.div0) ∧
    (b ≠ 0 → (divFlag c a b).1.toNat = a.toNat / b.toNat ∧ (divFlag c a b).2.toNat = a.toNat % b.toNat) := by
  refine ⟨fun h => by simp [divFlag, h], fun h => ?_⟩
  have h1 : a.toNat / b.toNat ≤ a.toNat := Nat.div_le_self _ _
  have h2 : a.toNat % b.toNat ≤ a.toNat := Nat.mod_le _ _
  simp only [divFlag, if_neg h, BitVec.toNat_ofNat]
  exact ⟨Nat.mod_eq_of_lt (Nat.lt_of_le_of_lt h1 a.isLt), Nat.mod_eq_of_lt (Nat.lt_of_le_of_lt h2 a.isLt)⟩

/-! ## Block and range transfers (42 R156 to R161) -/

theorem length_blockRegs (x : Reg) : (blockRegs x).length = x.val + 1 := by simp [blockRegs]

theorem mem_blockRegs (x r : Reg) : r ∈ blockRegs x ↔ r ≤ x := by revert x r; decide

theorem nodup_blockRegs (x : Reg) : (blockRegs x).Nodup := by revert x; decide

/-- The `k`-th register of the block is `Vk`. -/
theorem blockRegs_getElem (x k : Reg) (h : k ≤ x) : (blockRegs x)[k.val]? = some k := by revert x k; decide

theorem length_rangeRegs (x y : Reg) : (rangeRegs x y).length = Nat.dist x.val y.val + 1 := by
  revert x y; decide

theorem mem_rangeRegs (x y r : Reg) : r ∈ rangeRegs x y ↔ min x y ≤ r ∧ r ≤ max x y := by revert x y r; decide

theorem nodup_rangeRegs (x y : Reg) : (rangeRegs x y).Nodup := by revert x y; decide

/-- Register `r` of the range stands at place `|x - r|` (42 R160). -/
theorem rangeRegs_getElem (x y r : Reg) (h1 : min x y ≤ r) (h2 : r ≤ max x y) :
    (rangeRegs x y)[Nat.dist x.val r.val]? = some r := by revert x y r; decide

/-- The stored byte at a register's place. -/
theorem readByte_store (rs : List Reg) (a k : Nat) (r : Reg) (h : rs[k]? = some r) :
    (s.writeBytes a (rs.map s.reg)).readByte (a + k) = s.reg r := by
  have hk : k < rs.length := (List.getElem?_eq_some_iff.1 h).1
  rw [readByte_writeBytes, if_pos ⟨by omega, by simpa using hk⟩]
  simp [List.getD_eq_getElem?_getD, h]

/-- Loading changes registers only. -/
theorem loadFrom_fields (rs : List Reg) (a : Nat) : s.loadFrom rs a = { s with v := (s.loadFrom rs a).v } := by
  induction rs generalizing s a with
  | nil => rfl
  | cons r rs ih => exact ih (s.setReg r (s.readByte a)) (a + 1)

@[simp] theorem loadFrom_cfg (rs : List Reg) (a : Nat) : (s.loadFrom rs a).cfg = s.cfg := by rw [loadFrom_fields]
@[simp] theorem loadFrom_mem (rs : List Reg) (a : Nat) : (s.loadFrom rs a).mem = s.mem := by rw [loadFrom_fields]
@[simp] theorem loadFrom_i (rs : List Reg) (a : Nat) : (s.loadFrom rs a).i = s.i := by rw [loadFrom_fields]

theorem reg_loadFrom_of_not_mem (rs : List Reg) (a : Nat) (r : Reg) (h : r ∉ rs) : (s.loadFrom rs a).reg r = s.reg r := by
  induction rs generalizing s a with
  | nil => rfl
  | cons q rs ih =>
    simp only [List.mem_cons, not_or] at h
    rw [State.loadFrom, ih _ _ h.2, reg_setReg_of_ne _ _ _ _ h.1]

/-- A register of a list without repeats is loaded from its place. -/
theorem reg_loadFrom (rs : List Reg) (a k : Nat) (r : Reg) (hn : rs.Nodup) (h : rs[k]? = some r) :
    (s.loadFrom rs a).reg r = s.readByte (a + k) := by
  induction rs generalizing s a k with
  | nil => simp at h
  | cons q rs ih =>
    rw [List.nodup_cons] at hn
    cases k with
    | zero =>
      simp only [List.getElem?_cons_zero, Option.some.injEq] at h
      subst h
      rw [State.loadFrom, reg_loadFrom_of_not_mem _ _ _ _ hn.1, reg_setReg_self, Nat.add_zero]
    | succ k =>
      simp only [List.getElem?_cons_succ] at h
      rw [State.loadFrom, ih _ _ _ hn.2 h, setReg_readByte, show a + 1 + k = a + (k + 1) by omega]

variable {s} in
/-- All a store of registers at `I` can do: all of it, or a halt with nothing written. -/
theorem storeAtI_eq {rs : List Reg} (h : s.i.toNat + rs.length - 1 < s.memSize) (next : State → State) :
    s.storeAtI rs next = next (s.writeBytes s.i.toNat (rs.map s.reg)) := withRange_eq (.inr h) _

variable {s} in
@[inherit_doc storeAtI_eq]
theorem storeAtI_halt {rs : List Reg} (hn : rs.length ≠ 0) (h : s.memSize ≤ s.i.toNat + rs.length - 1)
    (next : State → State) : HaltedOutOfRange s (s.storeAtI rs next) (s.i.toNat + rs.length - 1) := withRange_halt hn h _

variable {s} in
/-- All a load of registers from `I` can do: all of it, or a halt with nothing written. -/
theorem loadAtI_eq {rs : List Reg} (h : s.i.toNat + rs.length - 1 < s.memSize) (next : State → State) :
    s.loadAtI rs next = next (s.loadFrom rs s.i.toNat) := withRange_eq (.inr h) _

variable {s} in
@[inherit_doc loadAtI_eq]
theorem loadAtI_halt {rs : List Reg} (hn : rs.length ≠ 0) (h : s.memSize ≤ s.i.toNat + rs.length - 1)
    (next : State → State) : HaltedOutOfRange s (s.loadAtI rs next) (s.i.toNat + rs.length - 1) := withRange_halt hn h _

/-- The advance of `I` changes nothing but `I`. -/
theorem advanceI_fields (n : Nat) : State.advanceI n s = { s with i := (State.advanceI n s).i } := by
  unfold State.advanceI
  split <;> rfl

theorem advanceI_i (n : Nat) :
    (State.advanceI n s).i.toNat = if s.cfg.qLoadStore then s.i.toNat else (s.i.toNat + n) % 65536 := by
  unfold State.advanceI
  split <;> simp

/-! ## The selected voice (45 R221) -/

theorem selected_eq_some (k : Fin 4) : s.selected = some k ↔ k.val = s.sel.toNat := by
  unfold State.selected
  split <;> simp [Fin.ext_iff, eq_comm] <;> omega

theorem selected_eq_none : s.selected = none ↔ 4 ≤ s.sel.toNat := by
  unfold State.selected
  split <;> simp <;> omega

/-- A voice write changes voices only. -/
theorem updateVoice_fields (f : Voice → Voice) : s.updateVoice f = { s with voices := (s.updateVoice f).voices } := by
  unfold State.updateVoice
  split <;> rfl

/-- All a write to the selected voice can do: the voice `SEL` addresses is rewritten, every other stays. -/
theorem voices_updateVoice (f : Voice → Voice) (k : Fin 4) :
    (s.updateVoice f).voices[k] = if k.val = s.sel.toNat then f s.voices[k] else s.voices[k] := by
  unfold State.updateVoice
  split
  · rename_i j hj
    rw [selected_eq_some] at hj
    simp only [setVoices_voices, Fin.getElem_fin, Vector.getElem_set]
    by_cases h : j.val = k.val
    · simp [h, ← hj]
    · simp [h, ← hj, Ne.symm h]
  · rename_i hj
    rw [selected_eq_none] at hj
    rw [if_neg (by omega)]

/-- The null voice discards the write. -/
theorem updateVoice_null (f : Voice → Voice) (h : 4 ≤ s.sel.toNat) : s.updateVoice f = s := by
  unfold State.updateVoice
  rw [(selected_eq_none s).2 h]

/-! ## Flags (44 R210, R211) -/

theorem foldl_saveFlag_fields (rs : List Reg) :
    rs.foldl State.saveFlag s = { s with flags := (rs.foldl State.saveFlag s).flags } := by
  induction rs generalizing s with
  | nil => rfl
  | cons r rs ih => exact ih (s.saveFlag r)

theorem foldl_saveFlag_flags (rs : List Reg) (k : Reg) :
    (rs.foldl State.saveFlag s).flags[k.val] = if k ∈ rs then s.reg k else s.flags[k.val] := by
  induction rs generalizing s with
  | nil => simp
  | cons r rs ih =>
    rw [List.foldl_cons, ih]
    by_cases hk : k = r
    · simp [State.saveFlag, hk]
    · simp [State.saveFlag, hk, Fin.val_inj, Ne.symm hk]

theorem foldl_restoreFlag_fields (rs : List Reg) :
    rs.foldl State.restoreFlag s = { s with v := (rs.foldl State.restoreFlag s).v } := by
  induction rs generalizing s with
  | nil => rfl
  | cons r rs ih => exact ih (s.restoreFlag r)

theorem foldl_restoreFlag_reg (rs : List Reg) (k : Reg) :
    (rs.foldl State.restoreFlag s).reg k = if k ∈ rs then s.flags[k.val] else s.reg k := by
  induction rs generalizing s with
  | nil => simp
  | cons r rs ih =>
    rw [List.foldl_cons, ih]
    by_cases hk : k = r
    · simp [State.restoreFlag, hk]
    · simp [State.restoreFlag, hk, reg_setReg]

/-! ## The fetch and the step -/

/-- A step whose next event is a `Tick` is `tick`. -/
theorem step_of_tickNext {s s' : State} (h : TickNext s s') : step s = tick s' := by
  rcases h with ⟨he, rfl⟩ | ⟨rest, he, rfl⟩
  · simp only [step, he]
  · simp only [step, he]
    rfl

theorem tickNext_fields {s s' : State} (h : TickNext s s') : s' = { s with env := s'.env } := by
  rcases h with ⟨_, rfl⟩ | ⟨rest, _, rfl⟩ <;> rfl

theorem tickNext_run {s s' : State} (h : TickNext s s') : s'.run = s.run := by rw [tickNext_fields h]
theorem tickNext_pc {s s' : State} (h : TickNext s s') : s'.pc = s.pc := by rw [tickNext_fields h]
theorem tickNext_memSize {s s' : State} (h : TickNext s s') : s'.memSize = s.memSize := by rw [tickNext_fields h]; rfl
theorem tickNext_readByte {s s' : State} (h : TickNext s s') (a : Nat) : s'.readByte a = s.readByte a := by
  rw [tickNext_fields h]; rfl
theorem tickNext_readWord {s s' : State} (h : TickNext s s') (a : Nat) : s'.readWord a = s.readWord a := by
  rw [tickNext_fields h]; rfl

/-- A tick that fetches an instruction executes it. -/
theorem tick_of_fetch_some {s t : State} {i : Instr} (hr : s.run = .running) (hf : fetch s = (t, some i)) :
    tick s = exec i t := by simp only [tick, hr, hf]

/-- A tick whose fetch halts ends there. -/
theorem tick_of_fetch_none {s t : State} (hr : s.run = .running) (hf : fetch s = (t, none)) : tick s = .next t := by
  simp only [tick, hr, hf]

/-- A tick in another run state changes nothing. -/
theorem tick_of_not_running {s : State} (hr : s.run ≠ .running) : tick s = .next s := by
  unfold tick
  split
  · rename_i h
    exact absurd h hr
  · rfl
  · rfl

/-- A step whose next event is another one delivers it. -/
theorem step_of_event {s : State} {e : Event} {rest : List Event} (h : s.env.events = e :: rest) :
    step s = deliver e (s.setEnv { s.env with events := rest }) := by simp only [step, h]

/-- All a fetch can do: read a legal word, or the long literal, or halt. -/
theorem fetch_cases :
    (∃ i, s.pc.toNat + 1 < s.memSize ∧ s.readWord s.pc.toNat ≠ longLiteral ∧ decodeWord s.cfg.enc (s.readWord s.pc.toNat) = .ok i ∧
      fetch s = (s.setPc (s.pc.toNat + 2), some i)) ∨
    (∃ e, s.pc.toNat + 1 < s.memSize ∧ s.readWord s.pc.toNat ≠ longLiteral ∧
      decodeWord s.cfg.enc (s.readWord s.pc.toNat) = .error e ∧
      fetch s = (raiseHalt (haltOfIllegal e) (s.setPc (s.pc.toNat + 2)), none)) ∨
    (∃ p, p = (s.pc.toNat + 2) % s.memSize ∧ s.pc.toNat + 1 < s.memSize ∧ s.readWord s.pc.toNat = longLiteral ∧
      p + 1 < s.memSize ∧
      fetch s = ((s.setPc (s.pc.toNat + 2)).setPc (p + 2), some (.ldl (s.readWord p)))) ∨
    (∃ p, p = (s.pc.toNat + 2) % s.memSize ∧ s.pc.toNat + 1 < s.memSize ∧ s.readWord s.pc.toNat = longLiteral ∧
      s.memSize ≤ p + 1 ∧ fetch s = (raiseHalt (.accessOutOfRange (p + 1)) (s.setPc (s.pc.toNat + 2)), none)) ∨
    (s.memSize ≤ s.pc.toNat + 1 ∧ fetch s = (raiseHalt (.accessOutOfRange (s.pc.toNat + 1)) s, none)) := by
  by_cases h : s.pc.toNat + 1 < s.memSize
  · by_cases hl : s.readWord s.pc.toNat = longLiteral
    · by_cases hp : (s.pc.toNat + 2) % s.memSize + 1 < s.memSize
      · exact .inr (.inr (.inl ⟨_, rfl, h, hl, hp, by
          simp only [fetch, fetchLiteral, State.wordInRange, h, hl, hp, decide_true, if_true, pc_setPc, setPc_memSize,
            setPc_readWord]⟩))
      · exact .inr (.inr (.inr (.inl ⟨_, rfl, h, hl, by omega, by
          simp only [fetch, fetchLiteral, fetchHalt, State.wordInRange, h, hl, hp, decide_true, decide_false, if_true,
            pc_setPc, setPc_memSize]
          rfl⟩)))
    · cases hd : decodeWord s.cfg.enc (s.readWord s.pc.toNat) with
      | ok i => exact .inl ⟨i, h, hl, rfl, by simp only [fetch, State.wordInRange, h, hl, hd, decide_true, if_true, if_false]⟩
      | error e =>
        exact .inr (.inl ⟨e, h, hl, rfl, by
          simp only [fetch, State.wordInRange, h, hl, hd, decide_true, if_true, if_false]⟩)
  · exact .inr (.inr (.inr (.inr ⟨by omega, by
      simp only [fetch, fetchHalt, State.wordInRange, h, decide_false]
      rfl⟩)))

end Sys2Proof.Machine
end

