-- ==== Sys2Proof/Laws/Display.lean ====
section
/-! SUPPORT. The laws of the display grid: one cell after each operation, and the draw loop said once, cell by cell. -/

namespace Sys2Proof.Machine

variable (s : State)

/-! ## Cells -/

theorem cell_eq_planeCell (ps : Planes) (p y x : Nat) (h : p < 4) : cell ps p y x = planeCell ps[p] y x := by
  unfold cell planeCell
  by_cases hy : y < 64 <;> simp [h, hy]

/-- Outside the grid there is no cell. -/
theorem cell_outside (ps : Planes) (p y x : Nat) (h : 4 ≤ p ∨ 64 ≤ y ∨ 128 ≤ x) : cell ps p y x = false := by
  unfold cell
  split
  · exact BitVec.getLsbD_of_ge _ _ (by omega)
  · rfl

theorem cell_inside {ps : Planes} {p y x : Nat} (h : cell ps p y x = true) : p < 4 ∧ y < 64 ∧ x < 128 := by
  by_contra hn
  rw [cell_outside ps p y x (by omega)] at h
  exact absurd h (by decide)

theorem planeCell_planeOf (f : Nat → Nat → Bool) (y x : Nat) :
    planeCell (planeOf f) y x = (decide (y < 64 ∧ x < 128) && f y x) := by
  unfold planeCell planeOf
  by_cases hy : y < 64
  · by_cases hx : x < 128
    · simp [hy, hx]
    · simp [hy, hx, BitVec.getLsbD_of_ge _ _ (Nat.le_of_not_lt hx)]
  · simp [hy]

/-- One cell written; every other cell stays. -/
theorem cell_setCell (ps : Planes) (p y x p' y' x' : Nat) (b : Bool) (hp : p < 4) (hy : y < 64) (hx : x < 128) :
    cell (setCell ps p y x b) p' y' x' = if p' = p ∧ y' = y ∧ x' = x then b else cell ps p' y' x' := by
  by_cases hg : p' < 4 ∧ y' < 64
  · unfold setCell
    rw [dif_pos ⟨hp, hy⟩]
    unfold cell
    rw [dif_pos hg, dif_pos hg]
    by_cases h1 : p' = p
    · subst h1
      by_cases h2 : y' = y
      · subst h2
        by_cases h3 : x' = x
        · subst h3
          cases b <;> simp [hx]
        · cases b <;> simp [h3, Ne.symm h3]
          exact BitVec.lt_of_getLsbD
      · simp [h2, Ne.symm h2]
    · simp [h1, Ne.symm h1]
  · rw [cell_outside _ p' y' x' (by omega), if_neg (by omega), cell_outside _ p' y' x' (by omega)]

theorem cell_replicate (p y x : Nat) : cell (Vector.replicate 4 (Vector.replicate 64 0)) p y x = false := by
  unfold cell
  split <;> simp

@[simp] theorem cell_clearAll (p y x : Nat) : cell s.clearAll.planes p y x = false := cell_replicate p y x

theorem width_le : s.width ≤ 128 := by unfold State.width; split; exacts [le_refl _, s.cfg.loresW.2.2]
theorem height_le : s.height ≤ 64 := by unfold State.height; split; exacts [le_refl _, s.cfg.loresH.2.2]
theorem le_width : 16 ≤ s.width := by unfold State.width; split; exacts [by decide, s.cfg.loresW.2.1]
theorem le_height : 16 ≤ s.height := by unfold State.height; split; exacts [by decide, s.cfg.loresH.2.1]

/-! ## Clear, scrolls, invert (43 R170 to R176) -/

/-- Only the planes change. -/
theorem mapSelected_fields (f : (Nat → Nat → Bool) → Nat → Nat → Bool) :
    s.mapSelected f = { s with planes := (s.mapSelected f).planes } := rfl

open Classical in
/-- All an operation on the selected planes can do to a cell. -/
theorem cell_mapSelected (f : (Nat → Nat → Bool) → Nat → Nat → Bool) (p y x : Nat) :
    cell (s.mapSelected f).planes p y x =
      if s.Selects p ∧ y < 64 ∧ x < 128 then f (cell s.planes p) y x else cell s.planes p y x := by
  by_cases hp : p < 4
  · have hc : cell s.planes p = planeCell s.planes[p] := by
      funext a b
      exact cell_eq_planeCell _ _ _ _ hp
    rw [cell_eq_planeCell _ _ _ _ hp, hc]
    simp only [State.mapSelected, setPlanes_planes, Vector.getElem_ofFn, State.Selects]
    by_cases hm : s.planeMask.getLsbD p
    · simp only [hm, if_true, planeCell_planeOf, hp, true_and]
      by_cases hg : y < 64 ∧ x < 128
      · simp [hg]
      · rw [if_neg hg, decide_eq_false hg, Bool.false_and, ← cell_eq_planeCell _ _ _ _ hp,
          cell_outside _ _ _ _ (by omega)]
    · simp [hm]
  · rw [cell_outside _ _ _ _ (by omega), if_neg (fun h => hp h.1.1), cell_outside _ _ _ _ (by omega)]

open Classical in
/-- All an operation on the active region of the selected planes can do to a cell. -/
theorem cell_mapActive (f : (Nat → Nat → Bool) → Nat → Nat → Bool) (p y x : Nat) :
    cell (s.mapActive f).planes p y x =
      if s.Selects p ∧ s.Active y x then f (cell s.planes p) y x else cell s.planes p y x := by
  have hw := width_le s
  have hh := height_le s
  rw [State.mapActive, cell_mapSelected]
  by_cases hs : s.Selects p
  · by_cases ha : s.Active y x
    · have : y < 64 ∧ x < 128 := ⟨by have := ha.1; omega, by have := ha.2; omega⟩
      have ha' : y < s.height ∧ x < s.width := ha
      simp [hs, ha, ha', this]
    · have ha' : ¬(y < s.height ∧ x < s.width) := ha
      simp [hs, ha, ha']
  · simp [hs]

/-! ## The draw loop (43 R188 to R191) -/

/-- All the set bits of one plane's data can do: each cell they meet is composed once, and the collision flag gathers the
cells that were set. -/
theorem foldl_plot (mode : DrawMode) (p : Nat) (hp : p < 4) (ts : List (Nat × Nat)) (hn : ts.Nodup)
    (hg : ∀ t ∈ ts, t.1 < 64 ∧ t.2 < 128) (acc : Planes × Bool) :
    (∀ p' y x, cell (ts.foldl (plot mode p) acc).1 p' y x =
      if p' = p ∧ (y, x) ∈ ts then compose mode (cell acc.1 p y x) true else cell acc.1 p' y x) ∧
    ((ts.foldl (plot mode p) acc).2 = true ↔ acc.2 = true ∨ ∃ t ∈ ts, cell acc.1 p t.1 t.2 = true) := by
  induction ts generalizing acc with
  | nil => simp
  | cons t ts ih =>
    rw [List.nodup_cons] at hn
    have hgt := hg t (List.mem_cons_self)
    obtain ⟨ih1, ih2⟩ := ih hn.2 (fun u hu => hg u (List.mem_cons_of_mem _ hu)) (plot mode p acc t)
    have hc : ∀ p' y x, cell (plot mode p acc t).1 p' y x =
        if p' = p ∧ y = t.1 ∧ x = t.2 then compose mode (cell acc.1 p t.1 t.2) true else cell acc.1 p' y x :=
      fun p' y x => cell_setCell _ _ _ _ _ _ _ _ hp hgt.1 hgt.2
    have hne : ∀ u ∈ ts, ¬(u.1 = t.1 ∧ u.2 = t.2) := fun u hu h => hn.1 (by rwa [← Prod.ext h.1 h.2])
    refine ⟨fun p' y x => ?_, ?_⟩
    · rw [List.foldl_cons, ih1]
      by_cases hp' : p' = p
      · subst hp'
        by_cases ht : (y, x) = t
        · subst ht
          simp [hn.1, hc]
        · have ht' : ¬(y = t.1 ∧ x = t.2) := fun h => ht (Prod.ext h.1 h.2)
          simp [hc, ht, ht']
      · simp [hc, hp']
    · rw [List.foldl_cons, ih2]
      have h2 : (plot mode p acc t).2 = (acc.2 || cell acc.1 p t.1 t.2) := rfl
      rw [h2, Bool.or_eq_true, List.exists_mem_cons_iff, or_assoc]
      refine or_congr_right (or_congr_right ?_)
      exact exists_congr fun u => and_congr_right fun hu => by rw [hc, if_neg (fun h => hne u hu h.2)]

open Classical in
/-- All the draw loop can do, over planes that occur once each. -/
theorem foldl_planes (mode : DrawMode) (hits : Nat → List (Nat × Nat)) (hn : ∀ j, (hits j).Nodup)
    (hg : ∀ j, ∀ t ∈ hits j, t.1 < 64 ∧ t.2 < 128) (l : List (Nat × Nat)) (hl : (l.map Prod.fst).Nodup)
    (hp : ∀ pj ∈ l, pj.1 < 4) (acc : Planes × Bool) :
    let r := l.foldl (fun a pj => (hits pj.2).foldl (plot mode pj.1) a) acc
    (∀ p y x, cell r.1 p y x =
      if ∃ j, (p, j) ∈ l ∧ (y, x) ∈ hits j then compose mode (cell acc.1 p y x) true else cell acc.1 p y x) ∧
    (r.2 = true ↔ acc.2 = true ∨ ∃ pj ∈ l, ∃ t ∈ hits pj.2, cell acc.1 pj.1 t.1 t.2 = true) := by
  induction l generalizing acc with
  | nil => simp
  | cons q l ih =>
    rw [List.map_cons, List.nodup_cons] at hl
    have hq := hp q (List.mem_cons_self)
    obtain ⟨h1, h2⟩ := foldl_plot mode q.1 hq (hits q.2) (hn q.2) (hg q.2) acc
    obtain ⟨ih1, ih2⟩ := ih hl.2 (fun u hu => hp u (List.mem_cons_of_mem _ hu)) ((hits q.2).foldl (plot mode q.1) acc)
    have hne : ∀ u ∈ l, u.1 ≠ q.1 := fun u hu h => hl.1 (h ▸ List.mem_map_of_mem (f := Prod.fst) hu)
    refine ⟨fun p y x => ?_, ?_⟩
    · rw [List.foldl_cons, ih1, h1]
      by_cases hpq : p = q.1
      · subst hpq
        rw [if_neg (fun ⟨j, hj, _⟩ => hne _ hj rfl)]
        refine if_congr ⟨fun h => ⟨q.2, List.mem_cons_self, h.2⟩, fun ⟨j, hj, ht⟩ => ⟨rfl, ?_⟩⟩ rfl rfl
        rcases List.mem_cons.1 hj with h | h
        · rwa [← h]
        · exact absurd rfl (hne (q.1, j) h)
      · have hpq' : ¬(p = q.1 ∧ (y, x) ∈ hits q.2) := fun h => hpq h.1
        simp only [hpq', if_false]
        refine if_congr ⟨fun ⟨j, hj, ht⟩ => ⟨j, List.mem_cons_of_mem _ hj, ht⟩, fun ⟨j, hj, ht⟩ => ⟨j, ?_, ht⟩⟩ rfl rfl
        exact (List.mem_cons.1 hj).resolve_left fun h => hpq (by rw [← h])
    · rw [List.foldl_cons, ih2, h2, List.exists_mem_cons_iff, or_assoc]
      refine or_congr_right (or_congr_right ?_)
      exact exists_congr fun u => and_congr_right fun hu => exists_congr fun t => and_congr_right fun _ => by
        rw [h1, if_neg (fun h => hne u hu h.1)]

/-! ## Which planes, which pixels, which cells -/

theorem mem_selectedPlanes (p : Nat) : p ∈ selectedPlanes s.planeMask ↔ s.Selects p := by
  simp [selectedPlanes, State.Selects]

/-- The planes of a draw with the places of their data: a selected plane and the number of selected planes below it. -/
theorem mem_zipIdx_selectedPlanes (p j : Nat) :
    (p, j) ∈ (selectedPlanes s.planeMask).zipIdx ↔ s.Selects p ∧ j = s.planeRank p := by
  have key : ∀ m : BitVec 4, ∀ p : Fin 4, ∀ j : Fin 4,
      ((p.val, j.val) ∈ (selectedPlanes m).zipIdx ↔
        m.getLsbD p.val = true ∧ j.val = ((List.range p.val).filter fun k => m.getLsbD k).length) := by decide
  have hlen : ∀ m : BitVec 4, (selectedPlanes m).length ≤ 4 := by decide
  constructor
  · intro h
    have hp := (mem_selectedPlanes s p).1 (List.fst_mem_of_mem_zipIdx h)
    have hj : j < 4 := by
      have := List.snd_lt_of_mem_zipIdx h
      have := hlen s.planeMask
      omega
    exact ⟨hp, ((key s.planeMask ⟨p, hp.1⟩ ⟨j, hj⟩).1 h).2⟩
  · rintro ⟨hp, rfl⟩
    have hj : s.planeRank p < 4 := by
      have h : s.planeRank p ≤ (List.range p).length := List.length_filter_le _ _
      rw [List.length_range] at h
      have := hp.1
      omega
    exact (key s.planeMask ⟨p, hp.1⟩ ⟨s.planeRank p, hj⟩).2 ⟨hp.2, rfl⟩

theorem nodup_zipIdx_selectedPlanes (m : BitVec 4) : ((selectedPlanes m).zipIdx.map Prod.fst).Nodup := by
  revert m; decide

theorem spriteShape_eq (n : BitVec 4) : spriteShape n = spriteDims n := rfl

/-- The bytes a draw reads, in the terms of 20 R67. -/
theorem spriteBytes_eq (n : BitVec 4) : s.spriteBytes n = s.drawBytes n := rfl

theorem spriteDims_le (n : BitVec 4) : (spriteDims n).1 ≤ 16 ∧ (spriteDims n).2 ≤ 2 := by revert n; decide

theorem mem_spritePixels (n : BitVec 4) (r c : Nat) :
    (r, c) ∈ spritePixels n ↔ r < (spriteDims n).1 ∧ c < 8 * (spriteDims n).2 := by
  simp [spritePixels, spriteShape_eq]

theorem nodup_spritePixels (n : BitVec 4) : (spritePixels n).Nodup := by
  unfold spritePixels
  rw [List.nodup_flatMap]
  refine ⟨fun r _ => (List.nodup_range).map fun _ _ h => (Prod.ext_iff.1 h).2, ?_⟩
  refine (List.nodup_range).imp fun {a b} hab => ?_
  simp only [Function.onFun, List.disjoint_left, List.mem_map, List.mem_range]
  rintro t ⟨c, _, rfl⟩ ⟨d, _, h⟩
  exact hab (Prod.ext_iff.1 h).1.symm

/-- Where a pixel falls. -/
theorem spriteTarget_eq (tx ty y x : Nat) :
    s.spriteTarget tx ty = some (y, x) ↔
      if s.cfg.qClip then x = tx ∧ y = ty ∧ tx < s.width ∧ ty < s.height else x = tx % s.width ∧ y = ty % s.height := by
  unfold State.spriteTarget
  split
  · split <;> simp <;> omega
  · simp [eq_comm, and_comm]

/-- The cells one plane's data meet. -/
theorem mem_planeHits (n : BitVec 4) (px py a y x : Nat) :
    (y, x) ∈ s.planeHits n px py a ↔
      ∃ r c, (r, c) ∈ spritePixels n ∧ s.spriteBit n a r c = true ∧ s.spriteTarget (px + c) (py + r) = some (y, x) := by
  simp only [State.planeHits, List.mem_filterMap, Prod.exists]
  refine exists_congr fun r => exists_congr fun c => and_congr_right fun _ => ?_
  by_cases h : s.spriteBit n a r c <;> simp [h]

theorem planeHits_active (n : BitVec 4) (px py a : Nat) (t : Nat × Nat) (h : t ∈ s.planeHits n px py a) :
    s.Active t.1 t.2 := by
  obtain ⟨y, x⟩ := t
  obtain ⟨r, c, _, _, h⟩ := (mem_planeHits s n px py a y x).1 h
  rw [spriteTarget_eq] at h
  have := le_width s
  have := le_height s
  split at h
  · exact ⟨by omega, by omega⟩
  · exact ⟨h.2 ▸ Nat.mod_lt _ (by omega), h.1 ▸ Nat.mod_lt _ (by omega)⟩

/-- Within one plane a cell is met at most once (43 R192 e). -/
theorem nodup_planeHits (n : BitVec 4) (px py a : Nat) : (s.planeHits n px py a).Nodup := by
  have hw := le_width s
  have hh := le_height s
  have hd := spriteDims_le n
  unfold State.planeHits
  rw [List.Nodup, List.pairwise_filterMap]
  refine (nodup_spritePixels n).imp_of_mem fun {u v} hu hv huv => ?_
  obtain ⟨r, c⟩ := u
  obtain ⟨r', c'⟩ := v
  rw [mem_spritePixels] at hu hv
  intro t ht t' ht' e
  subst e
  obtain ⟨y, x⟩ := t
  simp only [Option.ite_none_right_eq_some, spriteTarget_eq] at ht ht'
  apply huv
  have key : ∀ w p k k' : Nat, 16 ≤ w → k < 16 → k' < 16 → (p + k) % w = (p + k') % w → k = k' := by
    intro w p k k' hw hk hk' h
    have : k ≡ k' [MOD w] := Nat.ModEq.add_left_cancel' p h
    rwa [Nat.ModEq, Nat.mod_eq_of_lt (by omega), Nat.mod_eq_of_lt (by omega)] at this
  by_cases hq : s.cfg.qClip
  · simp only [hq, if_true] at ht ht'
    exact Prod.ext (by simp; omega) (by simp; omega)
  · simp only [hq, Bool.false_eq_true, if_false] at ht ht'
    exact Prod.ext (key s.height py r r' (by omega) (by omega) (by omega) (by omega))
      (key s.width px c c' (by omega) (by omega) (by omega) (by omega))

/-- A set, not dropped bit of plane `p`'s data falls on a cell, in the terms of 43 R188 to R190. -/
theorem mem_planeHits_iff (x y : Reg) (n : BitVec 4) (p ty tx : Nat) :
    (ty, tx) ∈ s.planeHits n ((s.reg x).toNat % s.width) ((s.reg y).toNat % s.height)
      (s.dataAddr (s.planeRank p * spriteSize n)) ↔ s.SpriteHits x y n p ty tx := by
  rw [mem_planeHits]
  unfold State.SpriteHits
  refine exists_congr fun r => exists_congr fun c => ?_
  rw [mem_spritePixels, spriteTarget_eq, and_assoc]
  have e : s.spriteBit n (s.dataAddr (s.planeRank p * spriteSize n)) r c =
      (s.readByte (s.i.toNat + s.planeRank p * ((spriteDims n).1 * (spriteDims n).2) + r * (spriteDims n).2 +
        c / 8)).getLsbD (7 - c % 8) := rfl
  rw [e]
  refine and_congr_right fun _ => and_congr_right fun _ => and_congr_right fun _ => ?_
  split
  · constructor <;> rintro ⟨h1, h2, h3, h4⟩ <;> exact ⟨by omega, by omega, by omega, by omega⟩
  · rfl

open Classical in
/-- All a draw does to the planes, and its collision flag (43 R191). -/
theorem drawn_spec (x y : Reg) (n : BitVec 4) :
    (∀ p ty tx, cell (s.drawn x y n).1 p ty tx =
      if s.Selects p ∧ s.SpriteHits x y n p ty tx then compose s.drawMode (cell s.planes p ty tx) true
      else cell s.planes p ty tx) ∧
    ((s.drawn x y n).2 = true ↔
      ∃ p ty tx, s.Selects p ∧ s.SpriteHits x y n p ty tx ∧ cell s.planes p ty tx = true) := by
  have h := foldl_planes s.drawMode
    (fun j => s.planeHits n ((s.reg x).toNat % s.width) ((s.reg y).toNat % s.height) (s.dataAddr (j * spriteSize n)))
    (fun j => nodup_planeHits s n _ _ _)
    (fun j t ht => by
      have h := planeHits_active s n _ _ _ t ht
      have := width_le s
      have := height_le s
      exact ⟨by have := h.1; omega, by have := h.2; omega⟩)
    (selectedPlanes s.planeMask).zipIdx (nodup_zipIdx_selectedPlanes _)
    (fun pj h => ((mem_zipIdx_selectedPlanes s pj.1 pj.2).1 h).1.1) (s.planes, false)
  refine ⟨fun p ty tx => (h.1 p ty tx).trans (if_congr ?_ rfl rfl), h.2.trans ?_⟩
  · constructor
    · rintro ⟨j, hj, ht⟩
      obtain ⟨hs, rfl⟩ := (mem_zipIdx_selectedPlanes s p j).1 hj
      exact ⟨hs, (mem_planeHits_iff s x y n p ty tx).1 ht⟩
    · rintro ⟨hs, ht⟩
      exact ⟨_, (mem_zipIdx_selectedPlanes s p _).2 ⟨hs, rfl⟩, (mem_planeHits_iff s x y n p ty tx).2 ht⟩
  · simp only [Bool.false_eq_true, false_or]
    constructor
    · rintro ⟨⟨p, j⟩, hj, ⟨ty, tx⟩, ht, hc⟩
      obtain ⟨hs, rfl⟩ := (mem_zipIdx_selectedPlanes s p j).1 hj
      exact ⟨p, ty, tx, hs, (mem_planeHits_iff s x y n p ty tx).1 ht, hc⟩
    · rintro ⟨p, ty, tx, hs, ht, hc⟩
      exact ⟨(p, _), (mem_zipIdx_selectedPlanes s p _).2 ⟨hs, rfl⟩, (ty, tx),
        (mem_planeHits_iff s x y n p ty tx).2 ht, hc⟩

end Sys2Proof.Machine
end

