-- ==== Sys2Proof/Laws/Synth.lean ====
section
/-! SUPPORT. The laws of the audio side: unpacking, read positions, rendering, mixing, the output queue. -/

namespace Sys2Proof.Machine

/-! ## Unpacking (45 R223) -/

theorem length_unpackByte (bits : Nat) (b : Byte) : (unpackByte bits b).length = 8 / bits := by simp [unpackByte]

theorem length_unpack (pat : List Byte) (bits : Nat) : (unpack pat bits).length = pat.length * (8 / bits) := by
  induction pat with
  | nil => simp [unpack]
  | cons b pat ih =>
    have : unpack (b :: pat) bits = unpackByte bits b ++ unpack pat bits := rfl
    rw [this, List.length_append, ih, length_unpackByte, List.length_cons]
    ring

/-- Sample `k * per + j` is the `j`-th cell of byte `k`. -/
theorem unpack_getD (bits : Nat) (pat : List Byte) (k j : Nat) (hk : k < pat.length) (hj : j < 8 / bits) :
    (unpack pat bits).getD (k * (8 / bits) + j) 0 = (unpackByte bits (pat.getD k 0)).getD j 0 := by
  induction pat generalizing k with
  | nil => simp at hk
  | cons b pat ih =>
    have e : unpack (b :: pat) bits = unpackByte bits b ++ unpack pat bits := rfl
    rw [e]
    cases k with
    | zero => rw [Nat.zero_mul, Nat.zero_add, List.getD_append _ _ _ _ (by rwa [length_unpackByte])]; rfl
    | succ k =>
      have h : (k + 1) * (8 / bits) + j = 8 / bits + (k * (8 / bits) + j) := by ring
      rw [h, List.getD_append_right _ _ _ _ (by rw [length_unpackByte]; omega), length_unpackByte, Nat.add_sub_cancel_left,
        ih k (by simpa using hk)]
      rfl

/-- One cell, multiplied through its byte: for `bits` of 1, 2, 4 or 8 the product is a byte. -/
theorem unpackByte_getD (m : Nat) (hm : m ≤ 3) (b : Byte) (j : Nat) (hj : j < 8 / 2 ^ m) :
    ((unpackByte (2 ^ m) b).getD j 0).toNat =
      (b.toNat / 2 ^ (8 - 2 ^ m * (j + 1)) % 2 ^ 2 ^ m) * (255 / (2 ^ 2 ^ m - 1)) := by
  have h : (unpackByte (2 ^ m) b).getD j 0 =
      BitVec.ofNat 8 (b.toNat / 2 ^ (8 - 2 ^ m * (j + 1)) % 2 ^ 2 ^ m * replicator (2 ^ m)) := by
    simp [unpackByte, List.getD_eq_getElem?_getD, hj]
  rw [h, BitVec.toNat_ofNat, replicator]
  apply Nat.mod_eq_of_lt
  have hlt : ∀ c : Nat, c % 2 ^ 2 ^ m < 2 ^ 2 ^ m := fun c => Nat.mod_lt _ (by positivity)
  have := hlt (b.toNat / 2 ^ (8 - 2 ^ m * (j + 1)))
  interval_cases m <;> norm_num at this ⊢ <;> omega

/-! ## Read positions -/

theorem phaseOk_zero : phaseOk Dsp.zero.pos := fun j _ => by simp [Dsp.zero]

theorem phaseOk_freq (p : Byte) : phaseOk (freqPhase p) := fun j _ => by
  simp only [freqPhase, Vector.getElem_set, Vector.getElem_replicate]
  split <;> omega

theorem phaseOk_step (c : Config) (p : Byte) : phaseOk (phaseStep c p) := fun j hj => by
  simp only [phaseStep, phaseScale, Vector.getElem_map]
  exact mul_nonneg (Int.natCast_nonneg _) (phaseOk_freq p j hj)

theorem phaseOk_add {a b : Phase} (ha : phaseOk a) (hb : phaseOk b) : phaseOk (phaseAdd a b) := fun j hj => by
  simp only [phaseAdd, Vector.getElem_zipWith]
  exact add_nonneg (ha j hj) (hb j hj)

theorem phaseOk_mod {u : Phase} (h : phaseOk u) (m : Nat) : phaseOk (phaseMod u m) := fun j hj => by
  have : (0 : Nat) ≠ j.val := fun e => hj (Fin.ext e.symm)
  simp only [phaseMod, Vector.getElem_set, if_neg this]
  exact h j hj

theorem phaseOk_superStep (c : Config) (q : Voice) (d : Dsp) (h : phaseOk d.pos) : phaseOk (superStep c q d).pos :=
  phaseOk_mod (phaseOk_add h (phaseOk_step _ _)) _

/-! ## Rendering (45 R232, R237, R238) -/

/-- `SS` supersamples. -/
theorem phaseOk_iterate (c : Config) (q : Voice) (k : Nat) (d : Dsp) (h : phaseOk d.pos) :
    phaseOk ((superStep c q)^[k] d).pos := by
  induction k generalizing d with
  | zero => exact h
  | succ k ih => exact ih _ (phaseOk_superStep c q d h)

theorem length_renderChannel (c : Config) (q : Voice) (g : Byte) (n : Nat) (d : Dsp) :
    (renderChannel c q g n d).1.length = n := by
  induction n generalizing d with
  | zero => rfl
  | succ n ih => simp only [renderChannel, List.length_cons, ih]

theorem phaseOk_renderChannel (c : Config) (q : Voice) (g : Byte) (n : Nat) (d : Dsp) (h : phaseOk d.pos) :
    phaseOk (renderChannel c q g n d).2.pos := by
  induction n generalizing d with
  | zero => exact h
  | succ n ih => exact ih _ (phaseOk_iterate c q _ d h)

/-- The state after `n` samples. -/
theorem renderChannel_dsp (c : Config) (q : Voice) (g : Byte) (n : Nat) (d : Dsp) :
    (renderChannel c q g n d).2 = (superStep c q)^[supersample c * n] d := by
  induction n generalizing d with
  | zero => rfl
  | succ n ih => rw [Nat.mul_succ, Function.iterate_add_apply, renderChannel]; exact ih _

/-- Sample `i` is the part of the filter value after `SS * (i + 1)` supersamples. -/
theorem renderChannel_getD (c : Config) (q : Voice) (g : Byte) (n i : Nat) (hi : i < n) (d : Dsp) :
    (renderChannel c q g n d).1.getD i Sample.silence = [⟨g, ((superStep c q)^[supersample c * (i + 1)] d).fed⟩] := by
  induction n generalizing i d with
  | zero => omega
  | succ n ih =>
    cases i with
    | zero => rw [Nat.zero_add, Nat.mul_one]; rfl
    | succ i =>
      rw [Nat.mul_succ, Function.iterate_add_apply]
      exact ih i (Nat.lt_of_succ_lt_succ hi) _

/-- Rendering `a` samples and then `b` is rendering `a + b` at once. -/
theorem renderChannel_add (c : Config) (q : Voice) (g : Byte) (a b : Nat) (d : Dsp) :
    renderChannel c q g (a + b) d =
      ((renderChannel c q g a d).1 ++ (renderChannel c q g b (renderChannel c q g a d).2).1,
        (renderChannel c q g b (renderChannel c q g a d).2).2) := by
  induction a generalizing d with
  | zero => simp [renderChannel]
  | succ a ih =>
    rw [show a + 1 + b = (a + b) + 1 by omega]
    simp only [renderChannel, ih, List.cons_append]

/-- A channel's samples depend on the waveform and the pitch of the voice only. -/
theorem renderChannel_congr (c : Config) {q r : Voice} (hb : q.buf = r.buf) (hp : q.pitch = r.pitch) (g : Byte) (n : Nat)
    (d : Dsp) : renderChannel c q g n d = renderChannel c r g n d := by
  have h : superStep c q = superStep c r := by
    funext d
    simp only [superStep, hb, hp]
  induction n generalizing d with
  | zero => rfl
  | succ n ih => simp only [renderChannel, h, ih]

/-- A voice after rendering: only its filter state may differ, and an expired voice does not change. -/
theorem renderVoice_voice (c : Config) (d : Nat) (q : Voice) :
    (renderVoice c d q).2 = { q with dspL := (renderVoice c d q).2.dspL, dspR := (renderVoice c d q).2.dspR } := by
  unfold renderVoice
  split <;> rfl

theorem renderVoice_expired (c : Config) (d : Nat) (q : Voice) (h : q.count = 0) :
    renderVoice c d q = ((List.replicate d Sample.silence, List.replicate d Sample.silence), q) := by
  unfold renderVoice
  rw [if_pos h]

theorem length_renderVoice (c : Config) (d : Nat) (q : Voice) :
    (renderVoice c d q).1.1.length = d ∧ (renderVoice c d q).1.2.length = d := by
  unfold renderVoice
  split <;> simp [length_renderChannel]

theorem renderVoice_ok (c : Config) (d : Nat) (q : Voice) (h : q.Ok c) : (renderVoice c d q).2.Ok c := by
  unfold renderVoice
  split
  · exact h
  · exact ⟨h.1, phaseOk_renderChannel _ _ _ _ _ h.2.1, phaseOk_renderChannel _ _ _ _ _ h.2.2⟩

theorem length_mix (d : Nat) (bs : List (List Sample)) (h : ∀ b ∈ bs, b.length = d) : (mix d bs).length = d := by
  have key : ∀ (bs : List (List Sample)) (acc : List Sample), acc.length = d → (∀ b ∈ bs, b.length = d) →
      (bs.foldl (List.zipWith (· ++ ·)) acc).length = d := by
    intro bs
    induction bs with
    | nil => exact fun acc ha _ => ha
    | cons b bs ih =>
      intro acc ha hb
      exact ih _ (by simp [ha, hb b List.mem_cons_self]) (fun x hx => hb x (List.mem_cons_of_mem _ hx))
  exact key bs _ List.length_replicate h

/-- Sample `i` of a mix is the sum of the blocks' samples `i`. -/
theorem mix_getD (d i : Nat) (hi : i < d) (bs : List (List Sample)) (h : ∀ b ∈ bs, b.length = d) :
    (mix d bs).getD i Sample.silence = bs.flatMap (·.getD i Sample.silence) := by
  have key : ∀ (bs : List (List Sample)) (acc : List Sample), acc.length = d → (∀ b ∈ bs, b.length = d) →
      (bs.foldl (List.zipWith (· ++ ·)) acc).getD i Sample.silence =
        acc.getD i Sample.silence ++ bs.flatMap (·.getD i Sample.silence) := by
    intro bs
    induction bs with
    | nil => exact fun acc _ _ => (List.append_nil _).symm
    | cons b bs ih =>
      intro acc ha hb
      have hl := hb b List.mem_cons_self
      rw [List.foldl_cons, ih _ (by simp [ha, hl]) (fun x hx => hb x (List.mem_cons_of_mem _ hx)), List.flatMap_cons,
        ← List.append_assoc]
      congr 1
      simp [List.getD_eq_getElem?_getD, ha, hl, hi]
  rw [mix, key bs _ List.length_replicate h]
  simp [List.getD_eq_getElem?_getD, hi]

/-- Silence mixed with silence. -/
theorem mix_silence (d : Nat) (bs : List (List Sample)) (h : ∀ b ∈ bs, b = List.replicate d Sample.silence) :
    mix d bs = List.replicate d Sample.silence := by
  unfold mix
  induction bs with
  | nil => rfl
  | cons b bs ih =>
    rw [List.foldl_cons, h b List.mem_cons_self]
    have : List.zipWith (· ++ ·) (List.replicate d Sample.silence) (List.replicate d Sample.silence) =
        List.replicate d Sample.silence := by simp
    rw [this]
    exact ih fun x hx => h x (List.mem_cons_of_mem _ hx)

/-! ## The output queue (45 R250 to R252) -/

theorem trim_cons_cons (target : Nat) (h h' : Chunk) (t : List Chunk) :
    trim target (h :: h' :: t) =
      if buffered (h :: h' :: t) > target then trim target (h' :: t) else h :: h' :: t := rfl

/-- All trimming can do: whole chunks are dropped from the head, each while the target is exceeded, never the newest, until
the target is met. -/
theorem trim_spec (target : Nat) (q : List Chunk) (c : Chunk) :
    ∃ dropped, q ++ [c] = dropped ++ trim target (q ++ [c]) ∧ (trim target (q ++ [c])).getLast? = some c ∧
      ((trim target (q ++ [c])).length = 1 ∨ buffered (trim target (q ++ [c])) ≤ target) ∧
      ∀ before h behind, q ++ [c] = before ++ h :: behind → before.length < dropped.length → target < buffered (h :: behind) := by
  induction q with
  | nil => exact ⟨[], rfl, rfl, .inl rfl, fun _ _ _ _ hlt => absurd hlt (Nat.not_lt_zero _)⟩
  | cons h t ih =>
    obtain ⟨k, u, hk⟩ : ∃ k u, t ++ [c] = k :: u := by cases t <;> simp
    rw [List.cons_append, hk, trim_cons_cons, ← hk]
    split
    · rename_i hb
      obtain ⟨dr, h1, h2, h3, h4⟩ := ih
      refine ⟨h :: dr, by rw [List.cons_append, ← h1], h2, h3, fun before x behind he hlt => ?_⟩
      cases before with
      | nil =>
        rw [List.nil_append] at he
        rw [← he]
        exact hb
      | cons y before => exact h4 before x behind (List.cons.inj he).2 (Nat.lt_of_succ_lt_succ hlt)
    · rename_i hb
      refine ⟨[], rfl, ?_, .inr (Nat.le_of_not_lt hb), fun _ _ _ _ hlt => absurd hlt (Nat.not_lt_zero _)⟩
      rw [← List.cons_append, List.getLast?_concat]

/-- What a chunk still holds for the left channel, and for the right. -/
def Chunk.waitL (c : Chunk) : List Sample := c.l.drop c.rd
@[inherit_doc Chunk.waitL] def Chunk.waitR (c : Chunk) : List Sample := c.r.drop c.rd

theorem length_wait {c : Chunk} (h : c.Ok) : c.waitL.length = c.remaining ∧ c.waitR.length = c.remaining := by
  simp only [Chunk.waitL, Chunk.waitR, List.length_drop, h.1, h.2]
  omega

theorem pullFrom_nil (n : Nat) : pullFrom n [] = ((List.replicate n Sample.silence, List.replicate n Sample.silence), []) := by
  cases n <;> simp [pullFrom]

theorem pullFrom_zero (q : List Chunk) : pullFrom 0 q = (([], []), q) := by
  cases q <;> simp [pullFrom]

theorem pullFrom_cons (n : Nat) (hn : n ≠ 0) (h : Chunk) (t : List Chunk) :
    pullFrom n (h :: t) =
      if h.remaining ≤ n then
        ((h.waitL.take (min n h.remaining) ++ (pullFrom (n - min n h.remaining) t).1.1,
          h.waitR.take (min n h.remaining) ++ (pullFrom (n - min n h.remaining) t).1.2),
          (pullFrom (n - min n h.remaining) t).2)
      else ((h.waitL.take (min n h.remaining), h.waitR.take (min n h.remaining)),
        { h with rd := h.rd + min n h.remaining, remaining := h.remaining - min n h.remaining } :: t) := by
  obtain ⟨m, rfl⟩ := Nat.exists_eq_succ_of_ne_zero hn
  rw [pullFrom]
  · split <;> rfl
  · exact hn

/-- All a pull can do, for each channel: the waiting samples in order, then zeros; the rest stay. -/
theorem pullFrom_spec (n : Nat) (q : List Chunk) (hq : ∀ c ∈ q, c.Ok) :
    (pullFrom n q).1.1 = (q.flatMap Chunk.waitL ++ List.replicate n Sample.silence).take n ∧
    (pullFrom n q).1.2 = (q.flatMap Chunk.waitR ++ List.replicate n Sample.silence).take n ∧
    (pullFrom n q).2.flatMap Chunk.waitL = (q.flatMap Chunk.waitL).drop n ∧
    (pullFrom n q).2.flatMap Chunk.waitR = (q.flatMap Chunk.waitR).drop n ∧
    ∀ c ∈ (pullFrom n q).2, c.Ok := by
  induction q generalizing n with
  | nil => simp [pullFrom_nil]
  | cons h t ih =>
    by_cases hn : n = 0
    · subst hn
      simpa [pullFrom_zero] using hq
    · have hh := hq h List.mem_cons_self
      obtain ⟨hl, hr⟩ := length_wait hh
      have ht := fun m => ih m fun c hc => hq c (List.mem_cons_of_mem _ hc)
      rw [pullFrom_cons n hn]
      by_cases hle : h.remaining ≤ n
      · have hm : min n h.remaining = h.remaining := Nat.min_eq_right hle
        obtain ⟨i1, i2, i3, i4, i5⟩ := ht (n - h.remaining)
        have key : ∀ (w v : List Sample), w.length = h.remaining →
            w.take h.remaining ++ (v ++ List.replicate (n - h.remaining) Sample.silence).take (n - h.remaining) =
              (w ++ v ++ List.replicate n Sample.silence).take n := by
          intro w v hw
          have h1 : w.take n = w := List.take_of_length_le (by omega)
          have h2 : w.take h.remaining = w := List.take_of_length_le (by omega)
          have h3 : min (n - h.remaining - v.length) (n - h.remaining) = min (n - h.remaining - v.length) n := by omega
          simp only [List.append_assoc, List.take_append, h1, h2, h3, hw, List.take_replicate]
        have key2 : ∀ (w v : List Sample), w.length = h.remaining → v.drop (n - h.remaining) = (w ++ v).drop n := by
          intro w v hw
          rw [List.drop_append, List.drop_of_length_le (l := w) (by omega), List.nil_append, hw]
        rw [if_pos hle, hm]
        exact ⟨by rw [i1]; exact key _ _ hl, by rw [i2]; exact key _ _ hr, i3.trans (key2 _ _ hl), i4.trans (key2 _ _ hr), i5⟩
      · have hm : min n h.remaining = n := Nat.min_eq_left (by omega)
        have key : ∀ (w v : List Sample), w.length = h.remaining → w.take n = (w ++ v ++ List.replicate n Sample.silence).take n := by
          intro w v hw
          rw [List.append_assoc, List.take_append_of_le_length (by omega)]
        have key2 : ∀ (w v : List Sample), w.length = h.remaining → w.drop n ++ v = (w ++ v).drop n := by
          intro w v hw
          rw [List.drop_append_of_le_length (by omega)]
        rw [if_neg hle, hm]
        refine ⟨key _ _ hl, key _ _ hr, ?_, ?_, ?_⟩
        · rw [List.flatMap_cons, List.flatMap_cons, ← key2 _ _ hl]
          simp [Chunk.waitL, List.drop_drop]
        · rw [List.flatMap_cons, List.flatMap_cons, ← key2 _ _ hr]
          simp [Chunk.waitR, List.drop_drop]
        · intro c hc
          rcases List.mem_cons.1 hc with rfl | hc
          · exact ⟨by show h.l.length = h.rd + n + (h.remaining - n); have := hh.1; omega,
              by show h.r.length = h.rd + n + (h.remaining - n); have := hh.2; omega⟩
          · exact hq c (List.mem_cons_of_mem _ hc)

end Sys2Proof.Machine
end

