-- ==== Sys2Proof/Laws/Fields.lean ====
section
/-! SUPPORT. One lemma per compound operation and field it leaves alone, so that a frame is proved by simp. -/

namespace Sys2Proof.Machine

variable (s : State)

/-- A skip writes at most `pc`, or `RUN` in a halt. -/
theorem skipIf_fields (c : Bool) : skipIf c s = { s with pc := (skipIf c s).pc, run := (skipIf c s).run } := by
  unfold skipIf skip State.withRange
  split
  · split <;> rfl
  · rfl

theorem setResultFlag_fields (x : Reg) (rf : Byte × Byte) :
    s.setResultFlag x rf = { s with v := (s.setResultFlag x rf).v } := rfl

theorem setLogic_fields (x : Reg) (r : Byte) : s.setLogic x r = { s with v := (s.setLogic x r).v } := by
  unfold State.setLogic
  split <;> rfl

/-- Memory reads depend on the listed cells and on the configuration. -/
theorem sameMemory_of {s t : State} (hm : t.mem = s.mem) (hc : t.cfg = s.cfg) : SameMemory s t := fun a => by
  simp only [State.readByte, hm, hc]

theorem memSize_of {s t : State} (hc : t.cfg = s.cfg) : t.memSize = s.memSize := by simp only [State.memSize, hc]

/-! ### skipIf -/

@[simp] theorem skipIf_v (c : Bool) : (skipIf c s).v = s.v := by rw [skipIf_fields]
@[simp] theorem skipIf_i (c : Bool) : (skipIf c s).i = s.i := by rw [skipIf_fields]
@[simp] theorem skipIf_stack (c : Bool) : (skipIf c s).stack = s.stack := by rw [skipIf_fields]
@[simp] theorem skipIf_mem (c : Bool) : (skipIf c s).mem = s.mem := by rw [skipIf_fields]
@[simp] theorem skipIf_dt (c : Bool) : (skipIf c s).dt = s.dt := by rw [skipIf_fields]
@[simp] theorem skipIf_st (c : Bool) : (skipIf c s).st = s.st := by rw [skipIf_fields]
@[simp] theorem skipIf_hires (c : Bool) : (skipIf c s).hires = s.hires := by rw [skipIf_fields]
@[simp] theorem skipIf_planeMask (c : Bool) : (skipIf c s).planeMask = s.planeMask := by rw [skipIf_fields]
@[simp] theorem skipIf_drawMode (c : Bool) : (skipIf c s).drawMode = s.drawMode := by rw [skipIf_fields]
@[simp] theorem skipIf_planes (c : Bool) : (skipIf c s).planes = s.planes := by rw [skipIf_fields]
@[simp] theorem skipIf_pal (c : Bool) : (skipIf c s).pal = s.pal := by rw [skipIf_fields]
@[simp] theorem skipIf_flags (c : Bool) : (skipIf c s).flags = s.flags := by rw [skipIf_fields]
@[simp] theorem skipIf_sel (c : Bool) : (skipIf c s).sel = s.sel := by rw [skipIf_fields]
@[simp] theorem skipIf_voices (c : Bool) : (skipIf c s).voices = s.voices := by rw [skipIf_fields]
@[simp] theorem skipIf_queue (c : Bool) : (skipIf c s).queue = s.queue := by rw [skipIf_fields]
@[simp] theorem skipIf_cfg (c : Bool) : (skipIf c s).cfg = s.cfg := by rw [skipIf_fields]
@[simp] theorem skipIf_env (c : Bool) : (skipIf c s).env = s.env := by rw [skipIf_fields]

/-! ### setResultFlag -/

@[simp] theorem setResultFlag_i (x : Reg) (rf : Byte × Byte) : (s.setResultFlag x rf).i = s.i := by rw [setResultFlag_fields]
@[simp] theorem setResultFlag_pc (x : Reg) (rf : Byte × Byte) : (s.setResultFlag x rf).pc = s.pc := by rw [setResultFlag_fields]
@[simp] theorem setResultFlag_stack (x : Reg) (rf : Byte × Byte) : (s.setResultFlag x rf).stack = s.stack := by rw [setResultFlag_fields]
@[simp] theorem setResultFlag_mem (x : Reg) (rf : Byte × Byte) : (s.setResultFlag x rf).mem = s.mem := by rw [setResultFlag_fields]
@[simp] theorem setResultFlag_dt (x : Reg) (rf : Byte × Byte) : (s.setResultFlag x rf).dt = s.dt := by rw [setResultFlag_fields]
@[simp] theorem setResultFlag_st (x : Reg) (rf : Byte × Byte) : (s.setResultFlag x rf).st = s.st := by rw [setResultFlag_fields]
@[simp] theorem setResultFlag_run (x : Reg) (rf : Byte × Byte) : (s.setResultFlag x rf).run = s.run := by rw [setResultFlag_fields]
@[simp] theorem setResultFlag_hires (x : Reg) (rf : Byte × Byte) : (s.setResultFlag x rf).hires = s.hires := by rw [setResultFlag_fields]
@[simp] theorem setResultFlag_planeMask (x : Reg) (rf : Byte × Byte) : (s.setResultFlag x rf).planeMask = s.planeMask := by rw [setResultFlag_fields]
@[simp] theorem setResultFlag_drawMode (x : Reg) (rf : Byte × Byte) : (s.setResultFlag x rf).drawMode = s.drawMode := by rw [setResultFlag_fields]
@[simp] theorem setResultFlag_planes (x : Reg) (rf : Byte × Byte) : (s.setResultFlag x rf).planes = s.planes := by rw [setResultFlag_fields]
@[simp] theorem setResultFlag_pal (x : Reg) (rf : Byte × Byte) : (s.setResultFlag x rf).pal = s.pal := by rw [setResultFlag_fields]
@[simp] theorem setResultFlag_flags (x : Reg) (rf : Byte × Byte) : (s.setResultFlag x rf).flags = s.flags := by rw [setResultFlag_fields]
@[simp] theorem setResultFlag_sel (x : Reg) (rf : Byte × Byte) : (s.setResultFlag x rf).sel = s.sel := by rw [setResultFlag_fields]
@[simp] theorem setResultFlag_voices (x : Reg) (rf : Byte × Byte) : (s.setResultFlag x rf).voices = s.voices := by rw [setResultFlag_fields]
@[simp] theorem setResultFlag_queue (x : Reg) (rf : Byte × Byte) : (s.setResultFlag x rf).queue = s.queue := by rw [setResultFlag_fields]
@[simp] theorem setResultFlag_cfg (x : Reg) (rf : Byte × Byte) : (s.setResultFlag x rf).cfg = s.cfg := by rw [setResultFlag_fields]
@[simp] theorem setResultFlag_env (x : Reg) (rf : Byte × Byte) : (s.setResultFlag x rf).env = s.env := by rw [setResultFlag_fields]

/-! ### setLogic -/

@[simp] theorem setLogic_i (x : Reg) (r : Byte) : (s.setLogic x r).i = s.i := by rw [setLogic_fields]
@[simp] theorem setLogic_pc (x : Reg) (r : Byte) : (s.setLogic x r).pc = s.pc := by rw [setLogic_fields]
@[simp] theorem setLogic_stack (x : Reg) (r : Byte) : (s.setLogic x r).stack = s.stack := by rw [setLogic_fields]
@[simp] theorem setLogic_mem (x : Reg) (r : Byte) : (s.setLogic x r).mem = s.mem := by rw [setLogic_fields]
@[simp] theorem setLogic_dt (x : Reg) (r : Byte) : (s.setLogic x r).dt = s.dt := by rw [setLogic_fields]
@[simp] theorem setLogic_st (x : Reg) (r : Byte) : (s.setLogic x r).st = s.st := by rw [setLogic_fields]
@[simp] theorem setLogic_run (x : Reg) (r : Byte) : (s.setLogic x r).run = s.run := by rw [setLogic_fields]
@[simp] theorem setLogic_hires (x : Reg) (r : Byte) : (s.setLogic x r).hires = s.hires := by rw [setLogic_fields]
@[simp] theorem setLogic_planeMask (x : Reg) (r : Byte) : (s.setLogic x r).planeMask = s.planeMask := by rw [setLogic_fields]
@[simp] theorem setLogic_drawMode (x : Reg) (r : Byte) : (s.setLogic x r).drawMode = s.drawMode := by rw [setLogic_fields]
@[simp] theorem setLogic_planes (x : Reg) (r : Byte) : (s.setLogic x r).planes = s.planes := by rw [setLogic_fields]
@[simp] theorem setLogic_pal (x : Reg) (r : Byte) : (s.setLogic x r).pal = s.pal := by rw [setLogic_fields]
@[simp] theorem setLogic_flags (x : Reg) (r : Byte) : (s.setLogic x r).flags = s.flags := by rw [setLogic_fields]
@[simp] theorem setLogic_sel (x : Reg) (r : Byte) : (s.setLogic x r).sel = s.sel := by rw [setLogic_fields]
@[simp] theorem setLogic_voices (x : Reg) (r : Byte) : (s.setLogic x r).voices = s.voices := by rw [setLogic_fields]
@[simp] theorem setLogic_queue (x : Reg) (r : Byte) : (s.setLogic x r).queue = s.queue := by rw [setLogic_fields]
@[simp] theorem setLogic_cfg (x : Reg) (r : Byte) : (s.setLogic x r).cfg = s.cfg := by rw [setLogic_fields]
@[simp] theorem setLogic_env (x : Reg) (r : Byte) : (s.setLogic x r).env = s.env := by rw [setLogic_fields]

/-! ### writeBytes -/

@[simp] theorem writeBytes_v (a : Nat) (bs : List Byte) : (s.writeBytes a bs).v = s.v := by rw [writeBytes_fields]
@[simp] theorem writeBytes_i (a : Nat) (bs : List Byte) : (s.writeBytes a bs).i = s.i := by rw [writeBytes_fields]
@[simp] theorem writeBytes_pc (a : Nat) (bs : List Byte) : (s.writeBytes a bs).pc = s.pc := by rw [writeBytes_fields]
@[simp] theorem writeBytes_stack (a : Nat) (bs : List Byte) : (s.writeBytes a bs).stack = s.stack := by rw [writeBytes_fields]
@[simp] theorem writeBytes_dt (a : Nat) (bs : List Byte) : (s.writeBytes a bs).dt = s.dt := by rw [writeBytes_fields]
@[simp] theorem writeBytes_st (a : Nat) (bs : List Byte) : (s.writeBytes a bs).st = s.st := by rw [writeBytes_fields]
@[simp] theorem writeBytes_run (a : Nat) (bs : List Byte) : (s.writeBytes a bs).run = s.run := by rw [writeBytes_fields]
@[simp] theorem writeBytes_hires (a : Nat) (bs : List Byte) : (s.writeBytes a bs).hires = s.hires := by rw [writeBytes_fields]
@[simp] theorem writeBytes_planeMask (a : Nat) (bs : List Byte) : (s.writeBytes a bs).planeMask = s.planeMask := by rw [writeBytes_fields]
@[simp] theorem writeBytes_drawMode (a : Nat) (bs : List Byte) : (s.writeBytes a bs).drawMode = s.drawMode := by rw [writeBytes_fields]
@[simp] theorem writeBytes_planes (a : Nat) (bs : List Byte) : (s.writeBytes a bs).planes = s.planes := by rw [writeBytes_fields]
@[simp] theorem writeBytes_pal (a : Nat) (bs : List Byte) : (s.writeBytes a bs).pal = s.pal := by rw [writeBytes_fields]
@[simp] theorem writeBytes_flags (a : Nat) (bs : List Byte) : (s.writeBytes a bs).flags = s.flags := by rw [writeBytes_fields]
@[simp] theorem writeBytes_sel (a : Nat) (bs : List Byte) : (s.writeBytes a bs).sel = s.sel := by rw [writeBytes_fields]
@[simp] theorem writeBytes_voices (a : Nat) (bs : List Byte) : (s.writeBytes a bs).voices = s.voices := by rw [writeBytes_fields]
@[simp] theorem writeBytes_queue (a : Nat) (bs : List Byte) : (s.writeBytes a bs).queue = s.queue := by rw [writeBytes_fields]
@[simp] theorem writeBytes_env (a : Nat) (bs : List Byte) : (s.writeBytes a bs).env = s.env := by rw [writeBytes_fields]

/-! ### loadFrom -/

@[simp] theorem loadFrom_pc (rs : List Reg) (a : Nat) : (s.loadFrom rs a).pc = s.pc := by rw [loadFrom_fields]
@[simp] theorem loadFrom_stack (rs : List Reg) (a : Nat) : (s.loadFrom rs a).stack = s.stack := by rw [loadFrom_fields]
@[simp] theorem loadFrom_dt (rs : List Reg) (a : Nat) : (s.loadFrom rs a).dt = s.dt := by rw [loadFrom_fields]
@[simp] theorem loadFrom_st (rs : List Reg) (a : Nat) : (s.loadFrom rs a).st = s.st := by rw [loadFrom_fields]
@[simp] theorem loadFrom_run (rs : List Reg) (a : Nat) : (s.loadFrom rs a).run = s.run := by rw [loadFrom_fields]
@[simp] theorem loadFrom_hires (rs : List Reg) (a : Nat) : (s.loadFrom rs a).hires = s.hires := by rw [loadFrom_fields]
@[simp] theorem loadFrom_planeMask (rs : List Reg) (a : Nat) : (s.loadFrom rs a).planeMask = s.planeMask := by rw [loadFrom_fields]
@[simp] theorem loadFrom_drawMode (rs : List Reg) (a : Nat) : (s.loadFrom rs a).drawMode = s.drawMode := by rw [loadFrom_fields]
@[simp] theorem loadFrom_planes (rs : List Reg) (a : Nat) : (s.loadFrom rs a).planes = s.planes := by rw [loadFrom_fields]
@[simp] theorem loadFrom_pal (rs : List Reg) (a : Nat) : (s.loadFrom rs a).pal = s.pal := by rw [loadFrom_fields]
@[simp] theorem loadFrom_flags (rs : List Reg) (a : Nat) : (s.loadFrom rs a).flags = s.flags := by rw [loadFrom_fields]
@[simp] theorem loadFrom_sel (rs : List Reg) (a : Nat) : (s.loadFrom rs a).sel = s.sel := by rw [loadFrom_fields]
@[simp] theorem loadFrom_voices (rs : List Reg) (a : Nat) : (s.loadFrom rs a).voices = s.voices := by rw [loadFrom_fields]
@[simp] theorem loadFrom_queue (rs : List Reg) (a : Nat) : (s.loadFrom rs a).queue = s.queue := by rw [loadFrom_fields]
@[simp] theorem loadFrom_env (rs : List Reg) (a : Nat) : (s.loadFrom rs a).env = s.env := by rw [loadFrom_fields]

/-! ### advanceI -/

@[simp] theorem advanceI_v (n : Nat) : (State.advanceI n s).v = s.v := by rw [advanceI_fields]
@[simp] theorem advanceI_pc (n : Nat) : (State.advanceI n s).pc = s.pc := by rw [advanceI_fields]
@[simp] theorem advanceI_stack (n : Nat) : (State.advanceI n s).stack = s.stack := by rw [advanceI_fields]
@[simp] theorem advanceI_mem (n : Nat) : (State.advanceI n s).mem = s.mem := by rw [advanceI_fields]
@[simp] theorem advanceI_dt (n : Nat) : (State.advanceI n s).dt = s.dt := by rw [advanceI_fields]
@[simp] theorem advanceI_st (n : Nat) : (State.advanceI n s).st = s.st := by rw [advanceI_fields]
@[simp] theorem advanceI_run (n : Nat) : (State.advanceI n s).run = s.run := by rw [advanceI_fields]
@[simp] theorem advanceI_hires (n : Nat) : (State.advanceI n s).hires = s.hires := by rw [advanceI_fields]
@[simp] theorem advanceI_planeMask (n : Nat) : (State.advanceI n s).planeMask = s.planeMask := by rw [advanceI_fields]
@[simp] theorem advanceI_drawMode (n : Nat) : (State.advanceI n s).drawMode = s.drawMode := by rw [advanceI_fields]
@[simp] theorem advanceI_planes (n : Nat) : (State.advanceI n s).planes = s.planes := by rw [advanceI_fields]
@[simp] theorem advanceI_pal (n : Nat) : (State.advanceI n s).pal = s.pal := by rw [advanceI_fields]
@[simp] theorem advanceI_flags (n : Nat) : (State.advanceI n s).flags = s.flags := by rw [advanceI_fields]
@[simp] theorem advanceI_sel (n : Nat) : (State.advanceI n s).sel = s.sel := by rw [advanceI_fields]
@[simp] theorem advanceI_voices (n : Nat) : (State.advanceI n s).voices = s.voices := by rw [advanceI_fields]
@[simp] theorem advanceI_queue (n : Nat) : (State.advanceI n s).queue = s.queue := by rw [advanceI_fields]
@[simp] theorem advanceI_cfg (n : Nat) : (State.advanceI n s).cfg = s.cfg := by rw [advanceI_fields]
@[simp] theorem advanceI_env (n : Nat) : (State.advanceI n s).env = s.env := by rw [advanceI_fields]

/-! ### updateVoice -/

@[simp] theorem updateVoice_v (f : Voice → Voice) : (s.updateVoice f).v = s.v := by rw [updateVoice_fields]
@[simp] theorem updateVoice_i (f : Voice → Voice) : (s.updateVoice f).i = s.i := by rw [updateVoice_fields]
@[simp] theorem updateVoice_pc (f : Voice → Voice) : (s.updateVoice f).pc = s.pc := by rw [updateVoice_fields]
@[simp] theorem updateVoice_stack (f : Voice → Voice) : (s.updateVoice f).stack = s.stack := by rw [updateVoice_fields]
@[simp] theorem updateVoice_mem (f : Voice → Voice) : (s.updateVoice f).mem = s.mem := by rw [updateVoice_fields]
@[simp] theorem updateVoice_dt (f : Voice → Voice) : (s.updateVoice f).dt = s.dt := by rw [updateVoice_fields]
@[simp] theorem updateVoice_st (f : Voice → Voice) : (s.updateVoice f).st = s.st := by rw [updateVoice_fields]
@[simp] theorem updateVoice_run (f : Voice → Voice) : (s.updateVoice f).run = s.run := by rw [updateVoice_fields]
@[simp] theorem updateVoice_hires (f : Voice → Voice) : (s.updateVoice f).hires = s.hires := by rw [updateVoice_fields]
@[simp] theorem updateVoice_planeMask (f : Voice → Voice) : (s.updateVoice f).planeMask = s.planeMask := by rw [updateVoice_fields]
@[simp] theorem updateVoice_drawMode (f : Voice → Voice) : (s.updateVoice f).drawMode = s.drawMode := by rw [updateVoice_fields]
@[simp] theorem updateVoice_planes (f : Voice → Voice) : (s.updateVoice f).planes = s.planes := by rw [updateVoice_fields]
@[simp] theorem updateVoice_pal (f : Voice → Voice) : (s.updateVoice f).pal = s.pal := by rw [updateVoice_fields]
@[simp] theorem updateVoice_flags (f : Voice → Voice) : (s.updateVoice f).flags = s.flags := by rw [updateVoice_fields]
@[simp] theorem updateVoice_sel (f : Voice → Voice) : (s.updateVoice f).sel = s.sel := by rw [updateVoice_fields]
@[simp] theorem updateVoice_queue (f : Voice → Voice) : (s.updateVoice f).queue = s.queue := by rw [updateVoice_fields]
@[simp] theorem updateVoice_cfg (f : Voice → Voice) : (s.updateVoice f).cfg = s.cfg := by rw [updateVoice_fields]
@[simp] theorem updateVoice_env (f : Voice → Voice) : (s.updateVoice f).env = s.env := by rw [updateVoice_fields]

/-! ### saveFlag -/

@[simp] theorem foldl_saveFlag_v (rs : List Reg) : (rs.foldl State.saveFlag s).v = s.v := by rw [foldl_saveFlag_fields]
@[simp] theorem foldl_saveFlag_i (rs : List Reg) : (rs.foldl State.saveFlag s).i = s.i := by rw [foldl_saveFlag_fields]
@[simp] theorem foldl_saveFlag_pc (rs : List Reg) : (rs.foldl State.saveFlag s).pc = s.pc := by rw [foldl_saveFlag_fields]
@[simp] theorem foldl_saveFlag_stack (rs : List Reg) : (rs.foldl State.saveFlag s).stack = s.stack := by rw [foldl_saveFlag_fields]
@[simp] theorem foldl_saveFlag_mem (rs : List Reg) : (rs.foldl State.saveFlag s).mem = s.mem := by rw [foldl_saveFlag_fields]
@[simp] theorem foldl_saveFlag_dt (rs : List Reg) : (rs.foldl State.saveFlag s).dt = s.dt := by rw [foldl_saveFlag_fields]
@[simp] theorem foldl_saveFlag_st (rs : List Reg) : (rs.foldl State.saveFlag s).st = s.st := by rw [foldl_saveFlag_fields]
@[simp] theorem foldl_saveFlag_run (rs : List Reg) : (rs.foldl State.saveFlag s).run = s.run := by rw [foldl_saveFlag_fields]
@[simp] theorem foldl_saveFlag_hires (rs : List Reg) : (rs.foldl State.saveFlag s).hires = s.hires := by rw [foldl_saveFlag_fields]
@[simp] theorem foldl_saveFlag_planeMask (rs : List Reg) : (rs.foldl State.saveFlag s).planeMask = s.planeMask := by rw [foldl_saveFlag_fields]
@[simp] theorem foldl_saveFlag_drawMode (rs : List Reg) : (rs.foldl State.saveFlag s).drawMode = s.drawMode := by rw [foldl_saveFlag_fields]
@[simp] theorem foldl_saveFlag_planes (rs : List Reg) : (rs.foldl State.saveFlag s).planes = s.planes := by rw [foldl_saveFlag_fields]
@[simp] theorem foldl_saveFlag_pal (rs : List Reg) : (rs.foldl State.saveFlag s).pal = s.pal := by rw [foldl_saveFlag_fields]
@[simp] theorem foldl_saveFlag_sel (rs : List Reg) : (rs.foldl State.saveFlag s).sel = s.sel := by rw [foldl_saveFlag_fields]
@[simp] theorem foldl_saveFlag_voices (rs : List Reg) : (rs.foldl State.saveFlag s).voices = s.voices := by rw [foldl_saveFlag_fields]
@[simp] theorem foldl_saveFlag_queue (rs : List Reg) : (rs.foldl State.saveFlag s).queue = s.queue := by rw [foldl_saveFlag_fields]
@[simp] theorem foldl_saveFlag_cfg (rs : List Reg) : (rs.foldl State.saveFlag s).cfg = s.cfg := by rw [foldl_saveFlag_fields]
@[simp] theorem foldl_saveFlag_env (rs : List Reg) : (rs.foldl State.saveFlag s).env = s.env := by rw [foldl_saveFlag_fields]

/-! ### restoreFlag -/

@[simp] theorem foldl_restoreFlag_i (rs : List Reg) : (rs.foldl State.restoreFlag s).i = s.i := by rw [foldl_restoreFlag_fields]
@[simp] theorem foldl_restoreFlag_pc (rs : List Reg) : (rs.foldl State.restoreFlag s).pc = s.pc := by rw [foldl_restoreFlag_fields]
@[simp] theorem foldl_restoreFlag_stack (rs : List Reg) : (rs.foldl State.restoreFlag s).stack = s.stack := by rw [foldl_restoreFlag_fields]
@[simp] theorem foldl_restoreFlag_mem (rs : List Reg) : (rs.foldl State.restoreFlag s).mem = s.mem := by rw [foldl_restoreFlag_fields]
@[simp] theorem foldl_restoreFlag_dt (rs : List Reg) : (rs.foldl State.restoreFlag s).dt = s.dt := by rw [foldl_restoreFlag_fields]
@[simp] theorem foldl_restoreFlag_st (rs : List Reg) : (rs.foldl State.restoreFlag s).st = s.st := by rw [foldl_restoreFlag_fields]
@[simp] theorem foldl_restoreFlag_run (rs : List Reg) : (rs.foldl State.restoreFlag s).run = s.run := by rw [foldl_restoreFlag_fields]
@[simp] theorem foldl_restoreFlag_hires (rs : List Reg) : (rs.foldl State.restoreFlag s).hires = s.hires := by rw [foldl_restoreFlag_fields]
@[simp] theorem foldl_restoreFlag_planeMask (rs : List Reg) : (rs.foldl State.restoreFlag s).planeMask = s.planeMask := by rw [foldl_restoreFlag_fields]
@[simp] theorem foldl_restoreFlag_drawMode (rs : List Reg) : (rs.foldl State.restoreFlag s).drawMode = s.drawMode := by rw [foldl_restoreFlag_fields]
@[simp] theorem foldl_restoreFlag_planes (rs : List Reg) : (rs.foldl State.restoreFlag s).planes = s.planes := by rw [foldl_restoreFlag_fields]
@[simp] theorem foldl_restoreFlag_pal (rs : List Reg) : (rs.foldl State.restoreFlag s).pal = s.pal := by rw [foldl_restoreFlag_fields]
@[simp] theorem foldl_restoreFlag_flags (rs : List Reg) : (rs.foldl State.restoreFlag s).flags = s.flags := by rw [foldl_restoreFlag_fields]
@[simp] theorem foldl_restoreFlag_sel (rs : List Reg) : (rs.foldl State.restoreFlag s).sel = s.sel := by rw [foldl_restoreFlag_fields]
@[simp] theorem foldl_restoreFlag_voices (rs : List Reg) : (rs.foldl State.restoreFlag s).voices = s.voices := by rw [foldl_restoreFlag_fields]
@[simp] theorem foldl_restoreFlag_queue (rs : List Reg) : (rs.foldl State.restoreFlag s).queue = s.queue := by rw [foldl_restoreFlag_fields]
@[simp] theorem foldl_restoreFlag_cfg (rs : List Reg) : (rs.foldl State.restoreFlag s).cfg = s.cfg := by rw [foldl_restoreFlag_fields]
@[simp] theorem foldl_restoreFlag_env (rs : List Reg) : (rs.foldl State.restoreFlag s).env = s.env := by rw [foldl_restoreFlag_fields]

/-! ### withRange: the guarded update, or the halt -/

@[simp] theorem withRange_v (a n : Nat) (t : State) :
    (s.withRange a n t).v = if n = 0 ∨ a + n - 1 < s.memSize then t.v else s.v := by
  unfold State.withRange; split <;> rfl
@[simp] theorem withRange_i (a n : Nat) (t : State) :
    (s.withRange a n t).i = if n = 0 ∨ a + n - 1 < s.memSize then t.i else s.i := by
  unfold State.withRange; split <;> rfl
@[simp] theorem withRange_pc (a n : Nat) (t : State) :
    (s.withRange a n t).pc = if n = 0 ∨ a + n - 1 < s.memSize then t.pc else s.pc := by
  unfold State.withRange; split <;> rfl
@[simp] theorem withRange_stack (a n : Nat) (t : State) :
    (s.withRange a n t).stack = if n = 0 ∨ a + n - 1 < s.memSize then t.stack else s.stack := by
  unfold State.withRange; split <;> rfl
@[simp] theorem withRange_mem (a n : Nat) (t : State) :
    (s.withRange a n t).mem = if n = 0 ∨ a + n - 1 < s.memSize then t.mem else s.mem := by
  unfold State.withRange; split <;> rfl
@[simp] theorem withRange_dt (a n : Nat) (t : State) :
    (s.withRange a n t).dt = if n = 0 ∨ a + n - 1 < s.memSize then t.dt else s.dt := by
  unfold State.withRange; split <;> rfl
@[simp] theorem withRange_st (a n : Nat) (t : State) :
    (s.withRange a n t).st = if n = 0 ∨ a + n - 1 < s.memSize then t.st else s.st := by
  unfold State.withRange; split <;> rfl
@[simp] theorem withRange_run (a n : Nat) (t : State) :
    (s.withRange a n t).run = if n = 0 ∨ a + n - 1 < s.memSize then t.run else (RunState.halted (.accessOutOfRange (a + n - 1))) := by
  unfold State.withRange; split <;> rfl
@[simp] theorem withRange_hires (a n : Nat) (t : State) :
    (s.withRange a n t).hires = if n = 0 ∨ a + n - 1 < s.memSize then t.hires else s.hires := by
  unfold State.withRange; split <;> rfl
@[simp] theorem withRange_planeMask (a n : Nat) (t : State) :
    (s.withRange a n t).planeMask = if n = 0 ∨ a + n - 1 < s.memSize then t.planeMask else s.planeMask := by
  unfold State.withRange; split <;> rfl
@[simp] theorem withRange_drawMode (a n : Nat) (t : State) :
    (s.withRange a n t).drawMode = if n = 0 ∨ a + n - 1 < s.memSize then t.drawMode else s.drawMode := by
  unfold State.withRange; split <;> rfl
@[simp] theorem withRange_planes (a n : Nat) (t : State) :
    (s.withRange a n t).planes = if n = 0 ∨ a + n - 1 < s.memSize then t.planes else s.planes := by
  unfold State.withRange; split <;> rfl
@[simp] theorem withRange_pal (a n : Nat) (t : State) :
    (s.withRange a n t).pal = if n = 0 ∨ a + n - 1 < s.memSize then t.pal else s.pal := by
  unfold State.withRange; split <;> rfl
@[simp] theorem withRange_flags (a n : Nat) (t : State) :
    (s.withRange a n t).flags = if n = 0 ∨ a + n - 1 < s.memSize then t.flags else s.flags := by
  unfold State.withRange; split <;> rfl
@[simp] theorem withRange_sel (a n : Nat) (t : State) :
    (s.withRange a n t).sel = if n = 0 ∨ a + n - 1 < s.memSize then t.sel else s.sel := by
  unfold State.withRange; split <;> rfl
@[simp] theorem withRange_voices (a n : Nat) (t : State) :
    (s.withRange a n t).voices = if n = 0 ∨ a + n - 1 < s.memSize then t.voices else s.voices := by
  unfold State.withRange; split <;> rfl
@[simp] theorem withRange_queue (a n : Nat) (t : State) :
    (s.withRange a n t).queue = if n = 0 ∨ a + n - 1 < s.memSize then t.queue else s.queue := by
  unfold State.withRange; split <;> rfl
@[simp] theorem withRange_cfg (a n : Nat) (t : State) :
    (s.withRange a n t).cfg = if n = 0 ∨ a + n - 1 < s.memSize then t.cfg else s.cfg := by
  unfold State.withRange; split <;> rfl
@[simp] theorem withRange_env (a n : Nat) (t : State) :
    (s.withRange a n t).env = if n = 0 ∨ a + n - 1 < s.memSize then t.env else s.env := by
  unfold State.withRange; split <;> rfl

end Sys2Proof.Machine
end

