-- ==== Sys2Proof/Laws/PerInstr.lean ====
section
/-! SUPPORT. One family of statements per instruction: the length of an instruction, and that its first word alone tells it
(30_encoding.md R81). -/

namespace Sys2Proof.Laws.EncodedLength

/-- The words after the first one are as many as the first one says (R81), whatever the `ENC_*` parameters are. -/
def Statement (i : Instr) : Prop :=
  ∀ e : Encodings, e.unambiguous = true → ∃ w rest, encode e i = w :: rest ∧ rest.length = extraWords w

theorem of_one {i : Instr} {w : Encodings → Word} (h : ∀ e, encode e i = [w e])
    (hw : ∀ e, e.unambiguous = true → w e ≠ longLiteral) : Statement i := fun e he =>
  ⟨w e, [], h e, by simp only [extraWords, hw e he, if_false, List.length_nil]⟩

/-- A word of the extended group. -/
theorem of_extended {i : Instr} {x : BitVec 4} {k : Encodings → Byte} (h : ∀ e, encode e i = [wordXNN 0xF x (k e)])
    (hk : ∀ e : Encodings, k e ∈ e.extendedKeys) : Statement i :=
  of_one h fun e he => extended_ne_long he (hk e) x

theorem scd (n : BitVec 4) : Statement (.scd n) := of_one (fun _ => rfl) (fun _ _ => wordXYN_ne_long _ _ _ _ (by decide))
theorem scu (n : BitVec 4) : Statement (.scu n) := of_one (fun _ => rfl) (fun _ _ => wordXYN_ne_long _ _ _ _ (by decide))
theorem cls : Statement .cls := of_one (fun _ => rfl) (fun _ _ => wordXNN_ne_long _ _ _ (.inl (by decide)))
theorem inv : Statement .inv := of_one (fun _ => rfl) (fun _ _ => wordXNN_ne_long _ _ _ (.inl (by decide)))
theorem ret : Statement .ret := of_one (fun _ => rfl) (fun _ _ => wordXNN_ne_long _ _ _ (.inl (by decide)))
theorem dmor : Statement .dmor := of_one (fun _ => rfl) (fun _ _ => wordXNN_ne_long _ _ _ (.inl (by decide)))
theorem dmand : Statement .dmand := of_one (fun _ => rfl) (fun _ _ => wordXNN_ne_long _ _ _ (.inl (by decide)))
theorem dmxor : Statement .dmxor := of_one (fun _ => rfl) (fun _ _ => wordXNN_ne_long _ _ _ (.inl (by decide)))
theorem scr : Statement .scr := of_one (fun _ => rfl) (fun _ _ => wordXNN_ne_long _ _ _ (.inl (by decide)))
theorem scl : Statement .scl := of_one (fun _ => rfl) (fun _ _ => wordXNN_ne_long _ _ _ (.inl (by decide)))
theorem exit : Statement .exit := of_one (fun _ => rfl) (fun _ _ => wordXNN_ne_long _ _ _ (.inl (by decide)))
theorem low : Statement .low := of_one (fun _ => rfl) (fun _ _ => wordXNN_ne_long _ _ _ (.inl (by decide)))
theorem high : Statement .high := of_one (fun _ => rfl) (fun _ _ => wordXNN_ne_long _ _ _ (.inl (by decide)))
theorem jp (nnn : BitVec 12) : Statement (.jp nnn) := of_one (fun _ => rfl) (fun _ _ => wordNNN_ne_long _ _ (by decide))
theorem call (nnn : BitVec 12) : Statement (.call nnn) := of_one (fun _ => rfl) (fun _ _ => wordNNN_ne_long _ _ (by decide))
theorem seImm (x : Reg) (nn : Byte) : Statement (.seImm x nn) := of_one (fun _ => rfl) (fun _ _ => wordXNN_ne_long _ _ _ (.inl (by decide)))
theorem sneImm (x : Reg) (nn : Byte) : Statement (.sneImm x nn) := of_one (fun _ => rfl) (fun _ _ => wordXNN_ne_long _ _ _ (.inl (by decide)))
theorem seReg (x y : Reg) : Statement (.seReg x y) := of_one (fun _ => rfl) (fun _ _ => wordXYN_ne_long _ _ _ _ (by decide))
theorem save (x y : Reg) : Statement (.save x y) := of_one (fun _ => rfl) (fun _ _ => wordXYN_ne_long _ _ _ _ (by decide))
theorem load (x y : Reg) : Statement (.load x y) := of_one (fun _ => rfl) (fun _ _ => wordXYN_ne_long _ _ _ _ (by decide))
theorem ldImm (x : Reg) (nn : Byte) : Statement (.ldImm x nn) := of_one (fun _ => rfl) (fun _ _ => wordXNN_ne_long _ _ _ (.inl (by decide)))
theorem addImm (x : Reg) (nn : Byte) : Statement (.addImm x nn) := of_one (fun _ => rfl) (fun _ _ => wordXNN_ne_long _ _ _ (.inl (by decide)))
theorem ldReg (x y : Reg) : Statement (.ldReg x y) := of_one (fun _ => rfl) (fun _ _ => wordXYN_ne_long _ _ _ _ (by decide))
theorem or (x y : Reg) : Statement (.or x y) := of_one (fun _ => rfl) (fun _ _ => wordXYN_ne_long _ _ _ _ (by decide))
theorem and (x y : Reg) : Statement (.and x y) := of_one (fun _ => rfl) (fun _ _ => wordXYN_ne_long _ _ _ _ (by decide))
theorem xor (x y : Reg) : Statement (.xor x y) := of_one (fun _ => rfl) (fun _ _ => wordXYN_ne_long _ _ _ _ (by decide))
theorem addReg (x y : Reg) : Statement (.addReg x y) := of_one (fun _ => rfl) (fun _ _ => wordXYN_ne_long _ _ _ _ (by decide))
theorem sub (x y : Reg) : Statement (.sub x y) := of_one (fun _ => rfl) (fun _ _ => wordXYN_ne_long _ _ _ _ (by decide))
theorem shr (x y : Reg) : Statement (.shr x y) := of_one (fun _ => rfl) (fun _ _ => wordXYN_ne_long _ _ _ _ (by decide))
theorem subn (x y : Reg) : Statement (.subn x y) := of_one (fun _ => rfl) (fun _ _ => wordXYN_ne_long _ _ _ _ (by decide))
theorem mul (x y : Reg) : Statement (.mul x y) := of_one (fun _ => rfl) (fun _ _ => wordXYN_ne_long _ _ _ _ (by decide))
theorem div (x y : Reg) : Statement (.div x y) := of_one (fun _ => rfl) (fun _ _ => wordXYN_ne_long _ _ _ _ (by decide))
theorem shl (x y : Reg) : Statement (.shl x y) := of_one (fun _ => rfl) (fun _ _ => wordXYN_ne_long _ _ _ _ (by decide))
theorem divn (x y : Reg) : Statement (.divn x y) := of_one (fun _ => rfl) (fun _ _ => wordXYN_ne_long _ _ _ _ (by decide))
theorem sneReg (x y : Reg) : Statement (.sneReg x y) := of_one (fun _ => rfl) (fun _ _ => wordXYN_ne_long _ _ _ _ (by decide))
theorem ldI (nnn : BitVec 12) : Statement (.ldI nnn) := of_one (fun _ => rfl) (fun _ _ => wordNNN_ne_long _ _ (by decide))
theorem jpOff (nnn : BitVec 12) : Statement (.jpOff nnn) := of_one (fun _ => rfl) (fun _ _ => wordNNN_ne_long _ _ (by decide))
theorem rnd (x : Reg) (nn : Byte) : Statement (.rnd x nn) := of_one (fun _ => rfl) (fun _ _ => wordXNN_ne_long _ _ _ (.inl (by decide)))
theorem drw (x y : Reg) (n : BitVec 4) : Statement (.drw x y n) := of_one (fun _ => rfl) (fun _ _ => wordXYN_ne_long _ _ _ _ (by decide))
theorem skp (x : Reg) : Statement (.skp x) := of_one (fun _ => rfl) (fun _ _ => wordXNN_ne_long _ _ _ (.inl (by decide)))
theorem sknp (x : Reg) : Statement (.sknp x) := of_one (fun _ => rfl) (fun _ _ => wordXNN_ne_long _ _ _ (.inl (by decide)))
theorem ldl (nnnn : Word) : Statement (.ldl nnnn) := fun _ _ => ⟨longLiteral, [nnnn], rfl, rfl⟩
theorem plane (n : BitVec 4) : Statement (.plane n) := of_extended (fun _ => rfl) (fun e => by simp [Encodings.extendedKeys])
theorem audio (m : BitVec 4) : Statement (.audio m) := of_extended (fun _ => rfl) (fun e => by simp [Encodings.extendedKeys])
theorem ldVxDt (x : Reg) : Statement (.ldVxDt x) := of_extended (fun _ => rfl) (fun e => by simp [Encodings.extendedKeys])
theorem ldVxK (x : Reg) : Statement (.ldVxK x) := of_extended (fun _ => rfl) (fun e => by simp [Encodings.extendedKeys])
theorem ldDtVx (x : Reg) : Statement (.ldDtVx x) := of_extended (fun _ => rfl) (fun e => by simp [Encodings.extendedKeys])
theorem ldStVx (x : Reg) : Statement (.ldStVx x) := of_extended (fun _ => rfl) (fun e => by simp [Encodings.extendedKeys])
theorem addI (x : Reg) : Statement (.addI x) := of_extended (fun _ => rfl) (fun e => by simp [Encodings.extendedKeys])
theorem ldF (x : Reg) : Statement (.ldF x) := of_extended (fun _ => rfl) (fun e => by simp [Encodings.extendedKeys])
theorem ldHf (x : Reg) : Statement (.ldHf x) := of_extended (fun _ => rfl) (fun e => by simp [Encodings.extendedKeys])
theorem ldB (x : Reg) : Statement (.ldB x) := of_extended (fun _ => rfl) (fun e => by simp [Encodings.extendedKeys])
theorem pitch (x : Reg) : Statement (.pitch x) := of_extended (fun _ => rfl) (fun e => by simp [Encodings.extendedKeys])
theorem vol (x : Reg) : Statement (.vol x) := of_extended (fun _ => rfl) (fun e => by simp [Encodings.extendedKeys])
theorem voice (x : Reg) : Statement (.voice x) := of_extended (fun _ => rfl) (fun e => by simp [Encodings.extendedKeys])
theorem chan (x : Reg) : Statement (.chan x) := of_extended (fun _ => rfl) (fun e => by simp [Encodings.extendedKeys])
theorem pal (x : Reg) : Statement (.pal x) := of_extended (fun _ => rfl) (fun e => by simp [Encodings.extendedKeys])
theorem storeRegs (x : Reg) : Statement (.storeRegs x) := of_extended (fun _ => rfl) (fun e => by simp [Encodings.extendedKeys])
theorem loadRegs (x : Reg) : Statement (.loadRegs x) := of_extended (fun _ => rfl) (fun e => by simp [Encodings.extendedKeys])
theorem flagsOut (x : Reg) : Statement (.flagsOut x) := of_extended (fun _ => rfl) (fun e => by simp [Encodings.extendedKeys])
theorem flagsIn (x : Reg) : Statement (.flagsIn x) := of_extended (fun _ => rfl) (fun e => by simp [Encodings.extendedKeys])

end Sys2Proof.Laws.EncodedLength
end

