-- ==== Sys2Proof/Laws/Phase.lean ====
section
/-! SUPPORT. A read position stands for a real number, and its integer part is computed exactly (45_audio.md R231, R234; log
entries 23, 24). -/

namespace Sys2Proof.Machine

/-! ## Combinations of the powers of a 48th root of 2 -/

section Root

open Polynomial

theorem irreducible_X_pow_48 : Irreducible (X ^ 48 - C 2 : ℚ[X]) := by
  rw [map_ofNat]
  have h : Irreducible (X ^ 48 - C 2 : ℤ[X]) := by
    have hm : (X ^ 48 - C 2 : ℤ[X]).Monic := monic_X_pow_sub_C 2 (by norm_num)
    refine irreducible_of_eisenstein_criterion (P := Ideal.span {(2 : ℤ)}) ?_ ?_ ?_ ?_ ?_ hm.isPrimitive
    · rw [Ideal.span_singleton_prime (by norm_num)]; exact Int.prime_two
    · rw [hm.leadingCoeff, Ideal.mem_span_singleton]; norm_num
    · intro n hn
      rw [degree_X_pow_sub_C (by norm_num)] at hn
      have hn' : n < 48 := by exact_mod_cast hn
      rw [Ideal.mem_span_singleton, coeff_sub, coeff_X_pow, if_neg (by omega), coeff_C]
      split <;> norm_num
    · rw [degree_X_pow_sub_C (by norm_num)]; norm_num
    · simp [Ideal.span_singleton_pow, Ideal.mem_span_singleton]
  have := (IsPrimitive.Int.irreducible_iff_irreducible_map_cast
    (monic_X_pow_sub_C (2:ℤ) (by norm_num)).isPrimitive).1 h
  simpa [Polynomial.map_sub, Polynomial.map_pow] using this

/-- Every 48th root of 2 has that polynomial. -/
theorem minpoly_of_pow_48 (z : ℂ) (hz : z ^ 48 = 2) : minpoly ℚ z = X ^ 48 - C 2 :=
  (minpoly.eq_of_irreducible_of_monic irreducible_X_pow_48 (by simp [hz]) (monic_X_pow_sub_C 2 (by norm_num))).symm

/-- Its first 48 powers are independent over the integers. -/
theorem eq_zero_of_combination (z : ℂ) (hz : z ^ 48 = 2) (a : Fin 48 → ℤ)
    (h : ∑ j, (a j : ℂ) * z ^ j.val = 0) : a = 0 := by
  have h1 : aeval z (∑ j : Fin 48, C (a j : ℚ) * X ^ j.val) = 0 := by simpa using h
  have hd : (∑ j : Fin 48, C (a j : ℚ) * X ^ j.val).degree < (X ^ 48 - C 2 : ℚ[X]).degree := by
    rw [degree_X_pow_sub_C (by norm_num)]
    refine lt_of_le_of_lt (degree_sum_le _ _) ((Finset.sup_lt_iff (by decide)).2 fun j _ => ?_)
    exact lt_of_le_of_lt (degree_C_mul_X_pow_le _ _) (by exact_mod_cast j.isLt)
  have h2 := eq_zero_of_dvd_of_degree_lt ((minpoly_of_pow_48 z hz) ▸ minpoly.dvd ℚ z h1) hd
  funext j
  have := congrArg (fun p => p.coeff j.val) h2
  simp only [finsetSum_coeff, coeff_C_mul, coeff_X_pow, coeff_zero] at this
  rw [Finset.sum_eq_single j (fun k _ hk => by rw [if_neg (fun e => hk (Fin.ext e.symm)), mul_zero]) (by simp)] at this
  simpa using this

/-- An integer combination of them that is not 0 stays away from 0: its norm is a nonzero integer, and the other 47
conjugates are at most `B` in size. -/
theorem combination_bound (z : ℂ) (hz : z ^ 48 = 2) (a : Fin 48 → ℤ) (ha : a ≠ 0) (B : ℝ)
    (hB : ∑ j : Fin 48, (if j = 0 then |(a j : ℝ)| else 2 * |(a j : ℝ)|) ≤ B) :
    1 ≤ ‖∑ j, (a j : ℂ) * z ^ j.val‖ * B ^ 47 := by
  classical
  have hint : IsIntegral ℚ z := ⟨X ^ 48 - C 2, monic_X_pow_sub_C 2 (by norm_num), by simp [hz]⟩
  have hfd : FiniteDimensional ℚ (IntermediateField.adjoin ℚ {z}) := IntermediateField.adjoin.finiteDimensional hint
  set L := IntermediateField.adjoin ℚ {z}
  let g : L := IntermediateField.AdjoinSimple.gen ℚ z
  have hg : g ^ 48 = 2 := Subtype.ext (by simpa [g] using hz.trans (show (2 : ℂ) = ((2 : L) : ℂ) from rfl))
  let x : L := ∑ j : Fin 48, (a j : L) * g ^ j.val
  have hgi : IsIntegral ℤ g := ⟨X ^ 48 - C 2, monic_X_pow_sub_C 2 (by norm_num), by simp [hg]⟩
  have hxi : IsIntegral ℤ x := IsIntegral.sum _ fun j _ => (isIntegral_algebraMap (x := a j)).mul (hgi.pow _)
  obtain ⟨ι, hι⟩ : ∃ ι : L →ₐ[ℚ] ℂ, ∀ y, ι y = (y : ℂ) := ⟨L.val, fun _ => rfl⟩
  have hval : ι x = ∑ j, (a j : ℂ) * z ^ j.val := by simp [hι, x, g]
  have hx : x ≠ 0 := fun e => ha (eq_zero_of_combination z hz a (by rw [← hval, e, map_zero]))
  have hcard : Fintype.card (L →ₐ[ℚ] ℂ) = 48 := by
    rw [AlgHom.card, IntermediateField.adjoin.finrank hint, minpoly_of_pow_48 z hz, natDegree_X_pow_sub_C]
  obtain ⟨N, hN⟩ := IsIntegrallyClosed.isIntegral_iff.1 (Algebra.isIntegral_norm ℚ hxi)
  have hN0 : N ≠ 0 := fun e => hx (Algebra.norm_eq_zero_iff.1 (by rw [← hN, e, map_zero]))
  have hprod := Algebra.norm_eq_prod_embeddings ℚ ℂ x
  have hbound : ∀ σ : L →ₐ[ℚ] ℂ, ‖σ x‖ ≤ B := fun σ => by
    have h48 : ‖σ g‖ ^ 48 = 2 := by rw [← norm_pow, ← map_pow, hg, map_ofNat]; simp
    have h1 : 1 ≤ ‖σ g‖ := by
      by_contra hlt
      have := pow_lt_one₀ (norm_nonneg (σ g)) (not_le.1 hlt) (n := 48) (by norm_num)
      linarith
    refine le_trans (by simpa [x] using norm_sum_le Finset.univ fun j : Fin 48 => σ ((a j : L) * g ^ j.val))
      (le_trans (Finset.sum_le_sum fun j _ => ?_) hB)
    split
    · rename_i h; subst h; simp
    · have : ‖σ g‖ ^ j.val ≤ 2 := h48 ▸ pow_le_pow_right₀ h1 (by omega)
      nlinarith [abs_nonneg (a j : ℝ)]
  have hn : ‖(algebraMap ℚ ℂ) (Algebra.norm ℚ x)‖ = ∏ σ : L →ₐ[ℚ] ℂ, ‖σ x‖ := by rw [hprod, norm_prod]
  have hs := Finset.mul_prod_erase Finset.univ (fun σ : L →ₐ[ℚ] ℂ => ‖σ x‖) (Finset.mem_univ ι)
  rw [← hs, congrArg norm hval] at hn
  have h1 : (1 : ℝ) ≤ ‖(algebraMap ℚ ℂ) (Algebra.norm ℚ x)‖ := by
    rw [← hN]
    simp only [eq_intCast, map_intCast, Complex.norm_intCast]
    exact_mod_cast Int.one_le_abs hN0
  refine h1.trans (hn.le.trans (mul_le_mul_of_nonneg_left ?_ (norm_nonneg _)))
  refine (Finset.prod_le_prod (fun _ _ => norm_nonneg _) fun σ _ => hbound σ).trans ?_
  rw [Finset.prod_const, Finset.card_erase_of_mem (Finset.mem_univ _), Finset.card_univ, hcard]

end Root

/-! ## The rate, and sum, multiple and reduction as real numbers -/

theorem rateNum_pos (c : Config) : 0 < rateNum c := Int.pos_iff_toNat_pos.1 (Rat.num_pos.2 c.fsOut.2)
theorem rateDen_pos (c : Config) : 0 < rateDen c := c.fsOut.1.den_pos

/-- `FS_OUT` is the fraction. -/
theorem fsOut_eq (c : Config) : c.fsOut.1 = (rateNum c : ℚ) / rateDen c := by
  have h : ((rateNum c : ℕ) : ℤ) = c.fsOut.1.num := Int.toNat_of_nonneg (Rat.num_pos.2 c.fsOut.2).le
  rw [← Int.cast_natCast (R := ℚ), h]
  exact (Rat.num_div_den _).symm

theorem phaseAdd_real (a b : Phase) :
    (∑ j : Fin 48, ((phaseAdd a b)[j.val] : ℝ) * (2 : ℝ) ^ ((j.val : ℝ) / 48)) =
      (∑ j : Fin 48, (a[j.val] : ℝ) * (2 : ℝ) ^ ((j.val : ℝ) / 48)) +
        ∑ j : Fin 48, (b[j.val] : ℝ) * (2 : ℝ) ^ ((j.val : ℝ) / 48) := by
  rw [← Finset.sum_add_distrib]
  refine Finset.sum_congr rfl fun j _ => ?_
  simp only [phaseAdd, Vector.getElem_zipWith]
  push_cast
  ring

theorem phaseScale_real (k : Nat) (u : Phase) :
    (∑ j : Fin 48, ((phaseScale k u)[j.val] : ℝ) * (2 : ℝ) ^ ((j.val : ℝ) / 48)) =
      k * ∑ j : Fin 48, (u[j.val] : ℝ) * (2 : ℝ) ^ ((j.val : ℝ) / 48) := by
  rw [Finset.mul_sum]
  refine Finset.sum_congr rfl fun j _ => ?_
  simp only [phaseScale, Vector.getElem_map]
  push_cast
  ring

theorem phaseMod_real (u : Phase) (m : Nat) :
    (∑ j : Fin 48, ((phaseMod u m)[j.val] : ℝ) * (2 : ℝ) ^ ((j.val : ℝ) / 48)) =
      (∑ j : Fin 48, (u[j.val] : ℝ) * (2 : ℝ) ^ ((j.val : ℝ) / 48)) - phaseFloor u m * m := by
  rw [phaseMod, Fin.sum_univ_succ, Fin.sum_univ_succ (f := fun j : Fin 48 => (u[j.val] : ℝ) * (2 : ℝ) ^ ((j.val : ℝ) / 48))]
  simp
  ring

/-! ## Roots rounded down -/

/-- The bits found: the greatest number whose 48th power is at most `n`, if it has no bit at or above `k`. -/
theorem rootBits_spec (n k acc : Nat) (h1 : acc ^ 48 ≤ n) (h2 : n < (acc + 2 ^ k) ^ 48) :
    rootBits n k acc ^ 48 ≤ n ∧ n < (rootBits n k acc + 1) ^ 48 := by
  induction k generalizing acc with
  | zero => exact ⟨h1, h2⟩
  | succ k ih =>
    simp only [rootBits]
    split
    · rename_i h
      refine ih _ h ?_
      rwa [add_assoc, ← mul_two, ← pow_succ]
    · rename_i h
      exact ih _ h1 (Nat.lt_of_not_le h)

theorem rootOfTwo_spec (prec j : Nat) (hj : j < 48) :
    rootOfTwo prec j ^ 48 ≤ 2 ^ (48 * prec + j) ∧ 2 ^ (48 * prec + j) < (rootOfTwo prec j + 1) ^ 48 := by
  refine rootBits_spec _ _ _ (by norm_num) ?_
  rw [Nat.zero_add, ← pow_mul]
  exact Nat.pow_lt_pow_right (by norm_num) (by omega)

theorem root_pow (j : Nat) : (2 : ℝ) ^ ((j : ℝ) / 48) = ((2 : ℝ) ^ ((1 : ℝ) / 48)) ^ j := by
  rw [← Real.rpow_natCast, ← Real.rpow_mul (by norm_num)]
  congr 1
  ring

theorem root_48 : ((2 : ℝ) ^ ((1 : ℝ) / 48)) ^ 48 = 2 := by
  rw [← root_pow]
  norm_num

/-- A root of two rounded down is near it, and exact for `j` = 0. -/
theorem rootOfTwo_near (prec j : Nat) (hj : j < 48) :
    |2 ^ prec * (2 : ℝ) ^ ((j : ℝ) / 48) - rootOfTwo prec j| ≤ 1 ∧ (j = 0 → (rootOfTwo prec j : ℝ) = 2 ^ prec) := by
  obtain ⟨h1, h2⟩ := rootOfTwo_spec prec j hj
  generalize rootOfTwo prec j = r at *
  have e : (2 ^ prec * (2 : ℝ) ^ ((j : ℝ) / 48)) ^ 48 = ((2 ^ (48 * prec + j) : ℕ) : ℝ) := by
    rw [mul_pow, root_pow, ← pow_mul, ← pow_mul, mul_comm j, pow_mul _ 48 j, root_48]
    push_cast
    rw [pow_add, mul_comm prec]
  have p : (0 : ℝ) ≤ 2 ^ prec * (2 : ℝ) ^ ((j : ℝ) / 48) := by positivity
  have l1 : (r : ℝ) ≤ 2 ^ prec * (2 : ℝ) ^ ((j : ℝ) / 48) := by
    refine (pow_le_pow_iff_left₀ (Nat.cast_nonneg r) p (by decide : 48 ≠ 0)).1 ?_
    rw [e, ← Nat.cast_pow]
    exact Nat.cast_le.2 h1
  have l2 : 2 ^ prec * (2 : ℝ) ^ ((j : ℝ) / 48) < r + 1 := by
    refine (pow_lt_pow_iff_left₀ p (Nat.cast_add_one_pos r).le (by decide : 48 ≠ 0)).1 ?_
    rw [e, ← Nat.cast_add_one, ← Nat.cast_pow]
    exact Nat.cast_lt.2 h2
  refine ⟨abs_le.2 ⟨by linarith, by linarith⟩, ?_⟩
  rintro rfl
  simp only [Nat.cast_zero, zero_div, Real.rpow_zero, mul_one] at l1 l2
  have l1' : r ≤ 2 ^ prec := by exact_mod_cast l1
  have l2' : 2 ^ prec < r + 1 := by exact_mod_cast l2
  exact_mod_cast (by omega : r = 2 ^ prec)

/-- What the precision of `phasePrec` rests on (log entry 24): times a power of two that large, a combination of the real
root's powers that is not 0 exceeds the weight of its irrational parts. -/
theorem combination_gap (a : Fin 48 → ℤ) (ha : a ≠ 0) (W : ℝ)
    (hW : W = ∑ j : Fin 48, if j = 0 then 0 else |(a j : ℝ)|) (e : ℕ)
    (he : 1 + 4 * W < 2 ^ e) : W < 2 ^ (48 * e) * |∑ j, (a j : ℝ) * ((2 : ℝ) ^ ((1 : ℝ) / 48)) ^ j.val| := by
  have hW0 : 0 ≤ W := hW ▸ Finset.sum_nonneg fun j _ => by split <;> positivity
  set α := (2 : ℝ) ^ ((1 : ℝ) / 48) with hα
  have h48 : α ^ 48 = 2 := root_48
  clear_value α
  have hα0 : 0 ≤ α := hα ▸ by positivity
  have hα1 : 1 ≤ α := by
    by_contra h
    have := pow_le_one₀ hα0 (not_le.1 h).le (n := 48)
    linarith
  have hpow (j : Fin 48) : α ^ j.val ≤ 2 := h48 ▸ pow_le_pow_right₀ hα1 (by omega)
  set x := ∑ j, (a j : ℝ) * α ^ j.val with hx
  by_contra hle
  have hle := not_lt.1 hle
  have hbig : (1 + 4 * W) ^ 48 < 2 ^ (48 * e) := by
    rw [mul_comm 48 e, pow_mul]
    exact pow_lt_pow_left₀ he (by linarith) (by decide : 48 ≠ 0)
  have hB0 : (0 : ℝ) < (1 + 4 * W) ^ 47 := by positivity
  have hsucc : (1 + 4 * W) ^ 48 = (1 + 4 * W) ^ 47 * (1 + 4 * W) := pow_succ _ _
  have hB1 : (1 : ℝ) ≤ (1 + 4 * W) ^ 47 := one_le_pow₀ (by linarith)
  generalize (2 : ℝ) ^ (48 * e) = T at *
  generalize (1 + 4 * W) ^ 48 = B48 at *
  have hsmall : |x| ≤ 1 := by
    by_contra h
    have h1 := not_le.1 h
    have h2 : 1 + 4 * W ≤ (1 + 4 * W) ^ 47 * (1 + 4 * W) := le_mul_of_one_le_left (by linarith) hB1
    have h3 : T ≤ T * |x| := le_mul_of_one_le_right (by linarith) h1.le
    linarith
  have h0 : |(a 0 : ℝ)| ≤ 1 + 2 * W := by
    have e0 : (a 0 : ℝ) = x - ∑ j : Fin 48, if j = 0 then 0 else (a j : ℝ) * α ^ j.val := by
      rw [hx, ← Finset.sum_sub_distrib, Finset.sum_eq_single 0]
      · simp
      · intro j _ h; simp [h]
      · simp
    have e1 : |∑ j : Fin 48, if j = 0 then 0 else (a j : ℝ) * α ^ j.val| ≤ 2 * W := by
      rw [hW, Finset.mul_sum]
      refine (Finset.abs_sum_le_sum_abs _ _).trans (Finset.sum_le_sum fun j _ => ?_)
      split
      · simp
      · rw [abs_mul, abs_of_nonneg (pow_nonneg hα0 _), mul_comm]
        exact mul_le_mul_of_nonneg_right (hpow j) (abs_nonneg _)
    rw [e0]
    exact (abs_sub _ _).trans (by linarith)
  have hsum : ∑ j : Fin 48, (if j = 0 then |(a j : ℝ)| else 2 * |(a j : ℝ)|) ≤ 1 + 4 * W := by
    have e2 : ∀ j : Fin 48, (if j = 0 then |(a j : ℝ)| else 2 * |(a j : ℝ)|) =
        (if j = 0 then |(a 0 : ℝ)| else 0) + 2 * if j = 0 then 0 else |(a j : ℝ)| := fun j => by
      split
      · rename_i h; subst h; simp
      · simp
    rw [Finset.sum_congr rfl fun j _ => e2 j, Finset.sum_add_distrib, ← Finset.mul_sum, ← hW,
      Finset.sum_ite_eq' Finset.univ (0 : Fin 48) (fun _ => |(a 0 : ℝ)|), if_pos (Finset.mem_univ _)]
    linarith
  have hb := combination_bound (α : ℂ) (by rw [← Complex.ofReal_pow, h48]; simp) a ha _ hsum
  have hn : ‖∑ j, (a j : ℂ) * (α : ℂ) ^ j.val‖ = |x| := by
    rw [hx, ← Real.norm_eq_abs, ← Complex.norm_real]
    simp
  rw [hn] at hb
  have h1 := mul_le_mul_of_nonneg_right hb (show 0 ≤ 1 + 4 * W by linarith)
  have h2 := mul_le_mul_of_nonneg_left hbig.le (abs_nonneg x)
  rw [mul_assoc, ← hsucc] at h1
  linarith

/-- The real number a phase stands for is at least an integer exactly if the rounded sum says so. -/
theorem phase_le_iff (u : Phase) (N : ℤ) :
    (N : ℝ) ≤ ∑ j : Fin 48, (u[j.val] : ℝ) * (2 : ℝ) ^ ((j.val : ℝ) / 48) ↔
      N * 2 ^ phasePrec u ≤ ∑ j : Fin 48, u[j.val] * (rootOfTwo (phasePrec u) j.val : ℤ) := by
  let a : Fin 48 → ℤ := fun j => if j = 0 then u[0] - N else u[j.val]
  have ha (j : Fin 48) (h : j ≠ 0) : a j = u[j.val] := if_neg h
  have hW : ((phaseWeight u : ℕ) : ℝ) = ∑ j : Fin 48, if j = 0 then 0 else |(a j : ℝ)| := by
    rw [phaseWeight, ← Fin.sum_univ_def, Nat.cast_sum]
    refine Finset.sum_congr rfl fun j _ => ?_
    by_cases h : j = 0
    · simp [h]
    · rw [if_neg h, if_neg (show ¬j.val = 0 from fun e => h (Fin.ext e)), Nat.cast_natAbs, Int.cast_abs, ha j h]
  have hgap : a ≠ 0 → _ := fun h =>
    combination_gap a h _ hW (Nat.log2 (1 + 4 * phaseWeight u) + 1) (by exact_mod_cast Nat.lt_log2_self)
  rw [show 48 * (Nat.log2 (1 + 4 * phaseWeight u) + 1) = phasePrec u from rfl] at hgap
  have hx : ∑ j, (a j : ℝ) * ((2 : ℝ) ^ ((1 : ℝ) / 48)) ^ j.val =
      (∑ j : Fin 48, (u[j.val] : ℝ) * (2 : ℝ) ^ ((j.val : ℝ) / 48)) - N := by
    have e : ∀ j : Fin 48, (a j : ℝ) * ((2 : ℝ) ^ ((1 : ℝ) / 48)) ^ j.val =
        (u[j.val] : ℝ) * (2 : ℝ) ^ ((j.val : ℝ) / 48) - if j = 0 then (N : ℝ) else 0 := fun j => by
      rw [root_pow]
      by_cases h : j = 0
      · subst h; simp [a]
      · rw [ha j h, if_neg h, sub_zero]
    rw [Finset.sum_congr rfl fun j _ => e j, Finset.sum_sub_distrib,
      Finset.sum_ite_eq' Finset.univ (0 : Fin 48) (fun _ => (N : ℝ)), if_pos (Finset.mem_univ _)]
  have hD : |2 ^ phasePrec u * (∑ j : Fin 48, (u[j.val] : ℝ) * (2 : ℝ) ^ ((j.val : ℝ) / 48)) -
      ((∑ j : Fin 48, u[j.val] * (rootOfTwo (phasePrec u) j.val : ℤ) : ℤ) : ℝ)| ≤ phaseWeight u := by
    rw [Int.cast_sum, Finset.mul_sum, ← Finset.sum_sub_distrib, hW]
    refine (Finset.abs_sum_le_sum_abs _ _).trans (Finset.sum_le_sum fun j _ => ?_)
    obtain ⟨n1, n2⟩ := rootOfTwo_near (phasePrec u) j.val j.isLt
    generalize phasePrec u = P at *
    have e : 2 ^ P * ((u[j.val] : ℝ) * (2 : ℝ) ^ ((j.val : ℝ) / 48)) -
        ((u[j.val] * (rootOfTwo P j.val : ℤ) : ℤ) : ℝ) =
        u[j.val] * (2 ^ P * (2 : ℝ) ^ ((j.val : ℝ) / 48) - rootOfTwo P j.val) := by push_cast; ring
    rw [e, abs_mul]
    split
    · rename_i h
      subst h
      rw [n2 rfl]
      simp
    · rename_i h
      rw [ha j h]
      exact mul_le_of_le_one_right (abs_nonneg _) n1
  rw [hx] at hgap
  generalize phasePrec u = P at *
  generalize (∑ j : Fin 48, u[j.val] * (rootOfTwo P j.val : ℤ)) = S at *
  generalize (∑ j : Fin 48, (u[j.val] : ℝ) * (2 : ℝ) ^ ((j.val : ℝ) / 48)) = R at *
  have hP0 : (0 : ℝ) < 2 ^ P := by positivity
  have hcast : N * 2 ^ P ≤ S ↔ (N : ℝ) * 2 ^ P ≤ S := by exact_mod_cast Iff.rfl
  rw [hcast]
  obtain ⟨d1, d2⟩ := abs_le.1 hD
  by_cases ha0 : a = 0
  · have hWz : (phaseWeight u : ℝ) = 0 := hW ▸ Finset.sum_eq_zero fun j _ => by rw [ha0]; simp
    have hRN : R = N := by
      have : R - N = 0 := by rw [← hx, ha0]; simp
      linarith
    rw [hWz] at d1 d2
    rw [hRN] at d1 d2 ⊢
    exact ⟨fun _ => by linarith, fun _ => le_rfl⟩
  · have hfar := hgap ha0
    constructor
    · intro h
      rw [abs_of_nonneg (by linarith)] at hfar
      linarith
    · intro h
      by_contra hlt
      rw [abs_of_neg (by linarith [not_le.1 hlt])] at hfar
      linarith

/-- `phaseFloor` is the floor of the real number (45 R234). -/
theorem phaseFloor_eq (u : Phase) (m : Nat) (hm : 0 < m) :
    phaseFloor u m = ⌊(∑ j : Fin 48, (u[j.val] : ℝ) * (2 : ℝ) ^ ((j.val : ℝ) / 48)) / m⌋ := by
  have hm' : (0 : ℝ) < m := by exact_mod_cast hm
  have hd : (0 : ℤ) < ((m * 2 ^ phasePrec u : Nat) : ℤ) := by positivity
  have key (k : ℤ) : k ≤ phaseFloor u m ↔
      k ≤ ⌊(∑ j : Fin 48, (u[j.val] : ℝ) * (2 : ℝ) ^ ((j.val : ℝ) / 48)) / m⌋ := by
    rw [Int.le_floor, le_div_iff₀ hm', phaseFloor, Int.le_ediv_iff_mul_le hd, ← Fin.sum_univ_def]
    have h := phase_le_iff u (k * m)
    push_cast at h ⊢
    rw [h, mul_assoc]
  exact le_antisymm ((key _).1 le_rfl) ((key _).2 le_rfl)

end Sys2Proof.Machine
end

