-- ==== Sys2Proof/Tests/Slice0.lean ====
section
/-! SUPPORT. Tests of the core: what well-formedness refuses, the words of the encoding tables, one step on small states with
the results of the spec's own test vectors (T-numbers: 95_test_vectors.md), and the witnesses that the statements' hypotheses
can be met. -/

namespace Sys2Proof.Tests

open Sys2Proof Sys2Proof.Machine

/-! ## Well-formedness -/

/-- 43 R186: FN01 with `N` = 0 has no word. -/
theorem test_plane_zero_refused : (Instr.plane 0).wf = false := by decide

/-- 45 R222: FM02 with `M` above 3 has no word. -/
theorem test_audio_four_refused : (Instr.audio 4).wf = false := by decide

theorem test_bounds_accepted : (Instr.plane 1).wf ∧ (Instr.plane 15).wf ∧ (Instr.audio 0).wf ∧ (Instr.audio 3).wf := by
  decide

/-! ## Decoding, each word written out from the tables of 30 R86 to R88 -/

/-- With the words of 30 R90. -/
def dec (w : Word) : Except IllegalWord Instr := decodeWord Encodings.default w

theorem test_decode_group0 :
    dec 0x00C7 = .ok (.scd 7) ∧ dec 0x00D9 = .ok (.scu 9) ∧ dec 0x00E0 = .ok .cls ∧
    dec 0x00E1 = .ok .inv ∧ dec 0x00EE = .ok .ret ∧ dec 0x00F1 = .ok .dmor ∧
    dec 0x00F2 = .ok .dmand ∧ dec 0x00F3 = .ok .dmxor ∧ dec 0x00FB = .ok .scr ∧
    dec 0x00FC = .ok .scl ∧ dec 0x00FD = .ok .exit ∧ dec 0x00FE = .ok .low ∧
    dec 0x00FF = .ok .high := by decide

theorem test_decode_control_flow :
    dec 0x1234 = .ok (.jp 0x234) ∧ dec 0x2FED = .ok (.call 0xFED) ∧ dec 0x3A2C = .ok (.seImm 0xA 0x2C) ∧
    dec 0x4B81 = .ok (.sneImm 0xB 0x81) ∧ dec 0x51E0 = .ok (.seReg 1 0xE) ∧
    dec 0x91E0 = .ok (.sneReg 1 0xE) ∧ dec 0xB812 = .ok (.jpOff 0x812) := by decide

theorem test_decode_load_alu :
    dec 0x6A2C = .ok (.ldImm 0xA 0x2C) ∧ dec 0x7B81 = .ok (.addImm 0xB 0x81) ∧
    dec 0x8AB0 = .ok (.ldReg 0xA 0xB) ∧ dec 0x8AB1 = .ok (.or 0xA 0xB) ∧ dec 0x8AB2 = .ok (.and 0xA 0xB) ∧
    dec 0x8AB3 = .ok (.xor 0xA 0xB) ∧ dec 0x8AB4 = .ok (.addReg 0xA 0xB) ∧
    dec 0x8AB5 = .ok (.sub 0xA 0xB) ∧ dec 0x8AB6 = .ok (.shr 0xA 0xB) ∧ dec 0x8AB7 = .ok (.subn 0xA 0xB) ∧
    dec 0x8ABC = .ok (.mul 0xA 0xB) ∧ dec 0x8ABD = .ok (.div 0xA 0xB) ∧ dec 0x8ABE = .ok (.shl 0xA 0xB) ∧
    dec 0x8ABF = .ok (.divn 0xA 0xB) ∧ dec 0xC10F = .ok (.rnd 1 0x0F) := by decide

theorem test_decode_index_memory :
    dec 0xA300 = .ok (.ldI 0x300) ∧ decodeBytes Encodings.default [0xF0, 0x00, 0x12, 0x34, 0x56] = .ok (.ldl 0x1234, [0x56]) ∧
    dec 0xF31E = .ok (.addI 3) ∧ dec 0xF429 = .ok (.ldF 4) ∧ dec 0xF530 = .ok (.ldHf 5) ∧
    dec 0xF633 = .ok (.ldB 6) ∧ dec 0xF755 = .ok (.storeRegs 7) ∧ dec 0xF865 = .ok (.loadRegs 8) ∧
    dec 0x5132 = .ok (.save 1 3) ∧ dec 0x5313 = .ok (.load 3 1) := by decide

theorem test_decode_display_keys_system :
    dec 0xD125 = .ok (.drw 1 2 5) ∧ dec 0xF101 = .ok (.plane 1) ∧ dec 0xF23E = .ok (.pal 2) ∧
    dec 0xE39E = .ok (.skp 3) ∧ dec 0xE4A1 = .ok (.sknp 4) ∧ dec 0xF507 = .ok (.ldVxDt 5) ∧
    dec 0xF60A = .ok (.ldVxK 6) ∧ dec 0xF715 = .ok (.ldDtVx 7) ∧ dec 0xF818 = .ok (.ldStVx 8) ∧
    dec 0xF975 = .ok (.flagsOut 9) ∧ dec 0xFA85 = .ok (.flagsIn 0xA) := by decide

theorem test_decode_audio :
    dec 0xF302 = .ok (.audio 3) ∧ dec 0xF13A = .ok (.pitch 1) ∧ dec 0xF23B = .ok (.vol 2) ∧
    dec 0xF33C = .ok (.voice 3) ∧ dec 0xF43D = .ok (.chan 4) := by decide

/-- 30 R89, T2 to T10. -/
theorem test_decode_illegal :
    dec 0x0000 = .error (.unknownMachineCode 0x0000) ∧ dec 0x0123 = .error (.unknownMachineCode 0x0123) ∧
    dec 0x5121 = .error (.unknownOpcode 0x5121) ∧ dec 0x8128 = .error (.unknownOpcode 0x8128) ∧
    dec 0x9121 = .error (.unknownOpcode 0x9121) ∧ dec 0xE19F = .error (.unknownOpcode 0xE19F) ∧
    dec 0xF001 = .error (.unknownOpcode 0xF001) ∧ dec 0xF402 = .error (.unknownOpcode 0xF402) ∧
    dec 0xF100 = .error (.unknownOpcode 0xF100) := by decide

/-- Another choice of two parameters: 30 R90, "free words". -/
def otherWords : Config :=
  { Config.default with enc := ⟨{ Encodings.default with invert := 0xE2, voice := 0x3F }, by decide⟩ }

theorem test_decode_other_words :
    decodeWord otherWords.enc 0x00E2 = .ok .inv ∧ decodeWord otherWords.enc 0x00E1 = .error (.unknownMachineCode 0x00E1) ∧
    decodeWord otherWords.enc 0xF33F = .ok (.voice 3) ∧ decodeWord otherWords.enc 0xF33C = .error (.unknownOpcode 0xF33C) := by
  decide

/-- A choice that gives one word to two rows is none: clear and invert; a sub-opcode where the long literal stands. -/
theorem test_ambiguous_words_refused :
    ({ Encodings.default with invert := 0xE0 } : Encodings).unambiguous = false ∧
    ({ Encodings.default with voice := 0x00 } : Encodings).unambiguous = false ∧
    ({ Encodings.default with exit := 0xC5 } : Encodings).unambiguous = false := by decide

/-- A choice that spells 0x0000 is admitted, and the word is illegal under the default words (log entry 35; T2). -/
theorem test_zero_word :
    ({ Encodings.default with clear := 0x00 } : Encodings).unambiguous = true ∧
    decodeWord { Encodings.default with clear := 0x00 } 0x0000 = .ok .cls ∧
    decodeWord { Encodings.default with scrollDown := 0x0 } 0x0000 = .ok (.scd 0) ∧
    dec 0x0000 = .error (.unknownMachineCode 0x0000) := by decide

/-! ## One step on a small state -/

/-- Reset, with the words of a program at 0x200. -/
def prog (ws : List Word) : State := State.reset.writeBytes 0x200 (bytesOfWords ws)

/-- The same with a configuration. -/
def progOf (c : Config) (ws : List Word) : State := ({ State.reset with cfg := c }).writeBytes 0x200 (bytesOfWords ws)

/-- General registers given. -/
def regs (l : List (Reg × Byte)) (s : State) : State := l.foldl (fun s rb => s.setReg rb.1 rb.2) s

/-- `I` given, and bytes from `I` on. -/
def data (i : Word) (bs : List Byte) (s : State) : State := { s.writeBytes i.toNat bs with i := i }

/-- The next host event. -/
def event (e : Event) (s : State) : State := { s with env := { s.env with events := [e] } }

/-- The state after one step. -/
def after (s : State) : State :=
  match step s with
  | .next t => t
  | .fault _ | .refused _ => s

/-- Some registers. -/
def vals (s : State) (l : List Reg) : List Byte := l.map s.reg

/-- `pc` and the run state. -/
def flow (s : State) : Word × RunState := (s.pc, s.run)

/-- The cells of plane 0 among `l` (column, row) that are set. -/
def lit (s : State) (p : Nat) (l : List (Nat × Nat)) : List (Nat × Nat) := l.filter fun c => cell s.planes p c.2 c.1

/-- One cell (column, row) set. -/
def dot (p : Nat) (c : Nat × Nat) (s : State) : State := { s with planes := setCell s.planes p c.2 c.1 true }

/-! ### Fetch and control flow -/

/-- T2, T4. -/
theorem test_fetch_illegal :
    flow (after (prog [0x0000])) = (0x202, .halted (.unknownMachineCode 0)) ∧
    flow (after (prog [0x5121])) = (0x202, .halted (.unknownOpcode 0x5121)) := by decide

/-- T11, T12. -/
theorem test_fetch_top_of_memory :
    flow (after { State.reset with pc := 0xFFF }) = (0xFFF, .halted (.accessOutOfRange 0x1000)) ∧
    flow (after { State.reset.writeBytes 0xFFE [0x60, 0x12] with pc := 0xFFE }) = (0x000, .running) := by decide

/-- T71. -/
theorem test_ldl :
    (after (prog [0xF000, 0xABCD])).i = 0xABCD ∧ flow (after (prog [0xF000, 0xABCD])) = (0x204, .running) := by decide

/-- T13, T14. -/
theorem test_ldl_top_of_memory :
    (after { (State.reset.writeBytes 0 [0x12, 0x34]).writeBytes 0xFFE [0xF0, 0x00] with pc := 0xFFE }).i = 0x1234 ∧
    flow (after { State.reset.writeBytes 0xFFD [0xF0, 0x00] with pc := 0xFFD }) = (0xFFF, .halted (.accessOutOfRange 0x1000)) := by
  decide

/-- T50. -/
theorem test_jp :
    flow (after (prog [0x1204])) = (0x204, .running) := by decide

/-- T52. -/
theorem test_call :
    (after { State.reset.writeBytes 0x204 [0x22, 0x10] with pc := 0x204 }).stack = [0x206] ∧
    (after { State.reset.writeBytes 0x204 [0x22, 0x10] with pc := 0x204 }).pc = 0x210 := by decide

/-- S7, P5: the 13th nested call. -/
theorem test_call_overflow :
    flow (after { prog [0x2200] with stack := List.replicate 12 0x202 }) = (0x202, .halted (.stackOverflow 0x202)) ∧
    (after { prog [0x2200] with stack := List.replicate 11 0x202 }).stack.length = 12 := by decide

/-- T53. -/
theorem test_ret :
    (after { prog [0x00EE] with stack := [0x206] }).stack = [] ∧ (after { prog [0x00EE] with stack := [0x206] }).pc = 0x206 := by
  decide

/-- T54. -/
theorem test_ret_underflow :
    flow (after (prog [0x00EE])) = (0x202, .halted (.stackUnderflow 0x202)) := by decide

/-- T55, T56. -/
theorem test_seImm :
    (after (regs [(3, 0x2A)] (prog [0x332A, 0x6001]))).pc = 0x204 ∧ (after (regs [(3, 0x2B)] (prog [0x332A]))).pc = 0x202 := by
  decide

/-- T58. -/
theorem test_seImm_over_long_literal :
    (after (prog [0x3000, 0xF000, 0x1234, 0x6001])).pc = 0x206 := by decide

/-- T57. -/
theorem test_sneImm :
    (after (regs [(3, 0x2A)] (prog [0x432A]))).pc = 0x202 ∧ (after (regs [(3, 0x2B)] (prog [0x432A]))).pc = 0x204 := by
  decide

/-- T59, T60. -/
theorem test_seReg :
    (after (regs [(1, 7), (2, 7)] (prog [0x5120]))).pc = 0x204 ∧ (after (prog [0x5330])).pc = 0x204 := by decide

/-- T61, T62. -/
theorem test_sneReg :
    (after (regs [(1, 7), (2, 8)] (prog [0x9120]))).pc = 0x204 ∧ (after (prog [0x9330])).pc = 0x202 := by decide

/-- T65. -/
theorem test_skip_peek_out_of_range :
    flow (after { State.reset.writeBytes 0xFFD [0x30, 0x00] with pc := 0xFFD }) = (0xFFF, .halted (.accessOutOfRange 0x1000)) := by
  decide

/-- T63. -/
theorem test_jpOff :
    (after (regs [(0, 0x10), (2, 0x20)] (prog [0xB234]))).pc = 0x244 ∧
    (after (regs [(0, 0x10), (2, 0x20)] (progOf { Config.default with qJump := true } [0xB234]))).pc = 0x254 := by decide

/-- T64. -/
theorem test_jpOff_wraps :
    (after (regs [(0, 0xFF), (15, 2)] (prog [0xBFFF]))).pc = 0x0FE ∧
    (after (regs [(0, 0xFF), (15, 2)] (progOf { Config.default with extended := true } [0xBFFF]))).pc = 0x10FE := by decide

/-! ### Loads, arithmetic, logic -/

/-- 41 R120, T12's word. -/
theorem test_ldImm :
    vals (after (regs [(0, 7)] (prog [0x6012]))) [0, 15] = [0x12, 0] := by decide

/-- T44: no flag. -/
theorem test_addImm :
    vals (after (regs [(0, 0xFF)] (prog [0x7002]))) [0, 15] = [1, 0] := by decide

/-- 41 R123. -/
theorem test_ldReg :
    vals (after (regs [(1, 3), (2, 9)] (prog [0x8120]))) [1, 2] = [9, 9] := by decide

/-- T40. -/
theorem test_or :
    vals (after (regs [(0, 0x0F), (1, 0xF0), (15, 1)] (prog [0x8011]))) [0, 15] = [0xFF, 1] := by decide

/-- T40. -/
theorem test_or_quirk :
    vals (after (regs [(0, 0x0F), (1, 0xF0), (15, 1)] (progOf { Config.default with qLogic := true } [0x8011]))) [0, 15] = [0xFF, 0] := by
  decide

/-- T42. -/
theorem test_and :
    vals (after (regs [(0, 0x3C), (1, 0x0F)] (prog [0x8012]))) [0] = [0x0C] := by decide

/-- T42. -/
theorem test_xor :
    vals (after (regs [(0, 0x3C), (1, 0x0F)] (prog [0x8013]))) [0] = [0x33] := by decide

/-- T20. -/
theorem test_addReg :
    vals (after (regs [(0, 0xFF), (1, 2)] (prog [0x8014]))) [0, 15] = [1, 1] := by decide

/-- T21. -/
theorem test_addReg_into_vf :
    vals (after (regs [(15, 0xFF), (1, 2)] (prog [0x8F14]))) [1, 15] = [2, 1] := by decide

/-- T25. -/
theorem test_sub :
    vals (after (regs [(0, 1), (1, 2)] (prog [0x8015]))) [0, 15] = [0xFF, 0] := by decide

/-- T26. -/
theorem test_sub_equal :
    vals (after (regs [(15, 5), (1, 5)] (prog [0x8F15]))) [1, 15] = [5, 1] := by decide

/-- T15. -/
theorem test_shr :
    vals (after (regs [(0, 0xAA), (1, 5)] (prog [0x8016]))) [0, 1, 15] = [2, 5, 1] := by decide

/-- T15. -/
theorem test_shr_quirk :
    vals (after (regs [(0, 0xAA), (1, 5)] (progOf { Config.default with qShift := true } [0x8016]))) [0, 1, 15] = [0x55, 5, 0] := by
  decide

/-- T28. -/
theorem test_subn :
    vals (after (regs [(0, 2), (1, 1)] (prog [0x8017]))) [0, 15] = [0xFF, 0] := by decide

/-- T31. -/
theorem test_mul :
    vals (after (regs [(0, 0x12), (1, 0x34)] (prog [0x801C]))) [0, 15] = [0xA8, 3] := by decide

/-- T33. -/
theorem test_div :
    vals (after (regs [(0, 0x64), (1, 7)] (prog [0x801D]))) [0, 15] = [0x0E, 2] := by decide

/-- T35. -/
theorem test_div_by_zero :
    vals (after (regs [(0, 5), (1, 0), (15, 9)] (prog [0x801D]))) [0, 15] = [0, 0] := by decide

/-- T16. -/
theorem test_shl :
    vals (after (regs [(0, 1), (1, 0x81)] (prog [0x801E]))) [0, 15] = [2, 1] := by decide

/-- T16. -/
theorem test_shl_quirk :
    vals (after (regs [(0, 1), (1, 0x81)] (progOf { Config.default with qShift := true } [0x801E]))) [0, 15] = [2, 0] := by
  decide

/-- T38. -/
theorem test_divn :
    vals (after (regs [(0, 7), (1, 0x64)] (prog [0x801F]))) [0, 15] = [0x0E, 2] := by decide

/-- T39. -/
theorem test_divn_by_zero :
    vals (after (regs [(0, 0), (1, 9), (15, 9)] (prog [0x801F]))) [0, 15] = [0, 0] := by decide

/-- T45. -/
theorem test_rnd :
    (after { prog [0xC00F] with env := { Env.quiet with randIn := [0xB7] } }).reg 0 = 7 := by decide

/-! ### Index and memory -/

/-- T70. -/
theorem test_ldI :
    (after (prog [0xA300])).i = 0x300 := by decide

/-- T72. -/
theorem test_addI :
    (after (regs [(2, 2)] { prog [0xF21E] with i := 0xFFF })).i = 1 ∧
    (after (regs [(2, 2)] { progOf { Config.default with extended := true } [0xF21E] with i := 0xFFF })).i = 0x1001 := by
  decide

/-- T74. -/
theorem test_ldF :
    (after (regs [(0, 0x1A)] (prog [0xF029]))).i = 0x32 := by decide

/-- T75. -/
theorem test_ldHf :
    (after (regs [(0, 3)] (prog [0xF030]))).i = 0x6E := by decide

/-- T76. -/
theorem test_ldB :
    (after (regs [(0, 0xFE)] { prog [0xF033] with i := 0x300 })).readBytes 0x300 4 = [2, 5, 4, 0] := by decide

/-- T78. -/
theorem test_storeRegs :
    (after (regs [(0, 1), (1, 2), (2, 3)] { prog [0xF255] with i := 0x300 })).readBytes 0x300 4 = [1, 2, 3, 0] ∧
    (after (regs [(0, 1), (1, 2), (2, 3)] { prog [0xF255] with i := 0x300 })).i = 0x303 := by decide

/-- T80. -/
theorem test_storeRegs_out_of_range :
    flow (after (regs [(0, 1), (1, 2)] { prog [0xF155] with i := 0xFFF })) = (0x202, .halted (.accessOutOfRange 0x1000)) ∧
    (after (regs [(0, 1), (1, 2)] { prog [0xF155] with i := 0xFFF })).readByte 0xFFF = 0 ∧
    (after (regs [(0, 1), (1, 2)] { prog [0xF155] with i := 0xFFF })).i = 0xFFF := by decide

/-- T81 with three registers. -/
theorem test_loadRegs :
    vals (after (data 0x300 [1, 2, 3, 4] (prog [0xF265]))) [0, 1, 2, 3] = [1, 2, 3, 0] ∧
    (after (data 0x300 [1, 2, 3, 4] (prog [0xF265]))).i = 0x303 := by decide

/-- T83, T84. -/
theorem test_save :
    (after (regs [(1, 0x11), (2, 0x22), (3, 0x33)] { prog [0x5132] with i := 0x400 })).readBytes 0x400 4 = [0x11, 0x22, 0x33, 0] ∧
    (after (regs [(1, 0x11), (2, 0x22), (3, 0x33)] { prog [0x5312] with i := 0x400 })).readBytes 0x400 4 = [0x33, 0x22, 0x11, 0] := by
  decide

/-- T85. -/
theorem test_load :
    vals (after (data 0x400 [0xAA, 0xBB, 0xCC] (prog [0x5313]))) [1, 2, 3] = [0xCC, 0xBB, 0xAA] := by decide

/-! ### Display -/

/-- T104. -/
theorem test_cls :
    lit (after (dot 0 (3, 4) (prog [0x00E0]))) 0 [(3, 4)] = [] ∧ lit (after (dot 1 (3, 4) (prog [0x00E0]))) 1 [(3, 4)] = [(3, 4)] := by
  decide +kernel

/-- T47. -/
theorem test_scd :
    lit (after (dot 0 (5, 0) (prog [0x00C3]))) 0 [(5, 0), (5, 3)] = [(5, 3)] := by decide +kernel

/-- T47. -/
theorem test_scu :
    lit (after (dot 0 (5, 3) (prog [0x00D3]))) 0 [(5, 0), (5, 3)] = [(5, 0)] := by decide +kernel

/-- T47. -/
theorem test_scr :
    lit (after (dot 0 (5, 0) (prog [0x00FB]))) 0 [(5, 0), (9, 0)] = [(9, 0)] := by decide +kernel

/-- T100. -/
theorem test_scr_drops :
    lit (after (dot 0 (62, 7) (prog [0x00FB]))) 0 [(62, 7), (66, 7), (2, 7)] = [] := by decide +kernel

/-- T47. -/
theorem test_scl :
    lit (after (dot 0 (9, 0) (prog [0x00FC]))) 0 [(5, 0), (9, 0)] = [(5, 0)] := by decide +kernel

/-- T102, at the corners. -/
theorem test_inv :
    lit (after (prog [0x00E1])) 0 [(0, 0), (63, 31), (64, 31), (63, 32)] = [(0, 0), (63, 31)] := by decide +kernel

/-- T103. -/
theorem test_low :
    lit (after (dot 0 (1, 1) { prog [0x00FE] with planeMask := 2, hires := true })) 0 [(1, 1)] = [] ∧
    (after (dot 0 (1, 1) { prog [0x00FE] with planeMask := 2, hires := true })).hires = false := by decide +kernel

/-- 43 R179. -/
theorem test_high :
    lit (after (dot 3 (1, 1) (prog [0x00FF]))) 3 [(1, 1)] = [] ∧ (after (prog [0x00FF])).hires = true := by decide +kernel

/-- 43 R182 to R184. -/
theorem test_draw_modes :
    (after (prog [0x00F1])).drawMode = .or ∧ (after (prog [0x00F2])).drawMode = .and ∧
    (after { prog [0x00F3] with drawMode := .or }).drawMode = .xor := by decide

/-- T105. -/
theorem test_plane :
    (after (prog [0xF301])).planeMask = 3 := by decide

/-- T91. -/
theorem test_drw :
    lit (after (regs [(0, 62)] (data 0x300 [0xF0] (prog [0xD011])))) 0 [(61, 0), (62, 0), (63, 0), (0, 0), (1, 0), (2, 0)] =
      [(62, 0), (63, 0), (0, 0), (1, 0)] := by decide +kernel

/-- T96: the draw under OR. -/
theorem test_drw_collides :
    vals (after (dot 0 (0, 0) { data 0x300 [0xC0] (prog [0xD011]) with drawMode := .or })) [15] = [1] ∧
    lit (after (dot 0 (0, 0) { data 0x300 [0xC0] (prog [0xD011]) with drawMode := .or })) 0 [(0, 0), (1, 0), (2, 0)] = [(0, 0), (1, 0)] := by
  decide +kernel

/-- T106. -/
theorem test_pal :
    (after (regs [(0, 0x12)] (data 0x300 [0xFF, 0x80, 0] (prog [0xF03E])))).pal[2] = ⟨0xFF, 0x80, 0⟩ := by decide

/-! ### Keys, timers, flags, exit -/

/-- T110, T111. -/
theorem test_skp :
    (after (regs [(0, 5)] { prog [0xE09E] with env := { Env.quiet with keysHeld := some 0x20 } })).pc = 0x204 ∧
    (after (regs [(0, 0x15)] { prog [0xE09E] with env := { Env.quiet with keysHeld := some 0x20 } })).pc = 0x202 := by decide

/-- T112. -/
theorem test_sknp :
    (after (regs [(0, 0x15)] { prog [0xE0A1] with env := { Env.quiet with keysHeld := some 0x20 } })).pc = 0x204 ∧
    (after (regs [(0, 5)] { prog [0xE0A1] with env := { Env.quiet with keysHeld := some 0x20 } })).pc = 0x202 := by decide

/-- T113. -/
theorem test_ldVxK : flow (after (prog [0xF30A])) = (0x202, .waitingForKey 3) := by decide

/-- T113: a `Tick` while waiting. -/
theorem test_tick_waiting :
    after { prog [0x6001] with run := .waitingForKey 3 } = { prog [0x6001] with run := .waitingForKey 3 } := rfl

/-- T114, T115. -/
theorem test_keyRelease :
    (after (event (.keyRelease 9) { State.reset with run := .waitingForKey 3 })).reg 3 = 9 ∧
    (after (event (.keyRelease 9) State.reset)).reg 3 = 0 := by decide

/-- T117. -/
theorem test_ldVxDt :
    (after { prog [0xF207] with dt := 0x10 }).reg 2 = 0x10 := by decide

/-- T116. -/
theorem test_ldDtVx :
    (after (regs [(2, 60)] (prog [0xF215]))).dt = 60 := by decide

/-- T116. -/
theorem test_timerTick :
    (after (event .timerTick { State.reset with dt := 60 })).dt = 59 ∧ (after (event .timerTick State.reset)).dt = 0 := by
  decide +kernel

/-- T118. -/
theorem test_ldStVx :
    (after (regs [(0, 30)] (prog [0xF018]))).st = 30 ∧ (after (regs [(0, 30)] (prog [0xF018]))).voices[0].count = 30 := by
  decide +kernel

/-- T119. -/
theorem test_ldStVx_null_voice :
    (after (regs [(0, 30)] { prog [0xF018] with sel := 7 })).st = 30 ∧
    (after (regs [(0, 30)] { prog [0xF018] with sel := 7 })).voices.toList.map Voice.count = [0, 0, 0, 0] := by
  decide +kernel

/-- T120. -/
theorem test_flagsOut :
    (after (regs [(0, 7), (1, 9), (2, 5)] (prog [0xF175]))).env.out = [.exportFlags ((Vector.replicate 16 0).set 0 7 |>.set 1 9)] := by
  decide +kernel

/-- T121, T122. -/
theorem test_flagsIn :
    vals (after (regs [(0, 7), (1, 9)] { prog [0xF185] with env := { Env.quiet with flagsIn := [none] } })) [0, 1] = [0, 0] ∧
    vals (after { prog [0xF285] with env := { Env.quiet with flagsIn := [some (Vector.ofFn fun k => BitVec.ofNat 8 (k.val + 1))] } })
      [0, 1, 2, 3] = [1, 2, 3, 0] := by decide

/-- T123. -/
theorem test_exit :
    flow (after (prog [0x00FD])) = (0x202, .halted .exit) ∧ (after (prog [0x00FD])).env.out = [.onExit] := by decide +kernel

/-! ### Audio -/

/-- T130 to T133. -/
theorem test_unpack :
    unpackByte 4 0xAB = [0xAA, 0xBB] ∧ unpackByte 2 0x1B = [0x00, 0x55, 0xAA, 0xFF] ∧
    unpackByte 1 0xA5 = [0xFF, 0, 0xFF, 0, 0, 0xFF, 0, 0xFF] ∧ unpackByte 8 0x7F = [0x7F] := by decide

/-- T134. -/
theorem test_audio :
    (after { prog [0xF002] with i := 0x300 }).voices[0].buf.length = 128 ∧
    (after { prog [0xF302] with i := 0x300 }).voices[0].buf.length = 16 := by decide +kernel

/-- T130 through FM02. -/
theorem test_audio_sample :
    ((after (data 0x300 [0xAB] (prog [0xF202]))).voices[0].buf.take 3) = [0xAA, 0xBB, 0] := by decide +kernel

/-- T137. -/
theorem test_pitch :
    (after (regs [(0, 112)] { prog [0xF03A] with sel := 1 })).voices.toList.map Voice.pitch = [64, 112, 64, 64] := by
  decide +kernel

/-- T138. -/
theorem test_pitch_null_voice :
    (after (regs [(0, 112)] { prog [0xF03A] with sel := 9 })).voices.toList.map Voice.pitch = [64, 64, 64, 64] ∧
    (after (regs [(0, 112)] { prog [0xF03A] with sel := 9 })).env.out = [.onVoicePitchSet 112] := by decide +kernel

/-- 45 R225. -/
theorem test_vol :
    (after (regs [(0, 30)] (prog [0xF03B]))).voices.toList.map Voice.vol = [30, 255, 255, 255] := by decide +kernel

/-- 45 R220. -/
theorem test_voice :
    (after (regs [(0, 9)] (prog [0xF03C]))).sel = 9 := by decide

/-- T139. -/
theorem test_chan :
    (after (regs [(0, 0xFD)] (prog [0xF03D]))).voices.toList.map Voice.chan = [1, 3, 3, 3] := by decide +kernel

/-- T135. -/
theorem test_freq :
    (freqScale 64, freqRoot 64) = (4000, 0) ∧ (freqScale 112, freqRoot 112) = (8000, 0) ∧ (freqScale 16, freqRoot 16) = (2000, 0) ∧
    (freqScale 88, freqRoot 88) = (4000, 24) := by decide

/-- T140. -/
theorem test_render_silence :
    (after (event (.render 4) State.reset)).queue =
      [⟨List.replicate 4 Sample.silence, List.replicate 4 Sample.silence, 0, 4⟩] := by decide +kernel

/-- A waveform of two samples read at one sample per output sample (4000 Hz at unison), left only, volume 30: 45 R232. -/
theorem test_render_voice :
    (after (event (.render 3) { State.reset with
      voices := State.reset.voices.set 0 { Voice.initial with buf := [0x10, 0x20], vol := 30, chan := 1, count := 1 }
      cfg := { Config.default with fsOut := ⟨4000, by norm_num⟩, ss := some 1 } })).queue =
      [⟨[[⟨30, [0x10]⟩], [⟨30, [0x20, 0x10]⟩], [⟨30, [0x10, 0x20, 0x10]⟩]],
        [[⟨0, [0x10]⟩], [⟨0, [0x20, 0x10]⟩], [⟨0, [0x10, 0x20, 0x10]⟩]], 0, 3⟩] := by decide +kernel

/-- `FS_OUT` = 3/2 (45 R232, R233): `SS` is 96000 / (3/2) by default; with `SS` = 1 the step at unison is 4000 / (3/2) = 8000/3
samples, 8000 units of 1/3. -/
theorem test_fractional_rate :
    supersample { Config.default with fsOut := ⟨3 / 2, by norm_num⟩ } = 64000 ∧
    phaseUnit { Config.default with fsOut := ⟨3 / 2, by norm_num⟩, ss := some 1 } = 3 ∧
    (phaseStep { Config.default with fsOut := ⟨3 / 2, by norm_num⟩, ss := some 1 } 64)[0] = 8000 := by decide +kernel

/-- What a sample is worth: `30 / 255 * AMP(LPF(LPF((0, 0), 0x10), 0x20).1)` beside another voice's part. -/
theorem test_sample_value (f : AudioFunctions ℝ) (c : Config) :
    Sample.value f c [⟨30, [0x20, 0x10]⟩, ⟨0, [0x10]⟩] =
      30 / 255 * f.amp c (f.lpf c (f.lpf c 0 0 0x10).1 (f.lpf c 0 0 0x10).2 0x20).1 := by
  simp [Sample.value, Part.value, filterState]

/-- A sample that is told from others by its gain. -/
def smp (g : Byte) : Sample := [⟨g, []⟩]

/-- T142. -/
theorem test_pull :
    (after (event (.pull 4) { State.reset with queue :=
      [⟨[smp 1, smp 2, smp 3], [smp 4, smp 5, smp 6], 0, 3⟩, ⟨[smp 7, smp 8], [smp 1, smp 2], 0, 2⟩] })).env.out =
      [.samples Config.default [smp 1, smp 2, smp 3, smp 7] [smp 4, smp 5, smp 6, smp 1]] := by decide +kernel

/-- T144. -/
theorem test_trim :
    ((after (event (.render 20) { State.reset with
      queue := [⟨List.replicate 8 [], List.replicate 8 [], 0, 8⟩, ⟨List.replicate 8 [], List.replicate 8 [], 0, 8⟩]
      cfg := { Config.default with queueTarget := 10 } })).queue.map Chunk.remaining) = [20] := by decide +kernel

/-! ### Init -/

/-- T150. -/
theorem test_init :
    flow (after (event (.init [0x12, 0x00] Config.default) { prog [0x6001] with run := .halted .exit, i := 7 })) = (0x200, .running) ∧
    (after (event (.init [0x12, 0x00] Config.default) { prog [0x6001] with run := .halted .exit, i := 7 })).i = 0 ∧
    (after (event (.init [0x12, 0x00] Config.default) { prog [0x6001] with run := .halted .exit, i := 7 })).readBytes 0x200 3 =
      [0x12, 0x00, 0x00] := by decide

/-- T153, with a smaller limit. -/
theorem test_init_too_long :
    step (event (.init [1, 2, 3] { Config.default with maxProgramSize := 2 }) State.reset) = .refused .initProgramTooLong := rfl

/-- a table row of two words, its second word zero: the next step runs it. -/
theorem test_withFetchWord :
    (after (State.reset.withFetchWord 16 0x6A2C)).reg 0xA = 0x2C ∧ (after ({ State.reset with i := 7 }.withFetchWord 16 0xF000)).i = 0 := by
  decide


/-! ## Witnesses: the hypotheses of each statement can be met, at the ends of the ranges of its clauses -/

/-- Reset, with bytes at `p` and `pc` there. -/
def fetchAt (p : Word) (bs : List Byte) : State := { State.reset.writeBytes p.toNat bs with pc := p }

/-- Reset with `I` given. -/
def atI (i : Word) : State := { State.reset with i := i }

/-- Reset with a configuration. -/
def conf (c : Config) : State := { State.reset with cfg := c }

theorem tickNext_self (s : State) (h : s.env.events = []) : TickNext s s := .inl ⟨h, rfl⟩

/-- The other form: a `Tick` heads the schedule. -/
theorem tickNext_head (s : State) (rest : List Event) (h : s.env.events = .tick :: rest) :
    TickNext s { s with env := { s.env with events := rest } } := .inr ⟨rest, h, rfl⟩

theorem witness_TickNext_head : ∃ s s', TickNext s s' ∧ s.run = .running ∧ s.pc.toNat + 1 < s.memSize :=
  ⟨event .tick State.reset, _, tickNext_head _ [] rfl, by decide⟩

theorem witness_DecodeOfEncode :
    (∃ c : Config, c.enc ≠ Config.default.enc) ∧ (Instr.plane 15).wf = true ∧ (Instr.audio 3).wf = true ∧ (Instr.ldl 0xFFFF).wf = true ∧ (Instr.drw 15 0 15).wf = true :=
  ⟨⟨otherWords, by decide⟩, by decide⟩

theorem witness_EncodeOfDecode : dec 0xF302 = .ok (.audio 3) ∧ dec 0x00DF = .ok (.scu 15) := by decide

/-- An illegal word under each clause, and a word under none, for the defaults and for another choice. -/
theorem witness_IllegalWordsExactly :
    ((fieldO 0x00BF).toNat = 0 ∧ (0x00BF : Word).toNat / 16 ∉ [0x00C, 0x00D]) ∧ (fieldN 0x5FF1).toNat ∉ [0, 2, 3] ∧
    (fieldN 0x800B).toNat ∈ [0x8, 0x9, 0xA, 0xB] ∧ (fieldN 0x900F).toNat ≠ 0 ∧ (fieldNN 0xEF9F).toNat ∉ [0x9E, 0xA1] ∧
    (0xF001 : Word) ≠ 0xF000 ∧ ((fieldNN 0xF402).toNat = 0x02 ∧ (fieldX 0xF402).toNat > 3) ∧ (fieldNN 0xF100).toNat = 0x00 ∧
    ((fieldO 0x1000).toNat = 1 ∧ (0x1000 : Word) ≠ 0xF000) ∧
    otherWords.enc.val.invert = 0xE2 := by decide +kernel

theorem witness_StepRunsTheDecodedInstruction_word :
    TickNext (fetchAt 0xFFE [0x60, 0x12]) (fetchAt 0xFFE [0x60, 0x12]) ∧ (fetchAt 0xFFE [0x60, 0x12]).run = .running ∧
    (fetchAt 0xFFE [0x60, 0x12]).pc.toNat + 1 < (fetchAt 0xFFE [0x60, 0x12]).memSize ∧
    (fetchAt 0xFFE [0x60, 0x12]).readWord 0xFFE ≠ 0xF000 ∧
    decodeWord (fetchAt 0xFFE [0x60, 0x12]).cfg.enc ((fetchAt 0xFFE [0x60, 0x12]).readWord 0xFFE) = .ok (.ldImm 0 0x12) :=
  ⟨tickNext_self _ rfl, by decide⟩

theorem witness_StepRunsTheDecodedInstruction_literal :
    TickNext (fetchAt 0xFFC [0xF0, 0x00, 0x12, 0x34]) (fetchAt 0xFFC [0xF0, 0x00, 0x12, 0x34]) ∧
    (fetchAt 0xFFC [0xF0, 0x00, 0x12, 0x34]).run = .running ∧
    (fetchAt 0xFFC [0xF0, 0x00, 0x12, 0x34]).readWord 0xFFC = 0xF000 ∧
    (0xFFC + 2) % (fetchAt 0xFFC [0xF0, 0x00, 0x12, 0x34]).memSize + 1 < (fetchAt 0xFFC [0xF0, 0x00, 0x12, 0x34]).memSize :=
  ⟨tickNext_self _ rfl, by decide⟩

theorem witness_FetchHalts_first_word :
    TickNext (fetchAt 0xFFF []) (fetchAt 0xFFF []) ∧ (fetchAt 0xFFF []).run = .running ∧
    (fetchAt 0xFFF []).memSize ≤ (fetchAt 0xFFF []).pc.toNat + 1 :=
  ⟨tickNext_self _ rfl, by decide⟩

theorem witness_FetchHalts_second_word :
    TickNext (fetchAt 0xFFD [0xF0, 0x00]) (fetchAt 0xFFD [0xF0, 0x00]) ∧ (fetchAt 0xFFD [0xF0, 0x00]).run = .running ∧
    (fetchAt 0xFFD [0xF0, 0x00]).readWord 0xFFD = 0xF000 ∧
    (fetchAt 0xFFD [0xF0, 0x00]).memSize ≤ (0xFFD + 2) % (fetchAt 0xFFD [0xF0, 0x00]).memSize + 1 :=
  ⟨tickNext_self _ rfl, by decide⟩

theorem witness_FetchHalts_illegal :
    TickNext (prog [0xF001]) (prog [0xF001]) ∧ (prog [0xF001]).readWord 0x200 = 0xF001 ∧
    decodeWord (prog [0xF001]).cfg.enc 0xF001 = .error (.unknownOpcode 0xF001) ∧
    (prog [0x0123]).readWord 0x200 = 0x0123 ∧ decodeWord (prog [0x0123]).cfg.enc 0x0123 = .error (.unknownMachineCode 0x0123) :=
  ⟨tickNext_self _ rfl, by decide⟩

theorem witness_TickWhileStoppedChangesNothing :
    TickNext { State.reset with run := .waitingForKey 3 } { State.reset with run := .waitingForKey 3 } ∧
    ({ State.reset with run := .waitingForKey 3 } : State).run ≠ .running ∧
    TickNext { State.reset with run := .halted .exit } { State.reset with run := .halted .exit } :=
  ⟨tickNext_self _ rfl, by decide, tickNext_self _ rfl⟩

/-- Eleven entries and twelve. -/
theorem witness_CallPushesOrOverflows :
    ({ State.reset with stack := List.replicate 11 0x202 } : State).stack.length < 12 ∧
    12 ≤ ({ State.reset with stack := List.replicate 12 0x202 } : State).stack.length := by decide

theorem witness_ReturnPopsOrUnderflows :
    (({ State.reset with stack := [0xFFF] } : State).stack = 0xFFF :: [] ∧ (0xFFF : Word).toNat < State.reset.memSize) ∧
    State.reset.stack = [] := by decide

theorem witness_RegisterSkips :
    State.reset.pc.toNat + 1 < State.reset.memSize ∧ State.reset.reg 0 = 0 ∧
    (fetchAt 0xFFE []).pc.toNat + 1 < (fetchAt 0xFFE []).memSize ∧
    (fetchAt 0xFFF []).memSize ≤ (fetchAt 0xFFF []).pc.toNat + 1 := by decide

theorem witness_JumpWithOffset :
    State.reset.cfg.qJump = false ∧ (conf { Config.default with qJump := true }).cfg.qJump = true ∧
    (15 : Reg).val = (0xFFF : BitVec 12).toNat / 256 ∧ (0 : Reg).val = (0x0FF : BitVec 12).toNat / 256 := by decide

theorem witness_KeySkips :
    State.reset.cfg.keys ≤ ((State.reset.setReg 0 16).reg 0).toNat ∧
    ((State.reset.setReg 0 15).reg 0).toNat < State.reset.cfg.keys ∧
    ({ State.reset with env := { Env.quiet with keysHeld := some 0x8000 } } : State).env.keysHeld = some 0x8000 := by decide

theorem witness_LogicOperations :
    State.reset.cfg.qLogic = false ∧ (conf { Config.default with qLogic := true }).cfg.qLogic = true ∧ (0 : Reg) ≠ vf := by
  decide

theorem witness_ShiftsByOne :
    0xAA = (if State.reset.cfg.qShift then (State.reset.setReg 1 0xAA).reg 0 else (State.reset.setReg 1 0xAA).reg 1).toNat ∧
    (conf { Config.default with qShift := true }).cfg.qShift = true := by decide

theorem witness_DivideQuotientAndRemainder : (State.reset.reg 0).toNat = 0 ∧ ((State.reset.setReg 0 1).reg 0).toNat ≠ 0 := by
  decide

theorem witness_RandomUnderMask :
    ({ State.reset with env := { Env.quiet with randIn := [0xB7] } } : State).env.randIn = 0xB7 :: [] := by decide

theorem witness_LongLiteralLoadsSixteenBits :
    TickNext (fetchAt 0xFFC [0xF0, 0x00, 0x12, 0x34]) (fetchAt 0xFFC [0xF0, 0x00, 0x12, 0x34]) ∧
    (fetchAt 0xFFC [0xF0, 0x00, 0x12, 0x34]).readByte 0xFFC = 0xF0 ∧
    (fetchAt 0xFFC [0xF0, 0x00, 0x12, 0x34]).readByte 0xFFD = 0x00 ∧
    (0xFFC + 2) % (fetchAt 0xFFC [0xF0, 0x00, 0x12, 0x34]).memSize + 1 < (fetchAt 0xFFC [0xF0, 0x00, 0x12, 0x34]).memSize :=
  ⟨tickNext_self _ rfl, by decide⟩

theorem witness_LongLiteralLoadsSixteenBits_halt :
    TickNext (fetchAt 0xFFD [0xF0, 0x00]) (fetchAt 0xFFD [0xF0, 0x00]) ∧
    (fetchAt 0xFFD [0xF0, 0x00]).pc.toNat + 1 < (fetchAt 0xFFD [0xF0, 0x00]).memSize ∧
    (fetchAt 0xFFD [0xF0, 0x00]).readByte 0xFFD = 0xF0 ∧ (fetchAt 0xFFD [0xF0, 0x00]).readByte 0xFFE = 0x00 ∧
    (fetchAt 0xFFD [0xF0, 0x00]).memSize ≤ (0xFFD + 2) % (fetchAt 0xFFD [0xF0, 0x00]).memSize + 1 :=
  ⟨tickNext_self _ rfl, by decide⟩

theorem witness_BinaryCodedDecimal :
    (atI 0xFFD).i.toNat + 2 < (atI 0xFFD).memSize ∧ (atI 0xFFE).memSize ≤ (atI 0xFFE).i.toNat + 2 := by decide

theorem witness_StoreRegisterBlock :
    (atI 0xFF0).i.toNat + (15 : Reg).val < (atI 0xFF0).memSize ∧
    (atI 0xFF1).memSize ≤ (atI 0xFF1).i.toNat + (15 : Reg).val := by decide

theorem witness_LoadRegisterBlock :
    (atI 0xFFF).i.toNat + (0 : Reg).val < (atI 0xFFF).memSize ∧
    (atI 0x1000).memSize ≤ (atI 0x1000).i.toNat + (0 : Reg).val := by decide

/-- Both directions, and the first address with no room. -/
theorem witness_SaveRegisterRange :
    3 = Nat.dist (3 : Reg).val (1 : Reg).val + 1 ∧ 3 = Nat.dist (1 : Reg).val (3 : Reg).val + 1 ∧
    (atI 0xFFD).i.toNat + 3 - 1 < (atI 0xFFD).memSize ∧ (atI 0xFFE).memSize ≤ (atI 0xFFE).i.toNat + 3 - 1 := by decide

theorem witness_LoadRegisterRange :
    1 = Nat.dist (4 : Reg).val (4 : Reg).val + 1 ∧ (atI 0xFFF).i.toNat + 1 - 1 < (atI 0xFFF).memSize ∧
    (atI 0x1000).memSize ≤ (atI 0x1000).i.toNat + 1 - 1 := by decide

/-- A selected plane and one that is not, the corner of the active region and the cells past it. -/
theorem witness_ClearAndInvert :
    State.reset.Selects 0 ∧ ¬State.reset.Selects 1 ∧ State.reset.Active 31 63 ∧ ¬State.reset.Active 32 63 ∧
    ¬State.reset.Active 31 64 := by
  refine ⟨?_, ?_, ?_, ?_, ?_⟩ <;> first | (unfold State.Selects; decide) | (unfold State.Active; decide)

theorem witness_ScrollsMoveTheActiveRegion : State.reset.Selects 0 ∧ State.reset.Active 0 0 := by
  refine ⟨?_, ?_⟩ <;> first | (unfold State.Selects; decide) | (unfold State.Active; decide)

theorem witness_DrawModeAndPlaneMask : (1 : BitVec 4) ≠ 0 ∧ (15 : BitVec 4) ≠ 0 := by decide

/-- The last place where a sprite's 16 rows of two bytes fit, the first where they do not, and no plane selected. -/
theorem witness_DrawChangesOnlySelectedPlanesAndVF :
    (atI 0xFE0).i.toNat + (atI 0xFE0).drawBytes 0 - 1 < (atI 0xFE0).memSize ∧
    ((atI 0xFE1).drawBytes 0 ≠ 0 ∧ (atI 0xFE1).memSize ≤ (atI 0xFE1).i.toNat + (atI 0xFE1).drawBytes 0 - 1) ∧
    ({ State.reset with planeMask := 0 } : State).drawBytes 0 = 0 := by decide

/-- A sprite of one set bit at (0, 0). -/
def oneBit : State := data 0x300 [0x80] State.reset

theorem witness_oneBit_fits : oneBit.i.toNat + oneBit.drawBytes 1 - 1 < oneBit.memSize := by decide

theorem witness_oneBit_selects : oneBit.Selects 0 := by unfold State.Selects; decide

theorem witness_oneBit_hits : oneBit.SpriteHits 0 1 1 0 0 0 := ⟨0, 0, by decide⟩

theorem witness_DrawComposesTheCellsTheSpriteHits :
    (oneBit.drawBytes 1 = 0 ∨ oneBit.i.toNat + oneBit.drawBytes 1 - 1 < oneBit.memSize) ∧
    (∃ t, exec (.drw 0 1 1) oneBit = .next t) ∧ oneBit.Selects 0 ∧ oneBit.SpriteHits 0 1 1 0 0 0 ∧
    ¬(oneBit.Selects 0 ∧ oneBit.SpriteHits 0 1 1 0 1 0) ∧ ¬(oneBit.Selects 1 ∧ oneBit.SpriteHits 0 1 1 1 0 0) := by
  refine ⟨.inr witness_oneBit_fits, ⟨_, rfl⟩, witness_oneBit_selects, witness_oneBit_hits, ?_,
    fun h => absurd h.1 (by unfold State.Selects; decide)⟩
  rintro ⟨-, r, c, hr, -, -, h⟩
  have hr' : r < 1 := hr
  have h' : 1 = (0 + r) % 32 := h.2
  omega

theorem witness_XorDrawTwiceRestores :
    (0 : Reg) ≠ vf ∧ (1 : Reg) ≠ vf ∧ oneBit.drawMode = .xor ∧
    (oneBit.drawBytes 1 = 0 ∨ oneBit.i.toNat + oneBit.drawBytes 1 - 1 < oneBit.memSize) ∧
    (∃ t u, exec (.drw 0 1 1) oneBit = .next t ∧ exec (.drw 0 1 1) t = .next u ∧ t.reg vf = 0) ∧
    ∃ p ty tx, oneBit.Selects p ∧ oneBit.SpriteHits 0 1 1 p ty tx :=
  ⟨by decide, by decide, rfl, .inr witness_oneBit_fits, ⟨_, _, rfl, rfl, by decide +kernel⟩,
    0, 0, 0, witness_oneBit_selects, witness_oneBit_hits⟩

theorem witness_PaletteLoad :
    (atI 0xFFD).i.toNat + 2 < (atI 0xFFD).memSize ∧ (atI 0xFFE).memSize ≤ (atI 0xFFE).i.toNat + 2 := by decide

theorem witness_KeyWaitAndRelease :
    (event (.keyRelease 9) { State.reset with run := .waitingForKey 15 }).env.events = .keyRelease 9 :: [] ∧
    (event (.keyRelease 9) { State.reset with run := .waitingForKey 15 }).run = .waitingForKey 15 ∧
    (∀ x, (event (.keyRelease 9) State.reset).run ≠ .waitingForKey x) := ⟨rfl, rfl, fun _ h => by cases h⟩

theorem witness_TimerTickCountsDown : (event .timerTick State.reset).env.events = .timerTick :: [] := rfl

/-- The last real voice, and the first number of the null voice. -/
theorem witness_SoundTimerStartsTheSelectedVoice :
    (3 : Fin 4).val = ({ State.reset with sel := 3 } : State).sel.toNat ∧
    (2 : Fin 4).val ≠ ({ State.reset with sel := 3 } : State).sel.toNat ∧
    4 ≤ ({ State.reset with sel := 4 } : State).sel.toNat := by decide

theorem witness_FlagsExportAndImport :
    ({ State.reset with env := { Env.quiet with flagsIn := [some (Vector.replicate 16 1)] } } : State).env.flagsIn =
      some (Vector.replicate 16 1) :: [] ∧
    ({ State.reset with env := { Env.quiet with flagsIn := [none] } } : State).env.flagsIn = none :: [] := ⟨rfl, rfl⟩

theorem witness_VoiceControls : 4 ≤ ({ State.reset with sel := 4 } : State).sel.toNat ∧ State.reset.sel.toNat < 4 := by
  decide

/-- The last place where a pattern of 16 bytes fits, the first where it does not, and the first `M` that is illegal. -/
theorem witness_PatternLoadUnpacks :
    16 = State.reset.cfg.patternBytes.val ∧ ((3 : BitVec 4).toNat ≤ 3 ∧ (atI 0xFF0).i.toNat + 16 - 1 < (atI 0xFF0).memSize) ∧
    (atI 0xFF1).memSize ≤ (atI 0xFF1).i.toNat + 16 - 1 ∧ 3 < (4 : BitVec 4).toNat := by decide

theorem witness_PitchLawIsExact :
    (∃ real : Phase → ℝ, ∀ u, real u = ∑ j : Fin 48, (u[j.val] : ℝ) * (2 : ℝ) ^ ((j.val : ℝ) / 48)) ∧
    Voice.initial.buf ≠ [] ∧ (Config.default.ss = none ∧
      ({ Config.default with ss := some 0 } : Config).ss = some 0) :=
  ⟨⟨_, fun _ => rfl⟩, by decide⟩

/-- One voice active and three expired; a queue from which one chunk is dropped and the next is not. -/
theorem witness_RenderAppendsOneChunk :
    (event (.render 4) State.reset).env.events = .render 4 :: [] ∧ (∀ k : Fin 4, State.reset.voices[k].count = 0) ∧
    (State.reset.voices.set 0 { Voice.initial with count := 1 })[(0 : Fin 4)].count ≠ 0 ∧
    (∃ after : Voice → Nat → Dsp → Dsp, ∀ q n, after q n = (superStep State.reset.cfg q)^[supersample State.reset.cfg * n]) ∧
    ∀ a b c : Chunk, a.remaining = 8 → b.remaining = 4 → c.remaining = 4 → trim 10 ([a, b] ++ [c]) = [b, c] ∧
      [a, b] ++ [c] = [] ++ a :: [b, c] ∧ 10 < ((a :: [b, c]).map Chunk.remaining).sum ∧
      ((([b, c] : List Chunk).map Chunk.remaining).sum ≤ 10) :=
  ⟨rfl, by decide, by decide, ⟨_, fun _ _ => rfl⟩, fun a b c ha hb hc => by simp [trim, buffered, ha, hb, hc]⟩

theorem witness_PullTakesTheWaitingSamples :
    (event (.pull 4) { State.reset with queue := [⟨[smp 1, smp 2, smp 3], [smp 4, smp 5, smp 6], 1, 2⟩] }).env.events = .pull 4 :: [] ∧
    (∀ c ∈ (event (.pull 4) { State.reset with queue := [⟨[smp 1, smp 2, smp 3], [smp 4, smp 5, smp 6], 1, 2⟩] }).queue, c.Ok) ∧
    (∀ q : List Chunk, (fun q : List Chunk => q.flatMap fun c => c.l.drop c.rd) q = q.flatMap fun c => c.l.drop c.rd) :=
  ⟨rfl, fun c hc => by cases (List.mem_singleton.1 hc); exact ⟨rfl, rfl⟩, fun _ => rfl⟩

/-- A program of the greatest length. -/
theorem witness_InitResetsTheCore : ∃ (program : List Byte) (s : State),
    s.env.events = .init program Config.default :: [] ∧ program.length = 0xE00 ∧
    program.length ≤ Config.default.maxProgramSize ∧
    program.length ≤ (if Config.default.extended then 0x10000 else 0x1000) - 0x200 := by
  have key : ∀ p : List Byte, p.length = 0xE00 → ∃ (program : List Byte) (s : State),
      s.env.events = .init program Config.default :: [] ∧ program.length = 0xE00 ∧
      program.length ≤ Config.default.maxProgramSize ∧
      program.length ≤ (if Config.default.extended then 0x10000 else 0x1000) - 0x200 := fun p hp =>
    ⟨p, event (.init p Config.default) State.reset, rfl, hp, by rw [hp]; decide, by rw [hp]; decide⟩
  exact key _ (List.length_replicate (a := 0))

/-- One byte more than memory holds, and one more than a lower limit. -/
theorem witness_InitRefusesALongProgram :
    (∃ program : List Byte, (if Config.default.extended then 0x10000 else 0x1000) - 0x200 < program.length) ∧
    ({ Config.default with maxProgramSize := 2 } : Config).maxProgramSize < ([1, 2, 3] : List Byte).length ∧
    (event (.init [1, 2, 3] { Config.default with maxProgramSize := 2 }) State.reset).env.events =
      .init [1, 2, 3] { Config.default with maxProgramSize := 2 } :: [] := by
  refine ⟨⟨List.replicate 0xE01 0, ?_⟩, by decide, rfl⟩
  rw [List.length_replicate]
  decide

/-- A state with a byte in memory, an entry on the stack and `pc` at the last word. -/
def midRun : State := { State.reset with mem := [(0x300, 0x12)], stack := [0xFFF], pc := 0xFFE }

theorem midRun_inv : midRun.Inv where
  pc_lt := by decide
  depth_le := by decide
  stack_lt := fun a ha => by
    have h : a = 0xFFF := List.mem_singleton.1 ha
    subst h
    decide
  mem_wf := by decide +kernel
  mask_ne := by decide
  lores := fun _ p y x _ => cell_replicate p y x
  voices_ok := fun q hq => by
    have h : q ∈ (Vector.replicate 4 Voice.initial).toList := hq
    have h' : q = Voice.initial := by simpa using h
    subst h'
    exact ⟨.inl rfl, fun j _ => by simp [Voice.initial, Dsp.zero], fun j _ => by simp [Voice.initial, Dsp.zero]⟩
  queue_ok := fun c hc => by cases hc

theorem witness_EveryStepKeepsTheInvariant : midRun.Inv ∧ ∃ t, step midRun = .next t := ⟨midRun_inv, _, rfl⟩

theorem witness_WritersOfMemoryStackAndConfiguration :
    (∃ t, exec .cls State.reset = .next t) ∧ (∀ x, Instr.cls ≠ .ldB x) ∧ (∀ x, Instr.cls ≠ .storeRegs x) ∧
    (∀ x y, Instr.cls ≠ .save x y) ∧ (∀ n, Instr.cls ≠ .call n) ∧ Instr.cls ≠ .ret := by
  refine ⟨⟨_, rfl⟩, fun _ h => ?_, fun _ h => ?_, fun _ _ h => ?_, fun _ h => ?_, by decide⟩ <;> cases h

/-- FX65 under the load/store quirk alone leaves `I`. -/
theorem witness_WritersOfTheControlState :
    (∃ t, exec (.loadRegs 0) State.reset = .next t) ∧ (∀ n, Instr.loadRegs 0 ≠ .ldI n) ∧ (∀ n, Instr.loadRegs 0 ≠ .ldl n) ∧
    (∀ x, Instr.loadRegs 0 ≠ .addI x ∧ Instr.loadRegs 0 ≠ .ldF x ∧ Instr.loadRegs 0 ≠ .ldHf x) ∧
    (conf { Config.default with qLoadStore := true }).cfg.qLoadStore ≠ false ∧
    (State.reset.cfg.qLoadStore = false ∧ ∀ x, Instr.cls ≠ .storeRegs x ∧ Instr.cls ≠ .loadRegs x) := by
  refine ⟨⟨_, rfl⟩, fun _ h => ?_, fun _ h => ?_, fun _ => ⟨fun h => ?_, fun h => ?_, fun h => ?_⟩, by decide, rfl,
    fun _ => ⟨fun h => ?_, fun h => ?_⟩⟩ <;> cases h

theorem witness_HaltsArePrecise :
    State.reset.run = .running ∧
    ∃ t r, exec .ret State.reset = .next t ∧ t.run = .halted r ∧ r ≠ .exit :=
  ⟨rfl, _, .stackUnderflow 0x200, rfl, by decide⟩

/-- A halted core that takes no `Init`, and one that does. -/
theorem witness_HaltedUntilInit :
    (({ State.reset with run := .halted .exit } : State).run = .halted .exit ∧
      ∃ t, step { State.reset with run := .halted .exit } = .next t) ∧
    ∃ t, step (event (.init [] Config.default) { State.reset with run := .halted .exit }) = .next t :=
  ⟨⟨rfl, _, rfl⟩, _, (step_of_event rfl).trans (by simp only [deliver]; rw [if_pos (by decide)])⟩

end Sys2Proof.Tests
end

/-! PROOFS. The invariant of 10_state.md R51 holds after reset and every step keeps it; what a `Tick` does to a stopped core
(R39) and a `TimerTick` to any (R42). The invariant is carried by one rule per operation of the model, then arm by arm through
`exec`, then event by event through `step`. -/

namespace Sys2Proof.Machine

variable {s : State}

/-! ## Each operation keeps the invariant -/

/-- The invariant reads neither the registers, `I`, the timers, `RUN`, the draw mode, the palette, the flags, `SEL` nor the
environment's side. -/
theorem State.Inv.of_unread (h : s.Inv) (v : Vector Byte 16) (i : Word) (dt st : Byte) (run : RunState) (mode : DrawMode)
    (pal : Vector Rgb 16) (flags : FlagVec) (sel : Byte) (env : Env) :
    State.Inv { s with v, i, dt, st, run, drawMode := mode, pal, flags, sel, env } := { h with }

theorem State.Inv.setReg (h : s.Inv) (x : Reg) (b : Byte) : (s.setReg x b).Inv := h.of_unread ..
theorem State.Inv.setI (h : s.Inv) (a : Word) : (s.setI a).Inv := h.of_unread ..
theorem State.Inv.setDt (h : s.Inv) (b : Byte) : (s.setDt b).Inv := h.of_unread ..
theorem State.Inv.setSt (h : s.Inv) (b : Byte) : (s.setSt b).Inv := h.of_unread ..
theorem State.Inv.setRun (h : s.Inv) (r : RunState) : (s.setRun r).Inv := h.of_unread ..
theorem State.Inv.setDrawMode (h : s.Inv) (m : DrawMode) : (s.setDrawMode m).Inv := h.of_unread ..
theorem State.Inv.setPal (h : s.Inv) (p : Vector Rgb 16) : (s.setPal p).Inv := h.of_unread ..
theorem State.Inv.setFlags (h : s.Inv) (f : FlagVec) : (s.setFlags f).Inv := h.of_unread ..
theorem State.Inv.setSel (h : s.Inv) (b : Byte) : (s.setSel b).Inv := h.of_unread ..
theorem State.Inv.setEnv (h : s.Inv) (e : Env) : (s.setEnv e).Inv := h.of_unread ..
theorem State.Inv.emit (h : s.Inv) (o : Output) : (s.emit o).Inv := h.setEnv _
theorem State.Inv.raiseHalt (h : s.Inv) (r : HaltReason) : (raiseHalt r s).Inv := h.setRun _

theorem State.Inv.setResultFlag (h : s.Inv) (x : Reg) (rf : Byte × Byte) : (s.setResultFlag x rf).Inv :=
  (h.setReg _ _).setReg _ _

theorem State.Inv.setLogic (h : s.Inv) (x : Reg) (r : Byte) : (s.setLogic x r).Inv := by
  rw [setLogic_fields]
  exact h.of_unread ..

theorem State.Inv.loadFrom (h : s.Inv) (rs : List Reg) (a : Nat) : (s.loadFrom rs a).Inv := by
  rw [loadFrom_fields]
  exact h.of_unread ..

theorem State.Inv.advanceI (h : s.Inv) (n : Nat) : (State.advanceI n s).Inv := by
  rw [advanceI_fields]
  exact h.of_unread ..

theorem State.Inv.saveFlags (h : s.Inv) (rs : List Reg) : (rs.foldl State.saveFlag s).Inv := by
  rw [foldl_saveFlag_fields]
  exact h.of_unread ..

theorem State.Inv.restoreFlags (h : s.Inv) (rs : List Reg) : (rs.foldl State.restoreFlag s).Inv := by
  rw [foldl_restoreFlag_fields]
  exact h.of_unread ..

/-- A write of `pc` is reduced modulo `MEMSIZE`, so any target will do (10 R23). -/
theorem State.Inv.setPc (h : s.Inv) (a : Nat) : (s.setPc a).Inv := { h with pc_lt := pc_setPc_lt s a }

theorem State.Inv.setStack (h : s.Inv) {l : List Word} (hd : l.length ≤ Config.stackMax)
    (hl : ∀ a ∈ l, a.toNat < s.memSize) : (s.setStack l).Inv := { h with depth_le := hd, stack_lt := hl }

theorem State.Inv.setPlaneMask (h : s.Inv) {n : BitVec 4} (hn : n ≠ 0) : (s.setPlaneMask n).Inv := { h with mask_ne := hn }

theorem State.Inv.setQueue (h : s.Inv) {q : List Chunk} (hq : ∀ c ∈ q, c.Ok) : (s.setQueue q).Inv := { h with queue_ok := hq }

theorem State.Inv.setVoices (h : s.Inv) {vs : Vector Voice 4} (hv : ∀ q ∈ vs.toList, q.Ok s.cfg) : (s.setVoices vs).Inv :=
  { h with voices_ok := hv }

/-- A rewrite of all voices, each kept well formed. -/
theorem State.Inv.mapVoices (h : s.Inv) {f : Voice → Voice} (hf : ∀ q, q.Ok s.cfg → (f q).Ok s.cfg) :
    (s.setVoices (s.voices.map f)).Inv :=
  h.setVoices fun q hq => by
    rw [Vector.toList_map, List.mem_map] at hq
    obtain ⟨q, hq, rfl⟩ := hq
    exact hf q (h.voices_ok q hq)

theorem State.Inv.updateVoice (h : s.Inv) {f : Voice → Voice} (hf : ∀ q, q.Ok s.cfg → (f q).Ok s.cfg) :
    (s.updateVoice f).Inv := by
  unfold State.updateVoice
  split
  · refine h.setVoices fun q hq => ?_
    rcases Vector.mem_or_eq_of_mem_set (Vector.mem_toList_iff.1 hq) with hq | rfl
    · exact h.voices_ok q (Vector.mem_toList_iff.2 hq)
    · exact hf _ (h.voices_ok _ (Vector.mem_toList_iff.2 (Vector.getElem_mem _)))
  · exact h

/-- A guarded access keeps the invariant if what it guards does. -/
theorem State.Inv.withRange (h : s.Inv) {a n : Nat} {t : State} (ht : n = 0 ∨ a + n - 1 < s.memSize → t.Inv) :
    (s.withRange a n t).Inv := by
  rcases withRange_cases s a n t with ⟨e, hr⟩ | ⟨e, -, -⟩ <;> rw [e]
  · exact ht hr
  · exact h.raiseHalt _

/-- A multi-byte store that passed the range check (20 R64). -/
theorem State.Inv.writeBytes (h : s.Inv) {a : Nat} {bs : List Byte} (hr : bs.length = 0 ∨ a + bs.length - 1 < s.memSize) :
    (s.writeBytes a bs).Inv := by
  have hm : Memory.wf s.cfg (s.writeBytes a bs).mem = true := by
    by_cases hb : bs = []
    · rw [hb]
      exact h.mem_wf
    · have := List.length_pos_iff.2 hb
      exact writeBytes_wf s a bs (by omega) h.mem_wf
  rw [writeBytes_fields]
  exact { h with mem_wf := hm }

theorem State.Inv.skipIf (h : s.Inv) (c : Bool) : (skipIf c s).Inv := by
  cases c
  · exact h
  · exact h.withRange fun _ => h.setPc _

theorem State.Inv.storeAtI (h : s.Inv) (rs : List Reg) {next : State → State} (hn : ∀ {t : State}, t.Inv → (next t).Inv) :
    (s.storeAtI rs next).Inv :=
  h.withRange fun hr => hn (h.writeBytes (by rwa [List.length_map]))

theorem State.Inv.loadAtI (h : s.Inv) (rs : List Reg) {next : State → State} (hn : ∀ {t : State}, t.Inv → (next t).Inv) :
    (s.loadAtI rs next).Inv :=
  h.withRange fun _ => hn (h.loadFrom _ _)

/-! ### The planes: in low resolution nothing outside the active region is set (10 R32) -/

theorem not_active_of_lores (hh : s.hires = false) {y x : Nat} (ho : y ≥ s.cfg.loresH ∨ x ≥ s.cfg.loresW) :
    ¬s.Active y x := by
  simp only [State.Active, State.height, State.width, hh, Bool.false_eq_true, if_false]
  omega

/-- New planes keep the invariant if outside the active region a cell is set only where it was. -/
theorem State.Inv.setPlanes (h : s.Inv) {ps : Planes}
    (hp : ∀ p y x, ¬s.Active y x → cell ps p y x = true → cell s.planes p y x = true) : (s.setPlanes ps).Inv :=
  { h with
    lores := fun hh p y x ho => by
      rw [← Bool.not_eq_true]
      intro hc
      exact Bool.false_ne_true ((h.lores hh p y x ho).symm.trans (hp p y x (not_active_of_lores hh ho) hc)) }

theorem State.Inv.mapActive (h : s.Inv) (f : (Nat → Nat → Bool) → Nat → Nat → Bool) : (s.mapActive f).Inv :=
  h.setPlanes fun p y x ha hc => by
    have e := cell_mapActive s f p y x
    rw [if_neg fun hs => ha hs.2] at e
    exact e.symm.trans hc

theorem State.Inv.clearSelected (h : s.Inv) : (s.mapSelected fun _ _ _ => false).Inv :=
  h.setPlanes fun p y x _ hc => by
    have e := (cell_mapSelected s (fun _ _ _ => false) p y x).symm.trans hc
    split at e
    · cases e
    · exact e

/-- A switch of the resolution clears every cell (43 R180). -/
theorem State.Inv.clearHires (h : s.Inv) (b : Bool) : (s.setHires b).clearAll.Inv :=
  { h with lores := fun _ p y x _ => cell_clearAll (s.setHires b) p y x }

/-- A sprite falls on the active region only (43 R190). -/
theorem active_of_spriteHits {x y : Reg} {n : BitVec 4} {p ty tx : Nat} (h : s.SpriteHits x y n p ty tx) :
    s.Active ty tx :=
  planeHits_active s n _ _ _ (ty, tx) ((mem_planeHits_iff s x y n p ty tx).2 h)

theorem State.Inv.setDrawn (h : s.Inv) (x y : Reg) (n : BitVec 4) : (s.setPlanes (s.drawn x y n).1).Inv :=
  h.setPlanes fun p ty tx ha hc => by
    rw [(drawn_spec s x y n).1, if_neg fun hs => ha (active_of_spriteHits hs.2)] at hc
    exact hc

/-! ### The voices -/

/-- The waveform of a loaded pattern: `8 / 2^M` samples a byte (45 R223). -/
theorem Voice.Ok.setBuf_unpack {c : Config} {q : Voice} (hq : q.Ok c) {pat : List Byte} {m : BitVec 4} (hm : m ≤ 3)
    (hp : pat.length = c.patternBytes) : Voice.Ok c { q with buf := unpack pat (2 ^ m.toNat) } := by
  obtain ⟨-, hl, hr⟩ := hq
  have hk : ∀ m : BitVec 4, m ≤ 3 → 8 / 2 ^ m.toNat ∈ [1, 2, 4, 8] := by decide
  exact ⟨.inr ⟨_, hk m hm, by rw [length_unpack, hp]⟩, hl, hr⟩

theorem Voice.Ok.start {c : Config} {q : Voice} (hq : q.Ok c) (b : Byte) : (startVoice b q).Ok c := by
  unfold startVoice
  split
  · exact ⟨hq.1, phaseOk_zero, phaseOk_zero⟩
  · exact hq

theorem length_readBytes (s : State) (a n : Nat) : (s.readBytes a n).length = n := by simp [State.readBytes]

/-! ## Every instruction keeps the invariant -/

/-- If there is a next state, it meets the invariant. -/
def NextInv (o : Host.Outcome State Fault Refusal) : Prop := ∀ t, o = .next t → t.Inv

theorem nextInv_next {t : State} (h : t.Inv) : NextInv (.next t) := by
  rintro _ ⟨⟩
  exact h

theorem execCall_inv (h : s.Inv) (nnn : BitVec 12) : NextInv (execCall nnn s) := by
  refine nextInv_next ?_
  split
  · exact h.raiseHalt _
  · next hd =>
    refine (h.setStack ?_ ?_).setPc _
    · rw [List.length_cons]
      omega
    · exact List.forall_mem_cons.2 ⟨h.pc_lt, h.stack_lt⟩

theorem execRet_inv (h : s.Inv) : NextInv (execRet s) := by
  refine nextInv_next ?_
  split
  · exact h.raiseHalt _
  · next t rest e =>
    have hd := h.depth_le
    have hl := h.stack_lt
    rw [e] at hd hl
    exact (h.setStack (Nat.le_of_succ_le hd) (List.forall_mem_cons.1 hl).2).setPc _

theorem execPlane_inv (h : s.Inv) (n : BitVec 4) : NextInv (execPlane n s) := by
  refine nextInv_next ?_
  split
  · exact h.raiseHalt _
  · next hn => exact h.setPlaneMask hn

theorem execAudio_inv (h : s.Inv) (m : BitVec 4) : NextInv (execAudio m s) := by
  refine nextInv_next ?_
  split
  · next hm => exact h.withRange fun _ => (h.emit _).updateVoice fun q hq => hq.setBuf_unpack hm (length_readBytes _ _ _)
  · exact h.raiseHalt _

/-- Arm by arm: the rules above composed as the instruction composes the operations. -/
theorem exec_inv (h : s.Inv) (i : Instr) : NextInv (exec i s) := by
  cases i with
  | scd | scu | inv | scr | scl => exact nextInv_next (h.mapActive _)
  | cls => exact nextInv_next h.clearSelected
  | low | high => exact nextInv_next (h.clearHires _)
  | dmor | dmand | dmxor => exact nextInv_next (h.setDrawMode _)
  | plane n => exact execPlane_inv h n
  | drw x y n => exact nextInv_next (h.withRange fun _ => (h.setDrawn x y n).setReg _ _)
  | pal => exact nextInv_next (h.withRange fun _ => h.setPal _)
  | jp | jpOff => exact nextInv_next (h.setPc _)
  | call nnn => exact execCall_inv h nnn
  | ret => exact execRet_inv h
  | seImm | sneImm | seReg | sneReg => exact nextInv_next (h.skipIf _)
  | skp | sknp => exact nextInv_next ((h.setEnv _).skipIf _)
  | ldImm | addImm | ldReg | ldVxDt => exact nextInv_next (h.setReg _ _)
  | or | and | xor => exact nextInv_next (h.setLogic _ _)
  | addReg | sub | shr | subn | mul | div | shl | divn => exact nextInv_next (h.setResultFlag _ _)
  | rnd => exact nextInv_next ((h.setEnv _).setReg _ _)
  | ldI | ldl | addI | ldF | ldHf => exact nextInv_next (h.setI _)
  | ldB => exact nextInv_next (h.withRange fun hr => h.writeBytes hr)
  | storeRegs => exact nextInv_next (h.storeAtI _ (·.advanceI _))
  | loadRegs => exact nextInv_next (h.loadAtI _ (·.advanceI _))
  | save => exact nextInv_next (h.storeAtI _ id)
  | load => exact nextInv_next (h.loadAtI _ id)
  | exit => exact nextInv_next ((h.emit _).raiseHalt _)
  | ldVxK => exact nextInv_next (h.setRun _)
  | ldDtVx => exact nextInv_next (h.setDt _)
  | ldStVx => exact nextInv_next (((h.setSt _).emit _).updateVoice fun q hq => hq.start _)
  | flagsOut => exact nextInv_next ((h.saveFlags _).emit _)
  | flagsIn => exact nextInv_next (((h.setEnv _).setFlags _).restoreFlags _)
  | voice => exact nextInv_next ((h.setSel _).emit _)
  | audio m => exact execAudio_inv h m
  | pitch | vol | chan => exact nextInv_next ((h.emit _).updateVoice fun q hq => hq)

/-! ## Every event keeps the invariant -/

theorem fetch_inv (h : s.Inv) : (fetch s).1.Inv := by
  rcases fetch_cases s with ⟨_, -, -, -, e⟩ | ⟨_, -, -, -, e⟩ | ⟨_, -, -, -, -, e⟩ | ⟨_, -, -, -, -, e⟩ | ⟨-, e⟩ <;> rw [e]
  · exact h.setPc _
  · exact (h.setPc _).raiseHalt _
  · exact (h.setPc _).setPc _
  · exact (h.setPc _).raiseHalt _
  · exact h.raiseHalt _

theorem tick_inv (h : s.Inv) : NextInv (tick s) := by
  by_cases hr : s.run = .running
  · have hf := fetch_inv h
    rcases e : fetch s with ⟨t, _ | i⟩ <;> rw [e] at hf
    · rw [tick_of_fetch_none hr e]
      exact nextInv_next hf
    · rw [tick_of_fetch_some hr e]
      exact exec_inv hf i
  · rw [tick_of_not_running hr]
    exact nextInv_next h

theorem Voice.initial_ok (c : Config) : Voice.initial.Ok c := ⟨.inl List.length_replicate, phaseOk_zero, phaseOk_zero⟩

theorem State.initial_inv (c : Config) (e : Env) : (State.initial c e).Inv where
  pc_lt := Nat.lt_of_lt_of_le (by decide : 0x200 < 4096) (le_memSize _)
  depth_le := Nat.zero_le _
  stack_lt := List.forall_mem_nil _
  mem_wf := memory_wf_nil c
  mask_ne := (by decide : (1 : BitVec 4) ≠ 0)
  lores := fun _ p y x _ => cell_replicate p y x
  voices_ok := fun q hq => by
    rw [Vector.mem_toList_iff] at hq
    rw [Vector.eq_of_mem_replicate hq]
    exact Voice.initial_ok c
  queue_ok := List.forall_mem_nil _

theorem initCore_inv {program : List Byte} {c : Config} (ha : initAccepts program c = true) (s : State) :
    (initCore program c s).Inv := by
  simp only [initAccepts, Config.programOrigin, Bool.and_eq_true, decide_eq_true_eq] at ha
  have hm : 4096 ≤ memSize c := le_memSize (State.initial c s.env)
  refine (State.initial_inv c s.env).writeBytes (.inr ?_)
  change 0x200 + program.length - 1 < memSize c
  omega

theorem State.Inv.timerTick (h : s.Inv) : (timerTick s).Inv := ((h.setDt _).setSt _).mapVoices fun _ hq => hq

theorem State.Inv.keyRelease (h : s.Inv) (code : Byte) : (keyRelease code s).Inv := by
  unfold Machine.keyRelease
  split
  · exact (h.setReg _ _).setRun _
  · exact h
  · exact h

/-- Trimming only drops chunks (45 R252). -/
theorem mem_of_mem_trim {target : Nat} {q : List Chunk} {c k : Chunk} (hk : k ∈ trim target (q ++ [c])) : k ∈ q ++ [c] := by
  obtain ⟨dropped, e, -⟩ := trim_spec target q c
  rw [e]
  exact List.mem_append_right _ hk

/-- The chunk a `Render` appends has `d` samples a channel, none of them read (45 R250). -/
theorem rendered_ok (c : Config) (d : Nat) (vs : Vector Voice 4) :
    Chunk.Ok ⟨mix d ((vs.map (renderVoice c d)).toList.map (·.1.1)), mix d ((vs.map (renderVoice c d)).toList.map (·.1.2)),
      0, d⟩ := by
  have hl : ∀ p ∈ (vs.map (renderVoice c d)).toList, p.1.1.length = d ∧ p.1.2.length = d := by
    rw [Vector.toList_map, List.forall_mem_map]
    exact fun q _ => length_renderVoice c d q
  have hz := (Nat.zero_add d).symm
  exact ⟨(length_mix d _ (List.forall_mem_map.2 fun p hp => (hl p hp).1)).trans hz,
    (length_mix d _ (List.forall_mem_map.2 fun p hp => (hl p hp).2)).trans hz⟩

theorem State.Inv.renderEvent (h : s.Inv) (d : Nat) : (renderEvent d s).Inv := by
  unfold Machine.renderEvent
  dsimp only
  rw [Vector.map_map]
  refine (h.mapVoices fun q hq => renderVoice_ok s.cfg d q hq).setQueue fun c hc => ?_
  rcases List.mem_append.1 (mem_of_mem_trim hc) with hc | hc
  · exact h.queue_ok c hc
  · rw [List.mem_singleton.1 hc]
    exact rendered_ok s.cfg d s.voices

theorem State.Inv.pullEvent (h : s.Inv) (n : Nat) : (pullEvent n s).Inv := by
  obtain ⟨-, -, -, -, hq⟩ := pullFrom_spec n s.queue h.queue_ok
  exact (h.setQueue hq).emit _

theorem deliver_inv (h : s.Inv) (e : Event) : NextInv (deliver e s) := by
  cases e with
  | init program c =>
    simp only [deliver]
    split
    · next ha => exact nextInv_next (initCore_inv ha s)
    · rintro t ⟨⟩
  | tick => exact tick_inv h
  | timerTick => exact nextInv_next h.timerTick
  | keyRelease code => exact nextInv_next (h.keyRelease code)
  | keys held => exact nextInv_next (h.setEnv _)
  | render d => exact nextInv_next (h.renderEvent d)
  | pull n => exact nextInv_next (h.pullEvent n)

/-- The invariant of 10 R51 along a step. -/
theorem step_inv (h : s.Inv) : NextInv (step s) := by
  unfold step
  split
  · exact tick_inv h
  · exact deliver_inv (h.setEnv _) _

/-! ## What a `TimerTick` does (10 R42) -/

/-- A countdown stops at 0 (10 R42, D16). -/
theorem countDown_toNat (b : Byte) : (countDown b).toNat = b.toNat - 1 := by revert b; decide

theorem voices_timerTick (k : Fin 4) :
    (timerTick s).voices[k] = { s.voices[k] with count := countDown s.voices[k].count } := by
  simp [timerTick]

/-! ## The obligations -/

/-- Settles O55: `step_inv`, which goes event by event and, for a `Tick`, instruction by instruction. -/
theorem everyStepKeepsTheInvariant : Obligations.EveryStepKeepsTheInvariant := fun _ t h => step_inv h t

/-- Settles O54: the reset state is the initial state of the default configuration. -/
theorem resetMeetsTheInvariant : Obligations.ResetMeetsTheInvariant := State.initial_inv _ _

/-- Settles O8: the step is `tick` of the state with the event taken off, and `tick` acts only while running. -/
theorem tickWhileStoppedChangesNothing : Obligations.TickWhileStoppedChangesNothing := fun _ _ h hr =>
  (step_of_tickNext h).trans (tick_of_not_running (by rwa [tickNext_run h]))

/-- Settles O42: `timerTick` writes the timers and the voices' counts, each by `countDown`. -/
theorem timerTickCountsDown : Obligations.TimerTickCountsDown := fun _ _ h =>
  ⟨_, step_of_event h, countDown_toNat _, countDown_toNat _, fun k => by
    rw [voices_timerTick]
    exact ⟨countDown_toNat _, rfl⟩, rfl⟩

end Sys2Proof.Machine

/-! PROOFS. Which instructions write memory (20_memory.md R61), the call stack (10_state.md R24) and the configuration (R48).
What an instruction may write is carried through the operations it is composed of, then arm by arm through `exec`. -/

namespace Sys2Proof.Machine

variable {s t u : State} {wm ws : Bool}

/-! ## The writers, and what an instruction that is none leaves alone -/

/-- The three stores FX33, FX55 and 5XY2, the only instructions that write memory (20 R61). -/
def storesMemory : Instr → Bool
  | .ldB _ | .storeRegs _ | .save _ _ => true
  | _ => false

/-- The call and the return, the only instructions that write the stack (10 R24). -/
def writesStack : Instr → Bool
  | .call _ | .ret => true
  | _ => false

theorem storesMemory_eq_false {i : Instr} (hb : ∀ x, i ≠ .ldB x) (hr : ∀ x, i ≠ .storeRegs x) (hs : ∀ x y, i ≠ .save x y) :
    storesMemory i = false := by
  cases i with
  | ldB x => exact absurd rfl (hb x)
  | storeRegs x => exact absurd rfl (hr x)
  | save x y => exact absurd rfl (hs x y)
  | _ => rfl

theorem writesStack_eq_false {i : Instr} (hc : ∀ nnn, i ≠ .call nnn) (hr : i ≠ .ret) : writesStack i = false := by
  cases i with
  | call nnn => exact absurd rfl (hc nnn)
  | ret => exact absurd rfl hr
  | _ => rfl

/-- From `s` to `t` the configuration stays, memory stays unless `wm` allows its writing, the stack stays unless `ws` does. -/
structure StorageFrame (wm ws : Bool) (s t : State) : Prop where
  cfg : t.cfg = s.cfg
  mem : wm = false → t.mem = s.mem
  stack : ws = false → t.stack = s.stack

/-! ## One rule per operation -/

/-- An operation that writes none of the three may stand in any instruction. -/
theorem StorageFrame.of_eq (hc : t.cfg = s.cfg) (hm : t.mem = s.mem) (hs : t.stack = s.stack) : StorageFrame wm ws s t :=
  ⟨hc, fun _ => hm, fun _ => hs⟩

theorem StorageFrame.trans (h : StorageFrame wm ws s t) (h' : StorageFrame wm ws t u) : StorageFrame wm ws s u :=
  ⟨h'.cfg.trans h.cfg, fun e => (h'.mem e).trans (h.mem e), fun e => (h'.stack e).trans (h.stack e)⟩

/-- Before an operation within the frame there may stand one that writes none of the three. -/
theorem StorageFrame.after (h : StorageFrame wm ws t u) (hc : t.cfg = s.cfg) (hm : t.mem = s.mem) (hs : t.stack = s.stack) :
    StorageFrame wm ws s u :=
  (StorageFrame.of_eq hc hm hs).trans h

/-- A guarded access halts, which writes `RUN` only, or does what it guards. -/
theorem StorageFrame.withRange (h : StorageFrame wm ws s t) (a n : Nat) : StorageFrame wm ws s (s.withRange a n t) := by
  rcases withRange_cases s a n t with ⟨e, -⟩ | ⟨e, -, -⟩ <;> rw [e]
  · exact h
  · exact .of_eq rfl rfl rfl

theorem skipIf_storageFrame (s : State) (c : Bool) : StorageFrame wm ws s (skipIf c s) :=
  .of_eq (skipIf_cfg s c) (skipIf_mem s c) (skipIf_stack s c)

theorem setLogic_storageFrame (s : State) (x : Reg) (r : Byte) : StorageFrame wm ws s (s.setLogic x r) :=
  .of_eq (setLogic_cfg s x r) (setLogic_mem s x r) (setLogic_stack s x r)

theorem updateVoice_storageFrame (s : State) (f : Voice → Voice) : StorageFrame wm ws s (s.updateVoice f) :=
  .of_eq (updateVoice_cfg s f) (updateVoice_mem s f) (updateVoice_stack s f)

theorem advanceI_storageFrame (s : State) (n : Nat) : StorageFrame wm ws s (State.advanceI n s) :=
  .of_eq (advanceI_cfg s n) (advanceI_mem s n) (advanceI_stack s n)

theorem loadFrom_storageFrame (s : State) (rs : List Reg) (a : Nat) : StorageFrame wm ws s (s.loadFrom rs a) :=
  .of_eq (loadFrom_cfg s rs a) (loadFrom_mem s rs a) (loadFrom_stack s rs a)

theorem saveFlags_storageFrame (s : State) (rs : List Reg) : StorageFrame wm ws s (rs.foldl State.saveFlag s) :=
  .of_eq (foldl_saveFlag_cfg s rs) (foldl_saveFlag_mem s rs) (foldl_saveFlag_stack s rs)

theorem restoreFlags_storageFrame (s : State) (rs : List Reg) : StorageFrame wm ws s (rs.foldl State.restoreFlag s) :=
  .of_eq (foldl_restoreFlag_cfg s rs) (foldl_restoreFlag_mem s rs) (foldl_restoreFlag_stack s rs)

/-- The one operation that writes memory. -/
theorem writeBytes_storageFrame (s : State) (a : Nat) (bs : List Byte) : StorageFrame true ws s (s.writeBytes a bs) :=
  ⟨writeBytes_cfg s a bs, nofun, fun _ => writeBytes_stack s a bs⟩

/-! ## Every instruction -/

/-- If there is a next state, it is within the frame. -/
def NextStorageFrame (wm ws : Bool) (s : State) (o : Host.Outcome State Fault Refusal) : Prop :=
  ∀ t, o = .next t → StorageFrame wm ws s t

theorem nextStorageFrame_next (h : StorageFrame wm ws s t) : NextStorageFrame wm ws s (.next t) := by
  rintro _ ⟨⟩
  exact h

theorem execCall_storageFrame (nnn : BitVec 12) (s : State) : NextStorageFrame false true s (execCall nnn s) := by
  refine nextStorageFrame_next ?_
  split
  · exact .of_eq rfl rfl rfl
  · exact ⟨rfl, fun _ => rfl, nofun⟩

theorem execRet_storageFrame (s : State) : NextStorageFrame false true s (execRet s) := by
  refine nextStorageFrame_next ?_
  split
  · exact .of_eq rfl rfl rfl
  · exact ⟨rfl, fun _ => rfl, nofun⟩

theorem execPlane_storageFrame (n : BitVec 4) (s : State) : NextStorageFrame wm ws s (execPlane n s) := by
  refine nextStorageFrame_next ?_
  split <;> exact .of_eq rfl rfl rfl

theorem execAudio_storageFrame (m : BitVec 4) (s : State) : NextStorageFrame wm ws s (execAudio m s) := by
  refine nextStorageFrame_next ?_
  split
  · refine StorageFrame.withRange ?_ _ _
    exact (updateVoice_storageFrame _ _).after rfl rfl rfl
  · exact .of_eq rfl rfl rfl

/-- Arm by arm: a store writes memory, a call or a return the stack, every other instruction neither, and none the
configuration. -/
theorem exec_storageFrame (i : Instr) (s : State) : NextStorageFrame (storesMemory i) (writesStack i) s (exec i s) := by
  cases i with
  | ldB x => exact nextStorageFrame_next ((writeBytes_storageFrame s _ _).withRange _ _)
  | storeRegs x =>
    exact nextStorageFrame_next (((writeBytes_storageFrame s _ _).trans (advanceI_storageFrame _ _)).withRange _ _)
  | save x y => exact nextStorageFrame_next ((writeBytes_storageFrame s _ _).withRange _ _)
  | call nnn => exact execCall_storageFrame nnn s
  | ret => exact execRet_storageFrame s
  | loadRegs x =>
    exact nextStorageFrame_next (((loadFrom_storageFrame s _ _).trans (advanceI_storageFrame _ _)).withRange _ _)
  | load x y => exact nextStorageFrame_next ((loadFrom_storageFrame s _ _).withRange _ _)
  | drw | pal =>
    refine nextStorageFrame_next (StorageFrame.withRange ?_ _ _)
    exact .of_eq rfl rfl rfl
  | plane n => exact execPlane_storageFrame n s
  | audio m => exact execAudio_storageFrame m s
  | seImm | sneImm | seReg | sneReg => exact nextStorageFrame_next (skipIf_storageFrame s _)
  | skp | sknp => exact nextStorageFrame_next ((skipIf_storageFrame _ _).after rfl rfl rfl)
  | or | and | xor => exact nextStorageFrame_next (setLogic_storageFrame s _ _)
  | ldStVx | pitch | vol | chan => exact nextStorageFrame_next ((updateVoice_storageFrame _ _).after rfl rfl rfl)
  | flagsOut x => exact nextStorageFrame_next ((saveFlags_storageFrame s _).trans (.of_eq rfl rfl rfl))
  | flagsIn x => exact nextStorageFrame_next ((restoreFlags_storageFrame _ _).after rfl rfl rfl)
  | scd | scu | cls | inv | scr | scl | low | high | dmor | dmand | dmxor | jp | jpOff | exit | ldVxK | ldImm | addImm | ldReg
  | ldVxDt | rnd | addReg | sub | shr | subn | mul | div | shl | divn | ldI | ldl | addI | ldF | ldHf | ldDtVx | voice =>
    exact nextStorageFrame_next (.of_eq rfl rfl rfl)

/-! ## The obligation -/

/-- Settles O56: `exec_storageFrame`; equal memory contents under an equal configuration read the same. -/
theorem writersOfMemoryStackAndConfiguration : Obligations.WritersOfMemoryStackAndConfiguration := fun i s t h => by
  obtain ⟨hc, hm, hs⟩ := exec_storageFrame i s t h
  exact ⟨hc, fun hb hr hv => sameMemory_of (hm (storesMemory_eq_false hb hr hv)) hc,
    fun hl he => hs (writesStack_eq_false hl he)⟩

end Sys2Proof.Machine

/-! PROOFS. Decoding and encoding agree both ways, and the words that decode are exactly those 30_encoding.md R89 does not list;
what a `Tick` does with the instruction it reads (R80). `decodeWord_spec` says once what the decoder answers to each word. -/

namespace Sys2Proof

variable {e : Encodings} {w : Word} {i : Instr} {p q : Prop} {why : IllegalWord} {o x y n : BitVec 4}

/-! ## A word is composed of the fields the decoder reads (R82, R83) -/

theorem wordNNN_of_fields (ho : (fieldO w).toNat = o.toNat) : wordNNN o (fieldNNN w) = w := by
  rw [← BitVec.eq_of_toNat_eq ho, wordNNN_fields]

theorem wordReg_of_fields {nn : Byte} (ho : (fieldO w).toNat = o.toNat) (hn : (fieldNN w).toNat = nn.toNat) :
    wordReg o (regX w) nn = w := by
  rw [← BitVec.eq_of_toNat_eq ho, ← BitVec.eq_of_toNat_eq hn, wordReg, regX, nibbleOfReg_regOfNibble, wordXNN_fields]

theorem wordRegs_of_fields (ho : (fieldO w).toNat = o.toNat) (hn : (fieldN w).toNat = n.toNat) :
    wordRegs o (regX w) (regY w) n = w := by
  rw [← BitVec.eq_of_toNat_eq ho, ← BitVec.eq_of_toNat_eq hn, wordRegs, regX, regY, nibbleOfReg_regOfNibble,
    nibbleOfReg_regOfNibble, wordXYN_fields]

theorem wordXYN_of_fields (ho : (fieldO w).toNat = o.toNat) (hx : fieldX w = x) (hy : fieldY w = y) :
    wordXYN o x y (fieldN w) = w := by
  rw [← BitVec.eq_of_toNat_eq ho, ← hx, ← hy, wordXYN_fields]

theorem wordXNN_of_fields (ho : (fieldO w).toNat = o.toNat) (hx : fieldX w = x) : wordXNN o x (fieldNN w) = w := by
  rw [← BitVec.eq_of_toNat_eq ho, ← hx, wordXNN_fields]

@[simp] theorem fieldO_wordReg (o : BitVec 4) (x : Reg) (nn : Byte) : fieldO (wordReg o x nn) = o := fieldO_wordXNN _ _ _
@[simp] theorem fieldNN_wordReg (o : BitVec 4) (x : Reg) (nn : Byte) : fieldNN (wordReg o x nn) = nn := fieldNN_wordXNN _ _ _
@[simp] theorem regX_wordReg (o : BitVec 4) (x : Reg) (nn : Byte) : regX (wordReg o x nn) = x := by
  rw [regX, wordReg, fieldX_wordXNN, regOfNibble_nibbleOfReg]

@[simp] theorem fieldO_wordRegs (o : BitVec 4) (x y : Reg) (n : BitVec 4) : fieldO (wordRegs o x y n) = o :=
  fieldO_wordXYN _ _ _ _
@[simp] theorem fieldN_wordRegs (o : BitVec 4) (x y : Reg) (n : BitVec 4) : fieldN (wordRegs o x y n) = n :=
  fieldN_wordXYN _ _ _ _
@[simp] theorem regX_wordRegs (o : BitVec 4) (x y : Reg) (n : BitVec 4) : regX (wordRegs o x y n) = x := by
  rw [regX, wordRegs, fieldX_wordXYN, regOfNibble_nibbleOfReg]
@[simp] theorem regY_wordRegs (o : BitVec 4) (x y : Reg) (n : BitVec 4) : regY (wordRegs o x y n) = y := by
  rw [regY, wordRegs, fieldY_wordXYN, regOfNibble_nibbleOfReg]

/-! ## What decoding one word answers (R85 to R89) -/

/-- An answer of the decoder to `w`: the refusal `why` if `p` holds of the word, and otherwise a well-formed instruction whose
encoding is that one word. -/
inductive DecodesUnless (p : Prop) (why : IllegalWord) (e : Encodings) (w : Word) : Except IllegalWord Instr → Prop where
  | refused (hp : p) : DecodesUnless p why e w (.error why)
  | decoded {i : Instr} (hp : ¬p) (hwf : i.wf = true) (henc : encode e i = [w]) : DecodesUnless p why e w (.ok i)

namespace DecodesUnless

variable {d : Except IllegalWord Instr}

theorem congr {why' : IllegalWord} (h : DecodesUnless q why' e w d) (hp : p ↔ q) (hw : why = why') :
    DecodesUnless p why e w d := by
  rwa [propext hp, hw]

/-- The two directions of "the illegal words, exactly" (R89). -/
theorem exactly (h : DecodesUnless p why e w d) : (p → d = .error why) ∧ (¬p → ∃ i, d = .ok i) := by
  cases h with
  | refused hp => exact ⟨fun _ => rfl, fun hn => absurd hp hn⟩
  | @decoded i hp => exact ⟨fun h => absurd h hp, fun _ => ⟨i, rfl⟩⟩

/-- A word of format `NNN`. -/
theorem of_nnn (henc : encode e i = [wordNNN o (fieldNNN w)]) (hwf : i.wf = true) (ho : (fieldO w).toNat = o.toNat)
    (hp : ¬p) : DecodesUnless p why e w (.ok i) :=
  .decoded hp hwf (by rw [henc, wordNNN_of_fields ho])

/-- A word with one register and a low byte. -/
theorem of_reg {nn : Byte} (henc : encode e i = [wordReg o (regX w) nn]) (hwf : i.wf = true) (ho : (fieldO w).toNat = o.toNat)
    (hn : (fieldNN w).toNat = nn.toNat) (hp : ¬p) : DecodesUnless p why e w (.ok i) :=
  .decoded hp hwf (by rw [henc, wordReg_of_fields ho hn])

/-- A word with two registers and a low nibble. -/
theorem of_regs (henc : encode e i = [wordRegs o (regX w) (regY w) n]) (hwf : i.wf = true) (ho : (fieldO w).toNat = o.toNat)
    (hn : (fieldN w).toNat = n.toNat) (hp : ¬p) : DecodesUnless p why e w (.ok i) :=
  .decoded hp hwf (by rw [henc, wordRegs_of_fields ho hn])

end DecodesUnless

/-! ### One group after the other -/

/-- The scroll words of R86 by their number: `x` is 0 and `y` the scroll's nibble. -/
theorem group0_div_eq_iff (ho : (fieldO w).toNat = 0x0) (k : BitVec 4) :
    w.toNat / 16 = k.toNat ↔ fieldX w = 0 ∧ fieldY w = k := by
  obtain ⟨hO, hX, hY, -, -, -⟩ := field_toNat w
  simp only [BitVec.toNat_eq, BitVec.ofNat_eq_ofNat, BitVec.toNat_zero]
  omega

/-- The group-0 words without an operand by their number: `x` is 0 and `nn` the word's low byte. -/
theorem group0_mem_iff (ho : (fieldO w).toNat = 0x0) (ks : List Byte) :
    w.toNat ∈ ks.map BitVec.toNat ↔ fieldX w = 0 ∧ fieldNN w ∈ ks := by
  have hk (k : Byte) : k.toNat = w.toNat ↔ fieldX w = 0 ∧ k = fieldNN w := by
    obtain ⟨hO, hX, -, -, hNN, -⟩ := field_toNat w
    simp only [BitVec.toNat_eq, BitVec.ofNat_eq_ofNat, BitVec.toNat_zero]
    omega
  rw [List.mem_map]
  constructor
  · rintro ⟨k, hm, h⟩
    obtain ⟨hx, rfl⟩ := (hk k).1 h
    exact ⟨hx, hm⟩
  · exact fun ⟨hx, hm⟩ => ⟨_, hm, (hk _).2 ⟨hx, rfl⟩⟩

theorem decodeMachine_spec (e : Encodings) (ho : (fieldO w).toNat = 0x0) :
    DecodesUnless (w.toNat / 16 ∉ [e.scrollDown.toNat, e.scrollUp.toNat] ∧ w.toNat ∉ e.machineKeys.map BitVec.toNat)
      (.unknownMachineCode w) e w (decodeMachine e w) := by
  simp only [List.mem_cons, List.not_mem_nil, or_false, group0_div_eq_iff ho, group0_mem_iff ho]
  unfold decodeMachine
  split
  · exact .refused (by tauto)
  next hx =>
  rw [not_not] at hx
  split
  · next hd => exact .decoded (by tauto) rfl (by rw [encode, wordXYN_of_fields ho hx hd])
  split
  · next hu => exact .decoded (by tauto) rfl (by rw [encode, wordXYN_of_fields ho hx hu])
  split
  · next hl =>
    obtain ⟨hwf, henc⟩ := machineTable_rows e _ (mem_of_lookup hl)
    have hm : fieldNN w ∈ e.machineKeys := machineTable_keys e ▸ List.mem_map_of_mem (mem_of_lookup hl)
    exact .decoded (by tauto) hwf (by rw [henc, wordMachine, wordXNN_of_fields ho hx])
  · next hl =>
    rw [lookup_eq_none_iff, machineTable_keys] at hl
    exact .refused (by tauto)

theorem decodeGroup5_spec (e : Encodings) (ho : (fieldO w).toNat = 0x5) :
    DecodesUnless ((fieldN w).toNat ∉ [0, 2, 3]) (.unknownOpcode w) e w (decodeGroup5 w) := by
  unfold decodeGroup5
  split
  case h_4 h0 h2 h3 => exact .refused (by simpa using ⟨h0, h2, h3⟩)
  all_goals next hn => exact .of_regs rfl rfl ho hn (by simp [hn])

theorem decodeGroup8_spec (e : Encodings) (ho : (fieldO w).toNat = 0x8) :
    DecodesUnless ((fieldN w).toNat ∈ [0x8, 0x9, 0xA, 0xB]) (.unknownOpcode w) e w (decodeGroup8 w) := by
  unfold decodeGroup8
  split
  case h_13 =>
    have := (fieldN w).isLt
    simp only [imp_false] at *
    refine .refused ?_
    simp only [List.mem_cons, List.not_mem_nil, or_false]
    omega
  all_goals next hn => exact .of_regs rfl rfl ho hn (by simp [hn])

theorem decodeGroup9_spec (e : Encodings) (ho : (fieldO w).toNat = 0x9) :
    DecodesUnless ((fieldN w).toNat ≠ 0) (.unknownOpcode w) e w (decodeGroup9 w) := by
  unfold decodeGroup9
  split
  · next hn => exact .of_regs rfl rfl ho hn (fun h => h hn)
  · next hn => exact .refused hn

theorem decodeKeys_spec (e : Encodings) (ho : (fieldO w).toNat = 0xE) :
    DecodesUnless ((fieldNN w).toNat ∉ [0x9E, 0xA1]) (.unknownOpcode w) e w (decodeKeys w) := by
  unfold decodeKeys
  split
  case h_3 h9E hA1 => exact .refused (by simpa using ⟨h9E, hA1⟩)
  all_goals next hn => exact .of_reg rfl rfl ho hn (by simp [hn])

/-- The extended group has no instruction for `w`: no row has its sub-opcode, or the row has none for its `x`. -/
def NoExtendedRow (e : Encodings) (w : Word) : Prop := ((e.extendedTable (fieldX w)).lookup (fieldNN w)).join = none

theorem decodeExtended_spec (e : Encodings) (ho : (fieldO w).toNat = 0xF) :
    DecodesUnless (NoExtendedRow e w) (.unknownOpcode w) e w (decodeExtended e w) := by
  unfold decodeExtended
  split
  · next i hi =>
    obtain ⟨hwf, henc⟩ := extendedTable_rows e (fieldX w) _ (mem_of_lookup hi) i rfl
    exact .decoded (by simp [NoExtendedRow, hi]) hwf (by rw [henc, wordXNN_of_fields ho rfl])
  · next hi => exact .refused (by simp [NoExtendedRow, hi])
  · next hi => exact .refused (by simp [NoExtendedRow, hi])

/-! ### Every word -/

/-- R89's list, `extended` its clauses on the extended group. -/
def Illegal (w : Word) (scrolls machine : List Nat) (extended : Prop) : Prop :=
  ((fieldO w).toNat = 0 ∧ w.toNat / 16 ∉ scrolls ∧ w.toNat ∉ machine) ∨ ((fieldO w).toNat = 5 ∧ (fieldN w).toNat ∉ [0, 2, 3]) ∨
    ((fieldO w).toNat = 8 ∧ (fieldN w).toNat ∈ [0x8, 0x9, 0xA, 0xB]) ∨ ((fieldO w).toNat = 9 ∧ (fieldN w).toNat ≠ 0) ∨
    ((fieldO w).toNat = 0xE ∧ (fieldNN w).toNat ∉ [0x9E, 0xA1]) ∨ extended

/-- The reason R89 gives an illegal word. -/
def illegalReason (w : Word) : IllegalWord := if (fieldO w).toNat = 0 then .unknownMachineCode w else .unknownOpcode w

theorem illegal_congr {scrolls machine : List Nat} (h : p ↔ q) :
    Illegal w scrolls machine p ↔ Illegal w scrolls machine q := by
  rw [Illegal, Illegal, h]

/-- For any choice of the parameters, group by group (R85): a word of R89's list is refused, every other one is the encoding of what
it decodes to. -/
theorem decodeWord_spec (e : Encodings) (w : Word) :
    DecodesUnless (Illegal w [e.scrollDown.toNat, e.scrollUp.toNat] (e.machineKeys.map BitVec.toNat)
      ((fieldO w).toNat = 0xF ∧ NoExtendedRow e w)) (illegalReason w) e w (decodeWord e w) := by
  unfold decodeWord
  split
  case h_1 ho => exact (decodeMachine_spec e ho).congr (by simp [Illegal, ho]) (by simp [illegalReason, ho])
  case h_2 ho | h_3 ho | h_11 ho | h_12 ho => exact .of_nnn rfl rfl ho (by simp [Illegal, ho])
  case h_4 ho | h_5 ho | h_7 ho | h_8 ho | h_13 ho => exact .of_reg rfl rfl ho rfl (by simp [Illegal, ho])
  case h_6 ho => exact (decodeGroup5_spec e ho).congr (by simp [Illegal, ho]) (by simp [illegalReason, ho])
  case h_9 ho => exact (decodeGroup8_spec e ho).congr (by simp [Illegal, ho]) (by simp [illegalReason, ho])
  case h_10 ho => exact (decodeGroup9_spec e ho).congr (by simp [Illegal, ho]) (by simp [illegalReason, ho])
  case h_14 ho => exact .of_regs rfl rfl ho rfl (by simp [Illegal, ho])
  case h_15 ho => exact (decodeKeys_spec e ho).congr (by simp [Illegal, ho]) (by simp [illegalReason, ho])
  case h_16 =>
    have ho : (fieldO w).toNat = 0xF := by
      have := (fieldO w).isLt
      simp only [imp_false] at *
      omega
    exact (decodeExtended_spec e ho).congr (by simp [Illegal, ho]) (by simp [illegalReason, ho])

/-! ### The clauses of R89 on the extended group -/

/-- The sub-opcodes of the extended group under which `x` is a register. -/
def Encodings.registerKeys (e : Encodings) : List Byte :=
  [0x0A, e.getDt, e.setDt, e.setSt, e.addI, e.font, e.bigFont, e.bcd, e.pitch, e.volume, e.voice, e.chan, e.palette, e.store,
    e.load, e.flagsOut, e.flagsIn]

theorem mem_extendedKeys (e : Encodings) (k : Byte) :
    k ∈ e.extendedKeys ↔ k = e.plane ∨ k = e.pattern ∨ k ∈ e.registerKeys := by
  simp only [Encodings.extendedKeys, Encodings.registerKeys, List.mem_cons, or_left_comm]

/-- The rows that have no instruction for an `x` are FN01 and FM02 at their illegal operands (D11, D25). -/
theorem extendedTable_row_none (e : Encodings) (x : BitVec 4) :
    ∀ p ∈ e.extendedTable x, p.2 = none → p.1 = e.plane ∧ x = 0 ∨ p.1 = e.pattern ∧ ¬x ≤ 3 := by
  simp +contextual [Encodings.extendedTable]

theorem noExtendedRow_iff (he : e.unambiguous = true) (w : Word) :
    NoExtendedRow e w ↔
      fieldNN w = e.plane ∧ fieldX w = 0 ∨ fieldNN w = e.pattern ∧ ¬fieldX w ≤ 3 ∨ fieldNN w ∉ e.extendedKeys := by
  obtain ⟨-, -, -, hnd, -⟩ := (unambiguous_iff e).1 he
  have row {r : Option Instr} (h : (fieldNN w, r) ∈ e.extendedTable (fieldX w)) : NoExtendedRow e w ↔ r = none := by
    rw [NoExtendedRow, lookup_of_mem (extendedTable_keys e _ ▸ hnd) h, Option.join_some]
  constructor
  · intro h
    rcases hl : (e.extendedTable (fieldX w)).lookup (fieldNN w) with _ | r
    · exact .inr (.inr (extendedTable_keys e (fieldX w) ▸ lookup_eq_none_iff.1 hl))
    · have hm := mem_of_lookup hl
      exact (extendedTable_row_none e _ _ hm ((row hm).1 h)).imp_right .inl
  · rintro (⟨hk, hx⟩ | ⟨hk, hx⟩ | hk)
    · exact (row (r := none) (by rw [hk, Encodings.extendedTable, if_pos hx]; simp)).2 rfl
    · exact (row (r := none) (by rw [hk, Encodings.extendedTable, if_neg hx]; simp)).2 rfl
    · rw [NoExtendedRow, lookup_eq_none_iff.2 (extendedTable_keys e (fieldX w) ▸ hk), Option.join_none]

/-- R89's clauses on the extended group: FN01, FM02, any other sub-opcode. -/
def IllegalExtended (w : Word) (plane pattern : Nat) (extended : List Nat) : Prop :=
  ((fieldO w).toNat = 0xF ∧ (fieldNN w).toNat = plane ∧ (fieldX w).toNat = 0) ∨
    ((fieldO w).toNat = 0xF ∧ (fieldNN w).toNat = pattern ∧ (fieldX w).toNat > 3) ∨
    ((fieldO w).toNat = 0xF ∧ (fieldNN w).toNat ≠ plane ∧ (fieldNN w).toNat ≠ pattern ∧ (fieldNN w).toNat ∉ extended)

theorem illegalExtended_congr {plane pattern : Nat} {ks ks' : List Nat} (h : ∀ k, k ∈ ks ↔ k ∈ ks') :
    IllegalExtended w plane pattern ks ↔ IllegalExtended w plane pattern ks' := by
  simp only [IllegalExtended, h]

theorem illegalExtended_iff (he : e.unambiguous = true) (w : Word) :
    IllegalExtended w e.plane.toNat e.pattern.toNat (e.registerKeys.map BitVec.toNat) ↔
      (fieldO w).toNat = 0xF ∧ NoExtendedRow e w := by
  have hx : (fieldX w).toNat > 3 ↔ ¬fieldX w ≤ 3 := by rw [BitVec.le_def, not_le]; rfl
  have hz : (fieldX w).toNat = 0 ↔ fieldX w = 0 := BitVec.toNat_inj (y := 0)
  rw [noExtendedRow_iff he, mem_extendedKeys]
  simp only [IllegalExtended, ← and_or_left, not_or, BitVec.toNat_inj, ne_eq, hx, hz,
    List.mem_map_of_injective BitVec.toNat_injective]

/-- Under an unambiguous choice the words refused are R89's list with that choice's numbers. -/
theorem decodeWord_illegal (he : e.unambiguous = true) (w : Word) :
    DecodesUnless (Illegal w [e.scrollDown.toNat, e.scrollUp.toNat] (e.machineKeys.map BitVec.toNat)
      (IllegalExtended w e.plane.toNat e.pattern.toNat (e.registerKeys.map BitVec.toNat))) (illegalReason w) e w
      (decodeWord e w) :=
  (decodeWord_spec e w).congr (illegal_congr (illegalExtended_iff he w)) rfl

/-! ## The word of an instruction (R81, R85) -/

/-- Each instruction's word is another than the long literal and its group decodes it: by its nibbles, or as a row of a table
with parameters. -/
theorem decodeBytes_encodeBytes (he : e.unambiguous = true) (hwf : i.wf = true) (rest : List Byte) :
    decodeBytes e (encodeBytes e i ++ rest) = .ok (i, rest) := by
  cases i with
  | ldl nnnn => exact decodeBytes_long e nnnn rest
  | scd n =>
    refine decodeBytes_of_ok rest (wordXYN_ne_long _ _ _ _ (by decide)) ?_
    simp [decodeWord, decodeMachine]
  | scu n =>
    obtain ⟨-, hne, -⟩ := (unambiguous_iff e).1 he
    refine decodeBytes_of_ok rest (wordXYN_ne_long _ _ _ _ (by decide)) ?_
    simp [decodeWord, decodeMachine, hne.symm]
  | cls | inv | ret | dmor | dmand | dmxor | scr | scl | exit | low | high =>
    exact decodeBytes_of_ok rest (wordXNN_ne_long _ _ _ (.inl (by decide)))
      (decodeWord_machine he (by simp [Encodings.machineTable]))
  | jp | call | ldI | jpOff =>
    exact decodeBytes_of_ok rest (wordNNN_ne_long _ _ (by decide)) (by simp [decodeWord])
  | seImm | sneImm | ldImm | addImm | rnd =>
    exact decodeBytes_of_ok rest (wordXNN_ne_long _ _ _ (.inl (by decide))) (by simp [decodeWord])
  | skp | sknp =>
    exact decodeBytes_of_ok rest (wordXNN_ne_long _ _ _ (.inl (by decide))) (by simp [decodeWord, decodeKeys])
  | seReg | save | load =>
    exact decodeBytes_of_ok rest (wordXYN_ne_long _ _ _ _ (by decide)) (by simp [decodeWord, decodeGroup5])
  | ldReg | or | and | xor | addReg | sub | shr | subn | mul | div | shl | divn =>
    exact decodeBytes_of_ok rest (wordXYN_ne_long _ _ _ _ (by decide)) (by simp [decodeWord, decodeGroup8])
  | sneReg =>
    exact decodeBytes_of_ok rest (wordXYN_ne_long _ _ _ _ (by decide)) (by simp [decodeWord, decodeGroup9])
  | drw =>
    exact decodeBytes_of_ok rest (wordXYN_ne_long _ _ _ _ (by decide)) (by simp [decodeWord])
  | plane n =>
    exact decodeBytes_of_ok rest (extended_ne_long he (by simp [Encodings.extendedKeys]) n)
      (decodeWord_extended he (by simpa [Encodings.extendedTable, Instr.wf] using hwf))
  | audio m =>
    exact decodeBytes_of_ok rest (extended_ne_long he (by simp [Encodings.extendedKeys]) m)
      (decodeWord_extended he (by simpa [Encodings.extendedTable, Instr.wf] using hwf))
  | ldVxDt x | ldVxK x | ldDtVx x | ldStVx x | addI x | ldF x | ldHf x | ldB x | pitch x | vol x | voice x | chan x | pal x
  | storeRegs x | loadRegs x | flagsOut x | flagsIn x =>
    exact decodeBytes_of_ok rest (extended_ne_long he (by simp [Encodings.extendedKeys]) (nibbleOfReg x))
      (decodeWord_extended he (by simp [Encodings.extendedTable]))

/-! ## The fetch of an instruction (R80) -/

namespace Machine

variable {s s' : State}

theorem tickNext_cfg (h : TickNext s s') : s'.cfg = s.cfg := by rw [tickNext_fields h]

theorem fetch_of_decodeWord (hm : s.pc.toNat + 1 < s.memSize) (hl : s.readWord s.pc.toNat ≠ longLiteral)
    (hd : decodeWord s.cfg.enc (s.readWord s.pc.toNat) = .ok i) : fetch s = (s.setPc (s.pc.toNat + 2), some i) := by
  rcases fetch_cases s with ⟨j, -, -, hj, hf⟩ | ⟨_, -, -, hj, -⟩ | ⟨_, -, -, hj, -⟩ | ⟨_, -, -, hj, -⟩ | ⟨hj, -⟩
  · cases hj.symm.trans hd
    exact hf
  · cases hj.symm.trans hd
  · exact absurd hj hl
  · exact absurd hj hl
  · omega

theorem fetch_of_longLiteral {a : Nat} (ha : a = (s.pc.toNat + 2) % s.memSize) (hm : s.pc.toNat + 1 < s.memSize)
    (hl : s.readWord s.pc.toNat = longLiteral) (hm' : a + 1 < s.memSize) :
    fetch s = (s.setPc (a + 2), some (.ldl (s.readWord a))) := by
  rcases fetch_cases s with ⟨_, -, hj, -⟩ | ⟨_, -, hj, -⟩ | ⟨_, rfl, -, -, -, hf⟩ | ⟨_, rfl, -, -, hj, -⟩ | ⟨hj, -⟩
  · exact absurd hl hj
  · exact absurd hl hj
  · subst ha
    exact hf
  · omega
  · omega

end Machine

/-! ## The obligations -/

open Machine

/-- Settles O3: `decodeBytes_encodeBytes`, which goes instruction by instruction. -/
theorem decodeOfEncode : Obligations.DecodeOfEncode := fun c _ rest hwf => decodeBytes_encodeBytes c.enc.2 hwf rest

/-- Settles O4: what `decodeWord_spec` says of the words that decode. -/
theorem encodeOfDecode : Obligations.EncodeOfDecode := fun e w i h => by
  have hs := decodeWord_spec e w
  rw [h] at hs
  cases hs with
  | decoded _ hwf henc => exact ⟨hwf, henc⟩

/-- Settles O5: `decodeWord_illegal`; under the defaults the numbers are R89's own, FX07 and FX0A in the other order. -/
theorem illegalWordsExactly : Obligations.IllegalWordsExactly := by
  refine ⟨?_, fun w _ => ?_⟩
  · rintro c _ w rfl -
    exact (decodeWord_illegal c.enc.2 w).exactly
  · have hw := decodeWord_illegal Config.default.enc.2 w
    have hks : ∀ k, k ∈ 0x07 :: 0x0A :: _ ↔ k ∈ Encodings.default.registerKeys.map BitVec.toNat :=
      fun k => (List.Perm.swap 0x0A 0x07 _).mem_iff
    exact (hw.congr (illegal_congr (illegalExtended_congr hks)) rfl).exactly

/-- Settles O1: each word is decoded by evaluation. -/
theorem sampleWordsDecode : Obligations.SampleWordsDecode := by
  unfold Obligations.SampleWordsDecode
  decide

/-- Settles O2: each field is a quotient and a remainder of the word's number. -/
theorem fieldsOfAWord : Obligations.FieldsOfAWord := fun w => by
  obtain ⟨ho, hx, hy, hn, hnn, hnnn⟩ := field_toNat w
  refine ⟨by omega, by omega, by omega, rfl, rfl, fun e b2 b3 rest => rfl, ?_⟩
  rintro rfl
  decide

/-- Settles O6: the step is a `tick` of `s'`, which reads at `pc` what `s` reads and runs what its fetch gives. -/
theorem stepRunsTheDecodedInstruction : Obligations.StepRunsTheDecodedInstruction := fun s s' h hr hm => by
  rw [step_of_tickNext h]
  simp only [← tickNext_pc h, ← tickNext_memSize h, ← tickNext_readWord h, ← tickNext_cfg h, ← tickNext_run h] at *
  exact ⟨fun _ hl hd => tick_of_fetch_some hr (fetch_of_decodeWord hm hl hd),
    fun _ ha hl hm' => tick_of_fetch_some hr (fetch_of_longLiteral ha hm hl hm')⟩

end Sys2Proof

/-! PROOFS. Control flow (40_control_flow.md R100 to R109) and the key skips (44_keys_timers_system.md R200, R201). The jumps
are writes of `pc`; every skip is `skipIf` under its condition, and `skipIf_outcome` says once what that does. -/

namespace Sys2Proof.Machine

variable {s : State}

/-! ## Jumps to an address in the word -/

/-- A 12-bit address is below `MEMSIZE` in both modes, so a jump to it does not wrap (R101). -/
theorem pc_setPc_nnn (s : State) (nnn : BitVec 12) : (s.setPc nnn.toNat).pc.toNat = nnn.toNat :=
  pc_setPc_of_lt s _ (Nat.lt_of_lt_of_le nnn.isLt (le_memSize s))

theorem jp_word (e : Encodings) (nnn : BitVec 12) : (encode e (.jp nnn)).map BitVec.toNat = [0x1000 + nnn.toNat] :=
  congrArg ([·]) (wordNNN_toNat _ nnn)

theorem call_word (e : Encodings) (nnn : BitVec 12) : (encode e (.call nnn)).map BitVec.toNat = [0x2000 + nnn.toNat] :=
  congrArg ([·]) (wordNNN_toNat _ nnn)

/-! ## The call stack (R102, R103) -/

theorem exec_call_of_lt (h : s.stack.length < Config.stackMax) (nnn : BitVec 12) :
    exec (.call nnn) s = .next ((s.setStack (s.pc :: s.stack)).setPc nnn.toNat) :=
  congrArg Host.Outcome.next (if_neg (Nat.not_le.2 h))

theorem exec_call_of_full (h : Config.stackMax ≤ s.stack.length) (nnn : BitVec 12) :
    exec (.call nnn) s = .next (raiseHalt (.stackOverflow s.pc) s) :=
  congrArg Host.Outcome.next (if_pos h)

theorem exec_ret_of_cons {a : Word} {rest : List Word} (h : s.stack = a :: rest) :
    exec .ret s = .next ((s.setStack rest).setPc a.toNat) := by
  simp only [exec, execRet, h]

theorem exec_ret_of_nil (h : s.stack = []) : exec .ret s = .next (raiseHalt (.stackUnderflow s.pc) s) := by
  simp only [exec, execRet, h]

/-! ## The offset register of BNNN (R109) -/

theorem offsetReg_of_not_qJump {c : Config} (h : c.qJump = false) (nnn : BitVec 12) : offsetReg c nnn = 0 :=
  if_neg (Bool.eq_false_iff.1 h)

/-- Under the jump quirk the register is the one the top nibble of `nnn` numbers. -/
theorem offsetReg_of_qJump {c : Config} (h : c.qJump = true) {nnn : BitVec 12} {r : Reg} (hr : r.val = nnn.toNat / 256) :
    offsetReg c nnn = r := by
  have hn := nnn.isLt
  refine (if_pos h).trans (Fin.ext ?_)
  simp only [regOfNibble, BitVec.extractLsb'_toNat, Nat.shiftRight_eq_div_pow]
  omega

/-! ## The skip step under a condition the model decides (R100) -/

theorem skipIf_outcome_decide (s : State) (p : Prop) [Decidable p] : SkipOutcome s (skipIf p s) p :=
  skipIf_outcome_iff s decide_eq_true_iff

/-! ## The `KEY_HELD` port (10 R40) -/

theorem keyHeld_of_no_code {k : Byte} (h : s.cfg.keys ≤ k.toNat) : s.keyHeld k = false := by
  simp only [State.keyHeld, Nat.not_lt.2 h, decide_false, Bool.false_and]

theorem keyHeld_of_level {k : Byte} {level : BitVec 256} (hl : s.env.keysHeld = some level) (hk : k.toNat < s.cfg.keys) :
    s.keyHeld k = level.getLsbD k.toNat := by
  simp only [State.keyHeld, hl, hk, decide_true, Bool.true_and]

/-! ## The obligations -/

/-- Settles O10: fewer than 12 entries, or 12 and more. -/
theorem callPushesOrOverflows : Obligations.CallPushesOrOverflows := fun nnn _ =>
  ⟨call_word _ nnn,
    fun h => ⟨_, exec_call_of_lt h nnn, rfl, pc_setPc_nnn _ nnn, sameMemory_of rfl rfl⟩,
    fun h => exec_call_of_full h nnn⟩

/-- Settles O12: each of the four is `skipIf` under the condition its rule names. -/
theorem registerSkips : Obligations.RegisterSkips := fun x y nn s =>
  ⟨⟨_, rfl, skipIf_outcome_decide s (s.reg x = nn)⟩,
    ⟨_, rfl, skipIf_outcome_decide s (s.reg x ≠ nn)⟩,
    ⟨_, rfl, skipIf_outcome_decide s (s.reg x = s.reg y)⟩,
    ⟨_, rfl, skipIf_outcome_decide s (s.reg x ≠ s.reg y)⟩⟩

/-- Settles O14: the answer is `keyHeld` of the whole byte, and both skips start from the state after that one sample. -/
theorem keySkips : Obligations.KeySkips := fun x s =>
  ⟨s.keyHeld (s.reg x), keyHeld_of_no_code, fun _ => keyHeld_of_level,
    ⟨_, rfl, skipIf_outcome s.afterKeySample _⟩,
    ⟨_, rfl, skipIf_outcome_iff s.afterKeySample Bool.not_eq_eq_eq_not⟩⟩

/-- Settles O9: a write of `pc` alone, to an address that does not wrap. -/
theorem jumpGoesToItsTarget : Obligations.JumpGoesToItsTarget := fun nnn s =>
  ⟨jp_word _ nnn, _, rfl, rfl, pc_setPc_nnn s nnn, sameMemory_of rfl rfl⟩

/-- Settles O11: by the two forms of the stack; an entry below `MEMSIZE` is stored whole. -/
theorem returnPopsOrUnderflows : Obligations.ReturnPopsOrUnderflows := fun s =>
  ⟨fun a rest hs ha => (exec_ret_of_cons hs).trans (congrArg _ (setPc_toNat (s.setStack rest) a ha)), exec_ret_of_nil⟩

/-- Settles O13: a write of `pc` alone, reduced modulo `MEMSIZE`, with the offset register of either setting of the quirk. -/
theorem jumpWithOffset : Obligations.JumpWithOffset := fun nnn s => by
  refine ⟨_, rfl, rfl, sameMemory_of rfl rfl, fun hq => ?_, fun hq r hr => ?_⟩
  · rw [pc_setPc, offsetReg_of_not_qJump hq]
  · rw [pc_setPc, offsetReg_of_qJump hq hr]

end Sys2Proof.Machine

/-! PROOFS. Loads, arithmetic, logic, shifts, multiply, divide, random (41_load_alu.md R120 to R140). Each word is read off its
fields; each meaning is one register write, a logic write or a result with a flag, and Laws/Ops.lean says once what these do. -/

namespace Sys2Proof.Machine

variable {s : State}

/-! ## The words: a group, one or two registers, and a byte or a nibble (30 R83) -/

theorem nibbleOfReg_toNat (x : Reg) : (nibbleOfReg x).toNat = x.val :=
  (BitVec.toNat_ofNat ..).trans (Nat.mod_eq_of_lt x.isLt)

theorem wordReg_toNat (o : BitVec 4) (x : Reg) (nn : Byte) :
    (wordReg o x nn).toNat = o.toNat * 0x1000 + x.val * 0x100 + nn.toNat := by
  rw [wordReg, wordXNN_toNat, nibbleOfReg_toNat]
  omega

theorem wordRegs_toNat (o : BitVec 4) (x y : Reg) (n : BitVec 4) :
    (wordRegs o x y n).toNat = o.toNat * 0x1000 + n.toNat + x.val * 0x100 + y.val * 0x10 := by
  rw [wordRegs, wordXYN_toNat, nibbleOfReg_toNat, nibbleOfReg_toNat]
  omega

/-- The word of an instruction of group 8 whose last nibble is `n`. -/
theorem group8_word (x y : Reg) (n : BitVec 4) :
    [wordRegs 0x8 x y n].map BitVec.toNat = [0x8000 + n.toNat + x.val * 0x100 + y.val * 0x10] :=
  congrArg ([·]) (wordRegs_toNat 0x8 x y n)

/-! ## Results with a flag, read as naturals (R122, R128 to R134) -/

theorem setResultFlag_outcome (s : State) (x : Reg) {rf : Byte × Byte} {result flag : Nat}
    (h : rf.1.toNat = result ∧ rf.2.toNat = flag) : ResultAndFlag s (s.setResultFlag x rf) x result flag := by
  obtain ⟨rfl, rfl⟩ := h
  exact setResultFlag_spec s x rf

/-- The difference is the residue of the integer difference, borrow or not. -/
theorem subFlag_residue (a b : Byte) : ((subFlag a b).1.toNat : ℤ) = ((a.toNat : ℤ) - b.toNat) % 256 := by
  rw [(subFlag_toNat a b).1]
  omega

theorem setResultFlag_subFlag (s : State) (x : Reg) (a b : Byte) :
    ∃ d : Nat, (d : ℤ) = ((a.toNat : ℤ) - b.toNat) % 256 ∧
      ResultAndFlag s (s.setResultFlag x (subFlag a b)) x d (if a.toNat ≥ b.toNat then 1 else 0) :=
  ⟨_, subFlag_residue a b, setResultFlag_outcome s x ⟨rfl, (subFlag_toNat a b).2⟩⟩

/-- A zero divisor gives the pair `DIV0`, any other quotient and remainder. -/
theorem setResultFlag_divFlag (s : State) (x : Reg) (a b : Byte) :
    (b.toNat = 0 → ResultAndFlag s (s.setResultFlag x (divFlag s.cfg a b)) x s.cfg.div0.1.toNat s.cfg.div0.2.toNat) ∧
    (b.toNat ≠ 0 → ResultAndFlag s (s.setResultFlag x (divFlag s.cfg a b)) x (a.toNat / b.toNat) (a.toNat % b.toNat)) := by
  obtain ⟨hzero, hpos⟩ := divFlag_toNat s.cfg a b
  refine ⟨fun hb => ?_, fun hb => setResultFlag_outcome s x (hpos fun h => hb (congrArg BitVec.toNat h))⟩
  rw [hzero (BitVec.eq_of_toNat_eq hb)]
  exact setResultFlag_spec s x s.cfg.div0

/-! ## The `RAND` port (10 R41) -/

theorem randByte_of_waiting {b : Byte} {rest : List Byte} (h : s.env.randIn = b :: rest) : s.randByte = b := by
  rw [State.randByte, h, List.headD_cons]

/-- A mask lets no bit outside it through. -/
theorem masked_and_not (r nn : Byte) : (r &&& nn) &&& ~~~nn = 0 := by
  rw [BitVec.and_assoc, BitVec.and_not_self]
  exact BitVec.and_zero

/-! ## The obligations -/

/-- Settles O16: each operation is `setLogic` of its result, under both settings of the quirk. -/
theorem logicOperations : Obligations.LogicOperations := fun x y s =>
  ⟨group8_word x y 1, group8_word x y 2, group8_word x y 3,
    ⟨_, rfl, setLogic_spec s x _⟩, ⟨_, rfl, setLogic_spec s x _⟩, ⟨_, rfl, setLogic_spec s x _⟩⟩

/-- Settles O17: the sum and the carry of `addFlag`. -/
theorem addWithCarry : Obligations.AddWithCarry := fun x y s =>
  ⟨group8_word x y 4, _, rfl, setResultFlag_outcome s x (addFlag_toNat _ _)⟩

/-- Settles O18: both are `subFlag`, 8XY7 with the operands exchanged. -/
theorem subtractWithNotBorrow : Obligations.SubtractWithNotBorrow := fun x y s =>
  ⟨group8_word x y 5, group8_word x y 7,
    ⟨_, rfl, setResultFlag_subFlag s x (s.reg x) (s.reg y)⟩,
    ⟨_, rfl, setResultFlag_subFlag s x (s.reg y) (s.reg x)⟩⟩

/-- Settles O19: `a` is the model's `shiftOperand`, whichever register the quirk selects. -/
theorem shiftsByOne : Obligations.ShiftsByOne := by
  rintro x y s _ rfl
  exact ⟨group8_word x y 6, group8_word x y 0xE,
    ⟨_, rfl, setResultFlag_outcome s x (shrFlag_toNat (s.shiftOperand x y))⟩,
    ⟨_, rfl, setResultFlag_outcome s x (shlFlag_toNat (s.shiftOperand x y))⟩⟩

/-- Settles O20: the two bytes of `mulFlag`. -/
theorem multiplyLowAndHigh : Obligations.MultiplyLowAndHigh := fun x y s =>
  ⟨group8_word x y 0xC, _, rfl, setResultFlag_outcome s x (mulFlag_toNat _ _)⟩

/-- Settles O21: both are `divFlag`, 8XYF with the operands exchanged. -/
theorem divideQuotientAndRemainder : Obligations.DivideQuotientAndRemainder := fun x y s =>
  ⟨group8_word x y 0xD, group8_word x y 0xF, rfl,
    ⟨_, rfl, setResultFlag_divFlag s x (s.reg x) (s.reg y)⟩,
    ⟨_, rfl, setResultFlag_divFlag s x (s.reg y) (s.reg x)⟩⟩

/-- Settles O22: the byte is `randByte`, the one waiting if one waits, and the write of its masked value leaves the rest. -/
theorem randomUnderMask : Obligations.RandomUnderMask := fun x nn s => by
  have hx : (s.afterRand.setReg x (s.randByte &&& nn)).reg x = s.randByte &&& nn := reg_setReg_self ..
  refine ⟨_, rfl, ⟨s.randByte, hx, fun _ _ => randByte_of_waiting⟩, ?_, fun z hz => reg_setReg_of_ne _ _ _ _ hz,
    sameMemory_of rfl rfl, rfl⟩
  rw [hx, masked_and_not]

/-- Settles O15: each is one register write, of `nn`, of the sum modulo 256, of `Vy`. -/
theorem loadAddAndMove : Obligations.LoadAddAndMove := fun x y nn _ =>
  ⟨congrArg ([·]) (wordReg_toNat 0x6 x nn), congrArg ([·]) (wordReg_toNat 0x7 x nn), group8_word x y 0,
    ⟨_, rfl, reg_setReg_self .., setReg_onlyRegs ..⟩,
    ⟨_, rfl, (congrArg BitVec.toNat (reg_setReg_self ..)).trans (BitVec.toNat_ofNat ..), setReg_onlyRegs ..⟩,
    ⟨_, rfl, reg_setReg_self .., setReg_onlyRegs ..⟩⟩

end Sys2Proof.Machine

/-! PROOFS. The index register and the memory transfers (42_index_memory.md R150 to R161). The index instructions are one write
of `I`; a store writes bytes at `I` and a load reads registers from `I`, each after one range check, and Laws/Ops.lean says
once what these do. -/

namespace Sys2Proof.Machine

variable {s : State}

/-! ## The index register (R150 to R154) -/

theorem ldI_word (e : Encodings) (nnn : BitVec 12) : (encode e (.ldI nnn)).map BitVec.toNat = [0xA000 + nnn.toNat] :=
  congrArg ([·]) (wordNNN_toNat _ nnn)

/-- A number below 65536 is stored in `I` whole. -/
theorem i_setI_of_lt (s : State) {n : Nat} (h : n < 65536) : (s.setI (BitVec.ofNat 16 n)).i.toNat = n :=
  (BitVec.toNat_ofNat ..).trans (Nat.mod_eq_of_lt h)

/-- The addresses of `ADDR_BITS` bits are those below `MEMSIZE` (20 R60). -/
theorem two_pow_addrBits (c : Config) : 2 ^ addrBits c = memSize c := by
  unfold addrBits memSize
  split <;> rfl

theorem digit_lt (s : State) (x : Reg) : s.digit x < 16 := Nat.mod_lt _ (by decide)

/-! ## The fetch of the long literal (30 R80) -/

theorem readWord_of_longLiteral {a : Nat} (hhi : s.readByte a = 0xF0) (hlo : s.readByte (a + 1) = 0x00) :
    s.readWord a = longLiteral := by
  rw [readWord_eq_long, hhi, hlo]
  rfl

/-- The second word is not wholly in memory: the halt leaves `pc` at it (60 R266, D3). -/
theorem fetch_of_truncated_longLiteral {a : Nat} (ha : a = (s.pc.toNat + 2) % s.memSize) (hm : s.pc.toNat + 1 < s.memSize)
    (hl : s.readWord s.pc.toNat = longLiteral) (hm' : s.memSize ≤ a + 1) :
    fetch s = (raiseHalt (.accessOutOfRange (a + 1)) (s.setPc (s.pc.toNat + 2)), none) := by
  rcases fetch_cases s with ⟨_, -, hj, -⟩ | ⟨_, -, hj, -⟩ | ⟨_, rfl, -, -, hj, -⟩ | ⟨_, rfl, -, -, -, hf⟩ | ⟨hj, -⟩
  · exact absurd hl hj
  · exact absurd hl hj
  · omega
  · rw [hf, ha]
  · omega

/-! ## Bytes written at `I` (R155, R158, R160) -/

/-- The byte at each place of a multi-byte store. -/
theorem readByte_writeBytes_place (s : State) (a : Nat) {k : Nat} {bs : List Byte} (h : k < bs.length) :
    (s.writeBytes a bs).readByte (a + k) = bs[k] := by
  rw [readByte_writeBytes, if_pos ⟨by omega, by omega⟩, Nat.add_sub_cancel_left, List.getD_eq_getElem _ _ h]

theorem sameMemoryOutside_writeBytes (s : State) (a : Nat) {n : Nat} {bs : List Byte} (h : bs.length = n) :
    SameMemoryOutside s (s.writeBytes a bs) a n := fun k hk =>
  readByte_writeBytes_outside s a k bs (h ▸ hk)

/-- Narrowing to a byte loses nothing of a digit (R155). -/
theorem bcdDigits_toNat (b : Byte) : (bcdDigits b).map BitVec.toNat = [b.toNat / 100, b.toNat / 10 % 10, b.toNat % 10] := by
  have := b.isLt
  simp only [bcdDigits, List.map_cons, List.map_nil, BitVec.toNat_ofNat]
  simp (disch := omega) only [Nat.mod_eq_of_lt]

/-- Each stored digit, at its place. -/
theorem readByte_writeBytes_bcdDigits (s : State) (a : Nat) (b : Byte) {k n : Nat}
    (h : [b.toNat / 100, b.toNat / 10 % 10, b.toNat % 10][k]? = some n) :
    ((s.writeBytes a (bcdDigits b)).readByte (a + k)).toNat = n := by
  rw [← bcdDigits_toNat, List.getElem?_map, Option.map_eq_some_iff] at h
  obtain ⟨d, hd, rfl⟩ := h
  obtain ⟨hk, rfl⟩ := List.getElem?_eq_some_iff.1 hd
  rw [readByte_writeBytes_place s a hk]

/-! ## Registers stored at `I`, registers loaded from `I` (R156 to R161) -/

@[simp] theorem advanceI_reg (s : State) (n : Nat) (z : Reg) : (State.advanceI n s).reg z = s.reg z := by
  rw [advanceI_fields]
  rfl
@[simp] theorem advanceI_readByte (s : State) (n k : Nat) : (State.advanceI n s).readByte k = s.readByte k := by
  rw [advanceI_fields]
  rfl

/-- Bytes written and `I` advanced: nothing but memory and `I` changes. -/
theorem advanceI_writeBytes_fields (s : State) (n a : Nat) (bs : List Byte) :
    State.advanceI n (s.writeBytes a bs) =
      { s with mem := (State.advanceI n (s.writeBytes a bs)).mem, i := (State.advanceI n (s.writeBytes a bs)).i } := by
  rw [advanceI_fields, writeBytes_fields]

/-- Registers loaded and `I` advanced: nothing but the registers and `I` changes. -/
theorem advanceI_loadFrom_fields (s : State) (n a : Nat) (rs : List Reg) :
    State.advanceI n (s.loadFrom rs a) =
      { s with v := (State.advanceI n (s.loadFrom rs a)).v, i := (State.advanceI n (s.loadFrom rs a)).i } := by
  rw [advanceI_fields, loadFrom_fields]

/-- All registers after a load of `rs`, the register `r` of which stands at place `place r` (R159, R161). -/
theorem reg_loadFrom_place (s : State) {rs : List Reg} (hn : rs.Nodup) {place : Reg → Nat}
    (hp : ∀ r ∈ rs, rs[place r]? = some r) (a : Nat) (r : Reg) :
    (s.loadFrom rs a).reg r = if r ∈ rs then s.readByte (a + place r) else s.reg r := by
  split
  · next h => exact reg_loadFrom s rs a (place r) r hn (hp r h)
  · next h => exact reg_loadFrom_of_not_mem s rs a r h

theorem length_blockRegs_ne_zero (x : Reg) : (blockRegs x).length ≠ 0 := by
  rw [length_blockRegs]
  exact Nat.succ_ne_zero _

theorem length_rangeRegs_ne_zero (x y : Reg) : (rangeRegs x y).length ≠ 0 := by
  rw [length_rangeRegs]
  exact Nat.succ_ne_zero _

/-- The address of `Vx`, the last one a block transfer needs. -/
theorem blockRegs_last (a : Nat) (x : Reg) : a + (blockRegs x).length - 1 = a + x.val := by
  rw [length_blockRegs]
  rfl

theorem blockRegs_place {x r : Reg} (h : r ∈ blockRegs x) : (blockRegs x)[r.val]? = some r :=
  blockRegs_getElem x r ((mem_blockRegs x r).1 h)

theorem rangeRegs_place {x y r : Reg} (h : r ∈ rangeRegs x y) : (rangeRegs x y)[Nat.dist x.val r.val]? = some r :=
  have ⟨hmin, hmax⟩ := (mem_rangeRegs x y r).1 h
  rangeRegs_getElem x y r hmin hmax

/-- The advance of a block transfer (R158, R159, D22), after an operation that keeps the configuration and `I`. -/
theorem advanceI_block {t : State} (hc : t.cfg = s.cfg) (hi : t.i = s.i) (x : Reg) :
    (State.advanceI (x.val + 1) t).i.toNat =
      if s.cfg.qLoadStore then s.i.toNat else (s.i.toNat + x.val + 1) % 65536 := by
  rw [advanceI_i, hc, hi, Nat.add_assoc]

/-! ## The obligations -/

/-- Settles O24: the fetch reads the literal at the advanced `pc`, or halts there. -/
theorem longLiteralLoadsSixteenBits : Obligations.LongLiteralLoadsSixteenBits := by
  refine ⟨fun _ _ => rfl, fun s s' h hr hm hhi hlo p hp => ?_⟩
  have hl := readWord_of_longLiteral hhi hlo
  rw [step_of_tickNext h]
  simp only [← tickNext_pc h, ← tickNext_memSize h, ← tickNext_readWord h, ← tickNext_readByte h, ← tickNext_run h] at *
  refine ⟨fun hm' => ?_, fun hm' => ?_⟩
  · exact ⟨_, tick_of_fetch_some hr (fetch_of_longLiteral hp hm hl hm'), rfl, readWord_toNat s' p, pc_setPc s' _⟩
  · exact ⟨_, tick_of_fetch_none hr (fetch_of_truncated_longLiteral hp hm hl hm'), rfl, (pc_setPc s' _).trans hp.symm⟩

/-- Settles O27: three bytes written at `I`, each the digit of its place. -/
theorem binaryCodedDecimal : Obligations.BinaryCodedDecimal := fun x s => by
  refine ⟨fun h => ?_, fun h => ⟨_, rfl, withRange_halt (by decide) h _⟩⟩
  have he : exec (.ldB x) s = .next (s.writeBytes s.i.toNat (bcdDigits (s.reg x))) :=
    congrArg Host.Outcome.next (withRange_eq (.inr h) _)
  exact ⟨_, he, writeBytes_fields .., readByte_writeBytes_bcdDigits s _ _ (k := 0) rfl,
    readByte_writeBytes_bcdDigits s _ _ rfl, readByte_writeBytes_bcdDigits s _ _ rfl, sameMemoryOutside_writeBytes s _ rfl⟩

/-- Settles O28: a store of the block of registers, then the advance. -/
theorem storeRegisterBlock : Obligations.StoreRegisterBlock := fun x s => by
  have hlast := blockRegs_last s.i.toNat x
  refine ⟨fun h => ?_, fun h => ⟨_, rfl, hlast ▸ storeAtI_halt (length_blockRegs_ne_zero x) (hlast.symm ▸ h) _⟩⟩
  have he : exec (.storeRegs x) s = .next _ := congrArg Host.Outcome.next (storeAtI_eq (hlast.symm ▸ h) _)
  refine ⟨_, he, advanceI_writeBytes_fields .., fun k hk => ?_, fun k hk => ?_,
    advanceI_block (writeBytes_cfg ..) (writeBytes_i ..) x⟩
  · rw [advanceI_readByte, readByte_store s _ _ _ k (blockRegs_getElem x k hk)]
  · rw [advanceI_readByte, sameMemoryOutside_writeBytes s _ ((List.length_map _).trans (length_blockRegs x)) k hk]

/-- Settles O29: a load of the block of registers, then the advance. -/
theorem loadRegisterBlock : Obligations.LoadRegisterBlock := fun x s => by
  have hlast := blockRegs_last s.i.toNat x
  refine ⟨fun h => ?_, fun h => ⟨_, rfl, hlast ▸ loadAtI_halt (length_blockRegs_ne_zero x) (hlast.symm ▸ h) _⟩⟩
  have he : exec (.loadRegs x) s = .next _ := congrArg Host.Outcome.next (loadAtI_eq (hlast.symm ▸ h) _)
  refine ⟨_, he, advanceI_loadFrom_fields .., fun k => ?_, fun k => ?_,
    advanceI_block (loadFrom_cfg ..) (loadFrom_i ..) x⟩
  · rw [advanceI_reg, reg_loadFrom_place s (nodup_blockRegs x) (fun _ => blockRegs_place)]
    exact if_congr (mem_blockRegs x k) rfl rfl
  · rw [advanceI_readByte, sameMemory_of (loadFrom_mem ..) (loadFrom_cfg ..) k]

/-- Settles O30: a store of the range of registers, each at its distance from `Vx`. -/
theorem saveRegisterRange : Obligations.SaveRegisterRange := by
  rintro x y s _ rfl
  rw [← length_rangeRegs]
  refine ⟨fun h => ?_, fun h => ⟨_, rfl, storeAtI_halt (length_rangeRegs_ne_zero x y) h _⟩⟩
  have he : exec (.save x y) s = .next _ := congrArg Host.Outcome.next (storeAtI_eq h id)
  exact ⟨_, he, writeBytes_fields .., fun r hmin hmax => readByte_store s _ _ _ r (rangeRegs_getElem x y r hmin hmax),
    sameMemoryOutside_writeBytes s _ (List.length_map _)⟩

/-- Settles O31: a load of the range of registers, each from its distance from `Vx`. -/
theorem loadRegisterRange : Obligations.LoadRegisterRange := by
  rintro x y s _ rfl
  rw [← length_rangeRegs]
  refine ⟨fun h => ?_, fun h => ⟨_, rfl, loadAtI_halt (length_rangeRegs_ne_zero x y) h _⟩⟩
  have he : exec (.load x y) s = .next _ := congrArg Host.Outcome.next (loadAtI_eq h id)
  refine ⟨_, he, loadFrom_fields .., sameMemory_of (loadFrom_mem ..) (loadFrom_cfg ..), fun r => ?_⟩
  exact (reg_loadFrom_place s (nodup_rangeRegs x y) (fun _ => rangeRegs_place) _ r).trans
    (if_congr (mem_rangeRegs x y r) rfl rfl)

/-- Settles O23: a write of `I`, the 12 bits widened. -/
theorem loadIndex : Obligations.LoadIndex := fun nnn _ =>
  ⟨ldI_word _ nnn, _, rfl, rfl, BitVec.toNat_setWidth_of_le (by decide), sameMemory_of rfl rfl⟩

/-- Settles O25: a write of `I`; the mask of the addressing width is a reduction modulo `MEMSIZE`. -/
theorem addToIndexMasked : Obligations.AddToIndexMasked := fun x s => by
  refine ⟨_, rfl, rfl, sameMemory_of rfl rfl, ?_⟩
  rw [two_pow_addrBits]
  exact i_setI_of_lt s ((Nat.mod_lt _ (memSize_pos s)).trans_le (memSize_le s))

/-- Settles O26: each is a write of `I`, of an address below 65536 since the digit is below 16. -/
theorem glyphAddresses : Obligations.GlyphAddresses := fun x s => by
  have hd := digit_lt s x
  refine ⟨⟨_, rfl, rfl, sameMemory_of rfl rfl, ?_⟩, ⟨_, rfl, rfl, sameMemory_of rfl rfl, ?_⟩⟩
  · exact i_setI_of_lt s (by omega)
  · exact i_setI_of_lt s (by simp only [Config.bigFontBase]; omega)

end Sys2Proof.Machine

/-! PROOFS. Which instructions write the control state: `I` (42_index_memory.md R163), the timers, the resolution, the plane
mask, the draw mode, the palette, the flags, `SEL` and the output queue (10_state.md R26 to R35). What an instruction may write
is carried through the operations it is composed of, then arm by arm through `exec`. -/

namespace Sys2Proof.Machine

/-! ## The fields, their writers, and what an instruction that is none leaves alone -/

/-- The fields of the state named above. -/
inductive ControlField where
  | i | dt | st | hires | planeMask | drawMode | pal | flags | sel | queue

/-- The writers of each field under a configuration: FX55 and FX65 write `I` only without the load/store quirk (R158, R159);
no instruction writes the queue. -/
inductive WritesControl (c : Config) : Instr → ControlField → Prop where
  | ldI (nnn : BitVec 12) : WritesControl c (.ldI nnn) .i
  | ldl (nnnn : Word) : WritesControl c (.ldl nnnn) .i
  | addI (x : Reg) : WritesControl c (.addI x) .i
  | ldF (x : Reg) : WritesControl c (.ldF x) .i
  | ldHf (x : Reg) : WritesControl c (.ldHf x) .i
  | storeRegs (x : Reg) (hq : c.qLoadStore = false) : WritesControl c (.storeRegs x) .i
  | loadRegs (x : Reg) (hq : c.qLoadStore = false) : WritesControl c (.loadRegs x) .i
  | ldDtVx (x : Reg) : WritesControl c (.ldDtVx x) .dt
  | ldStVx (x : Reg) : WritesControl c (.ldStVx x) .st
  | low : WritesControl c .low .hires
  | high : WritesControl c .high .hires
  | plane (n : BitVec 4) : WritesControl c (.plane n) .planeMask
  | dmor : WritesControl c .dmor .drawMode
  | dmand : WritesControl c .dmand .drawMode
  | dmxor : WritesControl c .dmxor .drawMode
  | pal (x : Reg) : WritesControl c (.pal x) .pal
  | flagsOut (x : Reg) : WritesControl c (.flagsOut x) .flags
  | flagsIn (x : Reg) : WritesControl c (.flagsIn x) .flags
  | voice (x : Reg) : WritesControl c (.voice x) .sel

/-- The field has the same value in both states. -/
def SameField (s t : State) : ControlField → Prop
  | .i => t.i = s.i
  | .dt => t.dt = s.dt
  | .st => t.st = s.st
  | .hires => t.hires = s.hires
  | .planeMask => t.planeMask = s.planeMask
  | .drawMode => t.drawMode = s.drawMode
  | .pal => t.pal = s.pal
  | .flags => t.flags = s.flags
  | .sel => t.sel = s.sel
  | .queue => t.queue = s.queue

/-- From `s` to `t` no field changes but those `w` allows to be written. -/
structure ControlFrame (w : ControlField → Prop) (s t : State) : Prop where
  same : ∀ f, ¬w f → SameField s t f

variable {s t u : State} {w : ControlField → Prop}

theorem SameField.trans {f : ControlField} (h : SameField s t f) (h' : SameField t u f) : SameField s u f := by
  cases f <;> exact Eq.trans h' h

theorem ControlFrame.trans (h : ControlFrame w s t) (h' : ControlFrame w t u) : ControlFrame w s u where
  same f hf := (h.same f hf).trans (h'.same f hf)

/-! ## Operations that write none of the fields -/

/-- The rest of the state may be written by any instruction. -/
theorem controlFrame_of_rest (s : State) (v : Vector Byte 16) (pc : Word) (stack : List Word) (mem : Memory) (run : RunState)
    (planes : Planes) (voices : Vector Voice 4) (cfg : Config) (env : Env) :
    ControlFrame w s { s with v, pc, stack, mem, run, planes, voices, cfg, env } where
  same f _ := by cases f <;> rfl

theorem skipIf_controlFrame (s : State) (c : Bool) : ControlFrame w s (skipIf c s) := by
  rw [skipIf_fields]
  exact controlFrame_of_rest ..

theorem setLogic_controlFrame (s : State) (x : Reg) (r : Byte) : ControlFrame w s (s.setLogic x r) := by
  rw [setLogic_fields]
  exact controlFrame_of_rest ..

theorem updateVoice_controlFrame (s : State) (g : Voice → Voice) : ControlFrame w s (s.updateVoice g) := by
  rw [updateVoice_fields]
  exact controlFrame_of_rest ..

theorem writeBytes_controlFrame (s : State) (a : Nat) (bs : List Byte) : ControlFrame w s (s.writeBytes a bs) := by
  rw [writeBytes_fields]
  exact controlFrame_of_rest ..

theorem loadFrom_controlFrame (s : State) (rs : List Reg) (a : Nat) : ControlFrame w s (s.loadFrom rs a) := by
  rw [loadFrom_fields]
  exact controlFrame_of_rest ..

theorem restoreFlags_controlFrame (s : State) (rs : List Reg) : ControlFrame w s (rs.foldl State.restoreFlag s) := by
  rw [foldl_restoreFlag_fields]
  exact controlFrame_of_rest ..

/-- A guarded access halts, which writes `RUN` only, or does what it guards. -/
theorem ControlFrame.withRange (h : ControlFrame w s t) (a n : Nat) : ControlFrame w s (s.withRange a n t) := by
  rcases withRange_cases s a n t with ⟨e, -⟩ | ⟨e, -, -⟩ <;> rw [e]
  · exact h
  · exact controlFrame_of_rest ..

/-! ## Operations that write one of the fields: a writer of it may apply them -/

theorem setI_controlFrame (hw : w .i) (s : State) (a : Word) : ControlFrame w s (s.setI a) where
  same f hf := by
    cases f with
    | i => exact absurd hw hf
    | _ => rfl

theorem setDt_controlFrame (hw : w .dt) (s : State) (b : Byte) : ControlFrame w s (s.setDt b) where
  same f hf := by
    cases f with
    | dt => exact absurd hw hf
    | _ => rfl

theorem setSt_controlFrame (hw : w .st) (s : State) (b : Byte) : ControlFrame w s (s.setSt b) where
  same f hf := by
    cases f with
    | st => exact absurd hw hf
    | _ => rfl

theorem setHires_controlFrame (hw : w .hires) (s : State) (b : Bool) : ControlFrame w s (s.setHires b) where
  same f hf := by
    cases f with
    | hires => exact absurd hw hf
    | _ => rfl

theorem setPlaneMask_controlFrame (hw : w .planeMask) (s : State) (n : BitVec 4) : ControlFrame w s (s.setPlaneMask n) where
  same f hf := by
    cases f with
    | planeMask => exact absurd hw hf
    | _ => rfl

theorem setDrawMode_controlFrame (hw : w .drawMode) (s : State) (m : DrawMode) : ControlFrame w s (s.setDrawMode m) where
  same f hf := by
    cases f with
    | drawMode => exact absurd hw hf
    | _ => rfl

theorem setPal_controlFrame (hw : w .pal) (s : State) (p : Vector Rgb 16) : ControlFrame w s (s.setPal p) where
  same f hf := by
    cases f with
    | pal => exact absurd hw hf
    | _ => rfl

theorem setFlags_controlFrame (hw : w .flags) (s : State) (v : FlagVec) : ControlFrame w s (s.setFlags v) where
  same f hf := by
    cases f with
    | flags => exact absurd hw hf
    | _ => rfl

theorem setSel_controlFrame (hw : w .sel) (s : State) (b : Byte) : ControlFrame w s (s.setSel b) where
  same f hf := by
    cases f with
    | sel => exact absurd hw hf
    | _ => rfl

theorem saveFlags_controlFrame (hw : w .flags) (s : State) (rs : List Reg) :
    ControlFrame w s (rs.foldl State.saveFlag s) := by
  rw [foldl_saveFlag_fields]
  exact setFlags_controlFrame hw s _

/-- The advance of `I` needs a writer of `I` only when the quirk does not suppress it. -/
theorem advanceI_controlFrame (hw : s.cfg.qLoadStore = false → w .i) (n : Nat) : ControlFrame w s (State.advanceI n s) := by
  unfold State.advanceI
  split
  · exact controlFrame_of_rest ..
  · next hq => exact setI_controlFrame (hw (Bool.eq_false_iff.2 hq)) s _

/-! ## Every instruction -/

/-- If there is a next state, it is within the frame. -/
def NextControlFrame (w : ControlField → Prop) (s : State) (o : Host.Outcome State Fault Refusal) : Prop :=
  ∀ t, o = .next t → ControlFrame w s t

theorem nextControlFrame_next (h : ControlFrame w s t) : NextControlFrame w s (.next t) := by
  rintro _ ⟨⟩
  exact h

theorem execCall_controlFrame (nnn : BitVec 12) (s : State) : NextControlFrame w s (execCall nnn s) := by
  refine nextControlFrame_next ?_
  split <;> exact controlFrame_of_rest ..

theorem execRet_controlFrame (s : State) : NextControlFrame w s (execRet s) := by
  refine nextControlFrame_next ?_
  split <;> exact controlFrame_of_rest ..

theorem execPlane_controlFrame (hw : w .planeMask) (n : BitVec 4) (s : State) : NextControlFrame w s (execPlane n s) := by
  refine nextControlFrame_next ?_
  split
  · exact controlFrame_of_rest ..
  · exact setPlaneMask_controlFrame hw s n

theorem execAudio_controlFrame (m : BitVec 4) (s : State) : NextControlFrame w s (execAudio m s) := by
  refine nextControlFrame_next ?_
  split
  · refine ControlFrame.withRange ?_ _ _
    exact (controlFrame_of_rest s ..).trans (updateVoice_controlFrame (s.emit _) _)
  · exact controlFrame_of_rest ..

/-- Arm by arm: an instruction writes the fields it is a writer of, and no other. -/
theorem exec_controlFrame (i : Instr) (s : State) : NextControlFrame (WritesControl s.cfg i) s (exec i s) := by
  cases i with
  | ldI n => exact nextControlFrame_next (setI_controlFrame (.ldI n) s _)
  | ldl n => exact nextControlFrame_next (setI_controlFrame (.ldl n) s _)
  | addI x => exact nextControlFrame_next (setI_controlFrame (.addI x) s _)
  | ldF x => exact nextControlFrame_next (setI_controlFrame (.ldF x) s _)
  | ldHf x => exact nextControlFrame_next (setI_controlFrame (.ldHf x) s _)
  | storeRegs x =>
    refine nextControlFrame_next (((writeBytes_controlFrame s _ _).trans (advanceI_controlFrame ?_ _)).withRange _ _)
    rw [writeBytes_cfg]
    exact .storeRegs x
  | loadRegs x =>
    refine nextControlFrame_next (((loadFrom_controlFrame s _ _).trans (advanceI_controlFrame ?_ _)).withRange _ _)
    rw [loadFrom_cfg]
    exact .loadRegs x
  | ldDtVx x => exact nextControlFrame_next (setDt_controlFrame (.ldDtVx x) s _)
  | ldStVx x =>
    refine nextControlFrame_next ((setSt_controlFrame (.ldStVx x) s (s.reg x)).trans ?_)
    exact (controlFrame_of_rest _ ..).trans (updateVoice_controlFrame ((s.setSt _).emit _) _)
  | low => exact nextControlFrame_next ((setHires_controlFrame .low s false).trans (controlFrame_of_rest ..))
  | high => exact nextControlFrame_next ((setHires_controlFrame .high s true).trans (controlFrame_of_rest ..))
  | plane n => exact execPlane_controlFrame (.plane n) n s
  | dmor => exact nextControlFrame_next (setDrawMode_controlFrame .dmor s _)
  | dmand => exact nextControlFrame_next (setDrawMode_controlFrame .dmand s _)
  | dmxor => exact nextControlFrame_next (setDrawMode_controlFrame .dmxor s _)
  | pal x => exact nextControlFrame_next ((setPal_controlFrame (.pal x) s _).withRange _ _)
  | flagsOut x => exact nextControlFrame_next ((saveFlags_controlFrame (.flagsOut x) s _).trans (controlFrame_of_rest ..))
  | flagsIn x =>
    refine nextControlFrame_next (ControlFrame.trans ?_ (restoreFlags_controlFrame _ _))
    exact (controlFrame_of_rest s ..).trans (setFlags_controlFrame (.flagsIn x) s.afterFlagsAnswer _)
  | voice x => exact nextControlFrame_next ((setSel_controlFrame (.voice x) s (s.reg x)).trans (controlFrame_of_rest ..))
  | call nnn => exact execCall_controlFrame nnn s
  | ret => exact execRet_controlFrame s
  | audio m => exact execAudio_controlFrame m s
  | ldB x => exact nextControlFrame_next ((writeBytes_controlFrame s _ _).withRange _ _)
  | save x y => exact nextControlFrame_next ((writeBytes_controlFrame s _ _).withRange _ _)
  | load x y => exact nextControlFrame_next ((loadFrom_controlFrame s _ _).withRange _ _)
  | drw x y n => exact nextControlFrame_next ((controlFrame_of_rest s ..).withRange _ _)
  | seImm | sneImm | seReg | sneReg => exact nextControlFrame_next (skipIf_controlFrame s _)
  | skp | sknp => exact nextControlFrame_next ((controlFrame_of_rest s ..).trans (skipIf_controlFrame s.afterKeySample _))
  | or | and | xor => exact nextControlFrame_next (setLogic_controlFrame s _ _)
  | pitch | vol | chan =>
    exact nextControlFrame_next ((controlFrame_of_rest s ..).trans (updateVoice_controlFrame (s.emit _) _))
  | scd | scu | cls | inv | scr | scl | jp | jpOff | exit | ldVxK | ldImm | addImm | ldReg | ldVxDt | rnd | addReg | sub | shr
  | subn | mul | div | shl | divn =>
    exact nextControlFrame_next (controlFrame_of_rest ..)

/-! ## The obligation -/

/-- Settles O57: `exec_controlFrame` field by field; the premises of each clause exclude the writers of its field. -/
theorem writersOfTheControlState : Obligations.WritersOfTheControlState := fun i s t h => by
  have hf := exec_controlFrame i s t h
  refine ⟨hf.same .queue nofun, fun hn hl hx hq => hf.same .i ?_, fun hx => hf.same .dt ?_, fun hx => hf.same .st ?_,
    fun ho ha hx => hf.same .drawMode ?_, fun hl hh => hf.same .hires ?_, fun hn => hf.same .planeMask ?_,
    fun hx => hf.same .pal ?_, fun hx => hf.same .flags ?_, fun hx => hf.same .sel ?_⟩
  · rintro (n | n | x | x | x | ⟨x, hs⟩ | ⟨x, hs⟩)
    · exact hn n rfl
    · exact hl n rfl
    · exact (hx x).1 rfl
    · exact (hx x).2.1 rfl
    · exact (hx x).2.2 rfl
    · exact (hq hs x).1 rfl
    · exact (hq hs x).2 rfl
  · rintro ⟨⟩
    exact hx _ rfl
  · rintro ⟨⟩
    exact hx _ rfl
  · rintro ⟨⟩
    · exact ho rfl
    · exact ha rfl
    · exact hx rfl
  · rintro ⟨⟩
    · exact hl rfl
    · exact hh rfl
  · rintro ⟨⟩
    exact hn _ rfl
  · rintro ⟨⟩
    exact hx _ rfl
  · rintro ⟨⟩
    · exact (hx _).1 rfl
    · exact (hx _).2 rfl
  · rintro ⟨⟩
    exact hx _ rfl

end Sys2Proof.Machine

/-! PROOFS. The display draw engine (43_display.md R170 to R194). Clear, invert and the scrolls give each cell of the selected
planes a new value; a draw is `afterDraw`, and Laws/Display.lean says once, cell by cell, what these do. -/

namespace Sys2Proof.Machine

variable {s : State}

/-! ## Clear, invert, scrolls (R170 to R176) -/

/-- The clear covers the whole grid; outside the grid there is no cell to clear. -/
theorem cell_mapSelected_false (s : State) {p : Nat} (h : s.Selects p) (y x : Nat) :
    cell (s.mapSelected fun _ _ _ => false).planes p y x = false := by
  rw [cell_mapSelected]
  split
  · rfl
  · next hg =>
    have hout : ¬(y < 64 ∧ x < 128) := fun hin => hg ⟨h, hin⟩
    exact cell_outside _ _ _ _ (by omega)

theorem cell_mapSelected_of_not_selects (f : (Nat → Nat → Bool) → Nat → Nat → Bool) {p : Nat} (h : ¬s.Selects p)
    (y x : Nat) : cell (s.mapSelected f).planes p y x = cell s.planes p y x := by
  rw [cell_mapSelected, if_neg fun hs => h hs.1]

/-- An operation on the active region, where `g` says what it makes of the planes of `s`: only active cells of the selected
planes change, and nothing beside the planes (R171). -/
theorem mapActive_outcome (s : State) {f : (Nat → Nat → Bool) → Nat → Nat → Bool} {g : Nat → Nat → Nat → Bool}
    (hg : ∀ p y x, f (cell s.planes p) y x = g p y x) :
    s.mapActive f = { s with planes := (s.mapActive f).planes } ∧ SameMemory s (s.mapActive f) ∧
    (∀ p y x, s.Selects p → s.Active y x → cell (s.mapActive f).planes p y x = g p y x) ∧
    (∀ p y x, ¬(s.Selects p ∧ s.Active y x) → cell (s.mapActive f).planes p y x = cell s.planes p y x) := by
  refine ⟨mapSelected_fields .., sameMemory_of rfl rfl, fun p y x hs ha => ?_, fun p y x h => ?_⟩
  · rw [cell_mapActive, if_pos ⟨hs, ha⟩, hg]
  · rw [cell_mapActive, if_neg h]

/-! ## The plane mask (R186) -/

theorem exec_plane_of_ne_zero (s : State) {n : BitVec 4} (h : n ≠ 0) : exec (.plane n) s = .next (s.setPlaneMask n) :=
  congrArg Host.Outcome.next (if_neg h)

/-! ## One draw (R188 to R192) -/

theorem flagByte_eq_one_iff (c : Bool) : flagByte c = 1 ↔ c = true := by cases c <;> decide

/-- What a draw whose sprite data lie in memory leaves: the drawn planes and the collision flag. -/
def State.afterDraw (s : State) (x y : Reg) (n : BitVec 4) : State :=
  (s.setPlanes (s.drawn x y n).1).setReg vf (flagByte (s.drawn x y n).2)

section Draw

variable {x y : Reg} {n : BitVec 4}

theorem exec_drw_of_fits (x y : Reg) (h : s.drawBytes n = 0 ∨ s.i.toNat + s.drawBytes n - 1 < s.memSize) :
    exec (.drw x y n) s = .next (s.afterDraw x y n) :=
  congrArg Host.Outcome.next (withRange_eq h _)

@[simp] theorem afterDraw_reg_vf : (s.afterDraw x y n).reg vf = flagByte (s.drawn x y n).2 := reg_setReg_self ..

theorem afterDraw_reg_of_ne {r : Reg} (h : r ≠ vf) : (s.afterDraw x y n).reg r = s.reg r := reg_setReg_of_ne _ _ _ _ h

theorem cell_afterDraw_of_hit {p ty tx : Nat} (hs : s.Selects p) (hh : s.SpriteHits x y n p ty tx) :
    cell (s.afterDraw x y n).planes p ty tx = compose s.drawMode (cell s.planes p ty tx) true :=
  ((drawn_spec s x y n).1 p ty tx).trans (if_pos ⟨hs, hh⟩)

theorem cell_afterDraw_of_not_hit {p ty tx : Nat} (h : ¬(s.Selects p ∧ s.SpriteHits x y n p ty tx)) :
    cell (s.afterDraw x y n).planes p ty tx = cell s.planes p ty tx :=
  ((drawn_spec s x y n).1 p ty tx).trans (if_neg h)

/-- `VF` is the collision flag (R191). -/
theorem afterDraw_vf_eq_one_iff : (s.afterDraw x y n).reg vf = 1 ↔
    ∃ p ty tx, s.Selects p ∧ s.SpriteHits x y n p ty tx ∧ cell s.planes p ty tx = true := by
  rw [afterDraw_reg_vf, flagByte_eq_one_iff]
  exact (drawn_spec s x y n).2

@[simp] theorem afterDraw_drawMode : (s.afterDraw x y n).drawMode = s.drawMode := rfl

/-- A draw leaves in place the mask, and all that the position and the data of a sprite are read from unless `VF` holds the
position. -/
theorem selects_and_spriteHits_afterDraw (hx : x ≠ vf) (hy : y ≠ vf) (p ty tx : Nat) :
    (s.afterDraw x y n).Selects p ∧ (s.afterDraw x y n).SpriteHits x y n p ty tx ↔
      s.Selects p ∧ s.SpriteHits x y n p ty tx := by
  unfold State.SpriteHits
  rw [afterDraw_reg_of_ne hx, afterDraw_reg_of_ne hy]
  rfl

/-- Under XOR a hit cell is toggled, and the second draw toggles it again (R192 f). -/
theorem cell_afterDraw_afterDraw_xor (hx : x ≠ vf) (hy : y ≠ vf) (hm : s.drawMode = .xor) (p ty tx : Nat) :
    cell ((s.afterDraw x y n).afterDraw x y n).planes p ty tx = cell s.planes p ty tx := by
  have again := selects_and_spriteHits_afterDraw (s := s) (n := n) hx hy p ty tx
  by_cases h : s.Selects p ∧ s.SpriteHits x y n p ty tx
  · obtain ⟨hs', hh'⟩ := again.2 h
    rw [cell_afterDraw_of_hit hs' hh', cell_afterDraw_of_hit h.1 h.2, afterDraw_drawMode, hm]
    simp only [compose, Bool.xor_true, Bool.not_not]
  · rw [cell_afterDraw_of_not_hit (again.not.2 h), cell_afterDraw_of_not_hit h]

/-- A cell that an XOR draw without collision hits was clear, so it is set afterwards and the same draw collides with it. -/
theorem afterDraw_afterDraw_xor_vf (hx : x ≠ vf) (hy : y ≠ vf) (hm : s.drawMode = .xor) {p ty tx : Nat}
    (hs : s.Selects p) (hh : s.SpriteHits x y n p ty tx) (hv : (s.afterDraw x y n).reg vf = 0) :
    ((s.afterDraw x y n).afterDraw x y n).reg vf = 1 := by
  have hclear : cell s.planes p ty tx = false := Bool.eq_false_iff.2 fun hc => by
    rw [afterDraw_vf_eq_one_iff.2 ⟨p, ty, tx, hs, hh, hc⟩] at hv
    exact absurd hv (by decide)
  obtain ⟨hs', hh'⟩ := (selects_and_spriteHits_afterDraw hx hy p ty tx).2 ⟨hs, hh⟩
  refine afterDraw_vf_eq_one_iff.2 ⟨p, ty, tx, hs', hh', ?_⟩
  rw [cell_afterDraw_of_hit hs hh, hm, hclear]
  rfl

end Draw

/-! ## The obligations -/

/-- Settles O32: 00E0 gives every cell of a selected plane the value 0, 00E1 every active one its complement. -/
theorem clearAndInvert : Obligations.ClearAndInvert := fun s =>
  ⟨⟨_, rfl, mapSelected_fields .., sameMemory_of rfl rfl, fun _ y x h => cell_mapSelected_false s h y x,
      fun _ y x h => cell_mapSelected_of_not_selects _ h y x⟩,
    _, rfl, mapActive_outcome s fun _ _ _ => rfl⟩

/-- Settles O33: each scroll is an operation on the active region, which reads the cell at its distance or fills with 0. -/
theorem scrollsMoveTheActiveRegion : Obligations.ScrollsMoveTheActiveRegion := fun _ s =>
  ⟨⟨_, rfl, mapActive_outcome s fun _ _ _ => Bool.if_false_right ..⟩,
    ⟨_, rfl, mapActive_outcome s fun _ _ _ => Bool.if_false_right ..⟩,
    ⟨_, rfl, mapActive_outcome s fun _ _ _ => Bool.if_false_right ..⟩,
    ⟨_, rfl, mapActive_outcome s fun _ _ _ => Bool.if_false_right ..⟩⟩

/-- Settles O36: `drawn_spec` touches hit cells only, which are active; the registers change by one write of `VF`. -/
theorem drawChangesOnlySelectedPlanesAndVF : Obligations.DrawChangesOnlySelectedPlanesAndVF := fun x y n s => by
  refine ⟨fun h => ⟨_, exec_drw_of_fits x y h, rfl, ?_, fun _ => afterDraw_reg_of_ne, sameMemory_of rfl rfl,
    fun p cy cx ha => cell_afterDraw_of_not_hit fun ⟨hs, hh⟩ => ha ⟨hs, active_of_spriteHits hh⟩⟩,
    fun hn h => ⟨_, rfl, withRange_halt hn h _⟩⟩
  rw [afterDraw_reg_vf]
  cases (s.drawn x y n).2
  · exact .inl rfl
  · exact .inr rfl

/-- Settles O37: a hit cell is composed with a set bit, which is the rule of each draw mode. -/
theorem drawComposesTheCellsTheSpriteHits : Obligations.DrawComposesTheCellsTheSpriteHits := fun x y _ s _ hf ht => by
  cases (exec_drw_of_fits x y hf).symm.trans ht
  refine ⟨fun p ty tx hs hh => ?_, fun p ty tx => cell_afterDraw_of_not_hit, afterDraw_vf_eq_one_iff⟩
  rw [cell_afterDraw_of_hit hs hh]
  cases s.drawMode with
  | xor => exact Bool.xor_true _
  | or => exact Bool.or_true _
  | and => exact Bool.and_true _

/-- Settles O38: the second draw reads the same sprite at the same place, so it toggles the same cells. -/
theorem xorDrawTwiceRestores : Obligations.XorDrawTwiceRestores := fun x y n s _ _ hx hy hm hf ht hu => by
  cases (exec_drw_of_fits x y hf).symm.trans ht
  cases (exec_drw_of_fits (s := s.afterDraw x y n) x y hf).symm.trans hu
  exact ⟨cell_afterDraw_afterDraw_xor hx hy hm, fun ⟨_, _, _, hs, hh⟩ => afterDraw_afterDraw_xor_vf hx hy hm hs hh⟩

/-- Settles O39: one slot written, after the range check of the three bytes. -/
theorem paletteLoad : Obligations.PaletteLoad := fun x s => by
  refine ⟨fun h => ?_, fun h => ⟨_, rfl, withRange_halt (by decide) h _⟩⟩
  have he : exec (.pal x) s = .next _ := congrArg Host.Outcome.next (withRange_eq (.inr h) _)
  exact ⟨_, he, rfl, sameMemory_of rfl rfl,
    fun k => (Vector.getElem_set (Nat.mod_lt _ (by decide)) k.isLt).trans (if_congr eq_comm rfl rfl)⟩

/-- Settles O34: each switch writes `HIRES`, then clears all planes without a look at the mask. -/
theorem resolutionSwitchesClearAllPlanes : Obligations.ResolutionSwitchesClearAllPlanes := fun s =>
  ⟨⟨_, rfl, rfl, sameMemory_of rfl rfl, cell_clearAll (s.setHires false)⟩,
    ⟨_, rfl, rfl, sameMemory_of rfl rfl, cell_clearAll (s.setHires true)⟩⟩

/-- Settles O35: each is one field written; the illegal FN01 records the word of its fields. -/
theorem drawModeAndPlaneMask : Obligations.DrawModeAndPlaneMask := fun s =>
  ⟨rfl, rfl, rfl, fun _ => exec_plane_of_ne_zero s, _, wordXNN_toNat 0xF 0 s.cfg.enc.1.plane, rfl⟩

end Sys2Proof.Machine

/-! PROOFS. Timers, the key wait, persistent flags and exit (44_keys_timers_system.md R202 to R212), and what an instruction
does to `RUN` (R213). The timers, the wait and the exit are one write each; FX18 adds a voice write, the flag instructions a
copy along `V0..Vx`. For R213 the run state is carried through the operations, then arm by arm through `exec`. -/

namespace Sys2Proof.Machine

variable {s t u : State} {a : Option FlagVec} {rest : List (Option FlagVec)}

/-! ## The key release (R203) -/

/-- A release writes a register and `RUN` at most. -/
theorem keyRelease_env (code : Byte) (s : State) : (keyRelease code s).env = s.env := by
  unfold keyRelease
  split <;> rfl

theorem keyRelease_of_waiting {x : Reg} (h : s.run = .waitingForKey x) (code : Byte) :
    keyRelease code s = (s.setReg x code).setRun .running := by
  unfold keyRelease
  rw [h]

theorem keyRelease_of_not_waiting (h : ∀ x, s.run ≠ .waitingForKey x) (code : Byte) : keyRelease code s = s := by
  unfold keyRelease
  split
  · next x hx => exact absurd hx (h x)
  · rfl
  · rfl

/-! ## The `import_flags` port (R211) -/

theorem flagsAnswer_of_waiting (h : s.env.flagsIn = a :: rest) : s.flagsAnswer = a := by
  rw [State.flagsAnswer, h, List.headD_cons]

/-- What FX85 leaves in the working copy, whatever it loads from there. -/
theorem importedFlags_of_waiting (h : s.env.flagsIn = a :: rest) (rs : List Reg) :
    (rs.foldl State.restoreFlag (s.afterFlagsAnswer.setFlags (importedFlags s.flagsAnswer))).flags = importedFlags a := by
  rw [foldl_restoreFlag_flags, setFlags_flags, flagsAnswer_of_waiting h]

/-! ## The run state (R213): one rule per operation -/

/-- `RUN` stays as it was, or the machine halts in an error. -/
def RunKeptOrErrorHalt (s t : State) : Prop := t.run = s.run ∨ ∃ r, t.run = .halted r ∧ r ≠ .exit

theorem raiseHalt_errorHalt {r : HaltReason} (h : r ≠ .exit) : RunKeptOrErrorHalt s (raiseHalt r s) := .inr ⟨r, rfl, h⟩

theorem RunKeptOrErrorHalt.ite {c : Prop} [Decidable c] (ht : RunKeptOrErrorHalt s t) (hu : RunKeptOrErrorHalt s u) :
    RunKeptOrErrorHalt s (if c then t else u) := by
  split
  · exact ht
  · exact hu

/-- A guarded access does what it guards, or halts with `AccessOutOfRange`. -/
theorem RunKeptOrErrorHalt.withRange (h : RunKeptOrErrorHalt s t) (a n : Nat) : RunKeptOrErrorHalt s (s.withRange a n t) :=
  h.ite (raiseHalt_errorHalt nofun)

/-- The skip's one access is its peek (40 R100). -/
theorem skipIf_runKeptOrErrorHalt (s : State) (c : Bool) : RunKeptOrErrorHalt s (skipIf c s) :=
  .ite (.withRange (.inl (setPc_run s _)) _ _) (.inl rfl)

/-! ## The run state (R213): every instruction -/

/-- There is a next state, and its run state is as before or that of an error halt. -/
def NextRunKeptOrErrorHalt (s : State) (o : Host.Outcome State Fault Refusal) : Prop :=
  ∃ t, o = .next t ∧ RunKeptOrErrorHalt s t

theorem nextRun_next (h : RunKeptOrErrorHalt s t) : NextRunKeptOrErrorHalt s (.next t) := ⟨t, rfl, h⟩

/-- The return is the one arm that matches on the state. -/
theorem execRet_nextRun (s : State) : NextRunKeptOrErrorHalt s (execRet s) := by
  refine nextRun_next ?_
  split
  · exact raiseHalt_errorHalt nofun
  · exact .inl rfl

/-- Arm by arm: only 00FD and FX0A act on the run state. -/
theorem exec_nextRun {i : Instr} (he : i ≠ .exit) (hk : ∀ x, i ≠ .ldVxK x) (s : State) :
    NextRunKeptOrErrorHalt s (exec i s) := by
  cases i with
  | exit => exact absurd rfl he
  | ldVxK x => exact absurd rfl (hk x)
  | ret => exact execRet_nextRun s
  | call | plane => exact nextRun_next (.ite (raiseHalt_errorHalt nofun) (.inl rfl))
  | audio =>
    exact nextRun_next (.ite (.withRange (.inl ((updateVoice_run (s.emit _) _).trans (emit_run s _))) _ _)
      (raiseHalt_errorHalt nofun))
  | seImm | sneImm | seReg | sneReg => exact nextRun_next (skipIf_runKeptOrErrorHalt s _)
  | skp | sknp => exact nextRun_next (skipIf_runKeptOrErrorHalt s.afterKeySample _)
  | drw => exact nextRun_next (.withRange (.inl ((setReg_run (s.setPlanes _) _ _).trans (setPlanes_run s _))) _ _)
  | pal => exact nextRun_next (.withRange (.inl (setPal_run s _)) _ _)
  | ldB | save => exact nextRun_next (.withRange (.inl (writeBytes_run s _ _)) _ _)
  | load => exact nextRun_next (.withRange (.inl (loadFrom_run s _ _)) _ _)
  | storeRegs => exact nextRun_next (.withRange (.inl ((advanceI_run _ _).trans (writeBytes_run s _ _))) _ _)
  | loadRegs => exact nextRun_next (.withRange (.inl ((advanceI_run _ _).trans (loadFrom_run s _ _))) _ _)
  | or | and | xor => exact nextRun_next (.inl (setLogic_run s _ _))
  | ldStVx | pitch | vol | chan => exact nextRun_next (.inl (updateVoice_run _ _))
  | flagsOut => exact nextRun_next (.inl (foldl_saveFlag_run s _))
  | flagsIn => exact nextRun_next (.inl (foldl_restoreFlag_run _ _))
  | scd | scu | cls | inv | scr | scl | low | high | dmor | dmand | dmxor | jp | jpOff | ldImm | addImm | ldReg | ldVxDt | rnd
  | addReg | sub | shr | subn | mul | div | shl | divn | ldI | ldl | addI | ldF | ldHf | ldDtVx | voice =>
    exact nextRun_next (.inl rfl)

/-! ## The obligations -/

/-- Settles O40: the event taken off the schedule is delivered by `keyRelease`, which acts on a waiting state only. -/
theorem keyWaitAndRelease : Obligations.KeyWaitAndRelease := by
  refine ⟨fun _ _ => rfl, fun s code rest h => ⟨_, step_of_event h, keyRelease_env _ _, fun x hx => ?_, fun hn => ?_⟩⟩
  · rw [keyRelease_of_waiting (s := s.setEnv { s.env with events := rest }) hx]
    exact ⟨rfl, reg_setReg_self _ x code, fun r hr => reg_setReg_of_ne _ x r code hr⟩
  · rw [keyRelease_of_not_waiting (s := s.setEnv { s.env with events := rest }) hn]
    rfl

/-- Settles O43: one write of `ST`, the hook, and `startVoice` on the voice `SEL` addresses. -/
theorem soundTimerStartsTheSelectedVoice : Obligations.SoundTimerStartsTheSelectedVoice := fun _ _ => by
  refine ⟨_, rfl, ?_, updateVoice_fields _ _, fun h => ?_, fun k hk => ?_, fun k hk => ?_⟩
  · exact sameMemory_of (updateVoice_mem _ _) (updateVoice_cfg _ _)
  · rw [updateVoice_null]
    · rfl
    · exact h
  · exact (voices_updateVoice _ _ k).trans (if_neg hk)
  · exact (voices_updateVoice _ _ k).trans (if_pos hk)

/-- Settles O44: each copies along `V0..Vx`, which `mem_blockRegs` says are the registers up to `x`. -/
theorem flagsExportAndImport : Obligations.FlagsExportAndImport := fun x s => by
  refine ⟨⟨_, rfl, ?_, ?_, fun k => ?_⟩, _, rfl, ?_, ?_, fun f rest h => ?_, fun rest h k => ?_, fun k => ?_⟩
  · exact sameMemory_of (foldl_saveFlag_mem s _) (foldl_saveFlag_cfg s _)
  · exact congrArg State.exportFlags (foldl_saveFlag_fields s _)
  · exact (foldl_saveFlag_flags s _ k).trans (if_congr (mem_blockRegs x k) rfl rfl)
  · exact sameMemory_of (foldl_restoreFlag_mem _ _) (foldl_restoreFlag_cfg _ _)
  · rw [foldl_restoreFlag_flags]
    exact foldl_restoreFlag_fields _ _
  · exact importedFlags_of_waiting h _
  · rw [importedFlags_of_waiting h]
    exact Vector.getElem_replicate _
  · rw [foldl_restoreFlag_reg, foldl_restoreFlag_flags]
    exact if_congr (mem_blockRegs x k) rfl rfl

/-- Settles O59: `exec_nextRun`, with 00FD, which halts with `Exit`, and FX0A, which waits, apart. -/
theorem everyInstructionTakesANextState : Obligations.EveryInstructionTakesANextState := fun i s => by
  by_cases he : i = .exit
  · subst he
    exact ⟨_, rfl, .inr (.inl ⟨.exit, rfl, iff_of_true rfl rfl⟩)⟩
  by_cases hk : ∃ x, i = .ldVxK x
  · obtain ⟨x, rfl⟩ := hk
    exact ⟨_, rfl, .inr (.inr ⟨x, rfl, rfl⟩)⟩
  obtain ⟨t, ht, hr | ⟨r, hr, hne⟩⟩ := exec_nextRun he (not_exists.1 hk) s
  · exact ⟨t, ht, .inl hr⟩
  · exact ⟨t, ht, .inr (.inl ⟨r, hr, iff_of_false hne he⟩)⟩

/-- Settles O41: a register write, and a write of `DT`. -/
theorem delayTimerReadAndWrite : Obligations.DelayTimerReadAndWrite := fun x s =>
  ⟨⟨_, rfl, reg_setReg_self s x s.dt, setReg_onlyRegs s x s.dt⟩, rfl⟩

/-- Settles O45: `on_exit` is emitted, then `RUN` is written. -/
theorem exitStopsTheMachine : Obligations.ExitStopsTheMachine := fun _ => rfl

end Sys2Proof.Machine

/-! PROOFS. Audio (45_audio.md). A voice control is a hook and one write of the selected voice; FM02 is one more, of the
unpacked pattern. The pitch law is stated of `phaseReal`, the real number a phase stands for, and of `readPos`, the same in
buffer samples. For `Render` each voice's samples are read off one channel at a time, then summed through the mix. -/

namespace Sys2Proof.Machine

/-! ## Voice controls (R220 to R226) -/

/-- What a hook and a write of the selected voice do (R221); the null voice discards the write (D26). -/
theorem emit_updateVoice_spec (s : State) (o : Output) (f : Voice → Voice) :
    SameMemory s ((s.emit o).updateVoice f) ∧
    (s.emit o).updateVoice f =
      { s with voices := ((s.emit o).updateVoice f).voices, env := { s.env with out := s.env.out ++ [o] } } ∧
    (4 ≤ s.sel.toNat → ((s.emit o).updateVoice f).voices = s.voices) ∧
    ∀ k : Fin 4, ((s.emit o).updateVoice f).voices[k] = if k.val = s.sel.toNat then f s.voices[k] else s.voices[k] :=
  ⟨sameMemory_of (updateVoice_mem _ _) (updateVoice_cfg _ _), updateVoice_fields _ _,
    fun h => (congrArg State.voices (updateVoice_null (s.emit o) f h)).trans (emit_voices s o), voices_updateVoice _ _⟩

theorem chanMask_toNat (s : State) (x : Reg) : (s.chanMask x).toNat = (s.reg x).toNat % 4 := BitVec.toNat_setWidth ..

/-! ## The pattern load (R222, R223) -/

/-- The bytes FM02 unpacks. -/
def State.pattern (s : State) : List Byte := s.readBytes (s.dataAddr 0) s.cfg.patternBytes

theorem length_pattern (s : State) : s.pattern.length = s.cfg.patternBytes := length_readBytes ..

theorem getD_pattern (s : State) {k : Nat} (hk : k < s.cfg.patternBytes) :
    s.pattern.getD k 0 = s.readByte (s.i.toNat + k) := by
  simp [State.pattern, State.readBytes, State.dataAddr, List.getD_eq_getElem?_getD, hk]

/-- The state after FM02 with a legal `M` and the pattern in memory. -/
def State.afterAudio (s : State) (m : BitVec 4) : State :=
  (s.emit (.onVoiceBufferLoad s.pattern (2 ^ m.toNat))).updateVoice fun q => { q with buf := unpack s.pattern (2 ^ m.toNat) }

/-- With a legal `M` FM02 is a guarded access to the pattern. -/
theorem exec_audio_of_legal {m : BitVec 4} (hm : m.toNat ≤ 3) (s : State) :
    exec (.audio m) s = .next (s.withRange s.i.toNat s.cfg.patternBytes (s.afterAudio m)) :=
  congrArg Host.Outcome.next (if_pos hm)

theorem exec_audio_of_illegal {m : BitVec 4} (hm : 3 < m.toNat) (s : State) :
    exec (.audio m) s = .next (raiseHalt (.unknownOpcode (wordXNN 0xF m s.cfg.enc.1.pattern)) s) :=
  congrArg Host.Outcome.next (if_neg (Nat.not_le.2 hm))

/-! ## The supersampling factor (R233) -/

theorem supersample_pos (c : Config) : 0 < supersample c := Nat.le_max_left 1 _

theorem supersample_of_some {c : Config} {n : Nat} (h : c.ss = some n) : supersample c = max 1 n := by
  rw [supersample, h, Option.getD_some]

/-- The model's quotient of integers rounds `96000 / FS_OUT`, a half upwards (log entry 26). -/
theorem supersample_of_none {c : Config} (h : c.ss = none) :
    (supersample c : ℤ) = max 1 (round (96000 / c.fsOut.val)) := by
  have hn : (rateNum c : ℚ) ≠ 0 := Nat.cast_ne_zero.2 (rateNum_pos c).ne'
  have hd : (rateDen c : ℚ) ≠ 0 := Nat.cast_ne_zero.2 (rateDen_pos c).ne'
  have hq : (96000 / c.fsOut.val + 1 / 2 : ℚ) =
      ((2 * 96000 * rateDen c + rateNum c : ℕ) : ℚ) / ((2 * rateNum c : ℕ) : ℚ) := by
    rw [fsOut_eq]
    push_cast
    field_simp
    ring
  rw [supersample, h, Option.getD_none, Nat.cast_max, round_eq, hq, Rat.floor_natCast_div_natCast]
  rfl

/-! ## Phases as real numbers (R231, R234; log entry 23) -/

/-- The real number a phase stands for, in phase units. -/
noncomputable def phaseReal (u : Phase) : ℝ := ∑ j : Fin 48, (u[j.val] : ℝ) * (2 : ℝ) ^ ((j.val : ℝ) / 48)

/-- The read position a phase stands for, in buffer samples. -/
noncomputable def readPos (c : Config) (u : Phase) : ℝ := phaseReal u / phaseUnit c

/-- The one coefficient of `freqPhase`, times its root of two. -/
theorem phaseReal_freqPhase_eq (p : Byte) :
    phaseReal (freqPhase p) = freqScale p * (2 : ℝ) ^ (((freqRoot p).val : ℝ) / 48) := by
  rw [phaseReal, Finset.sum_eq_single (freqRoot p)]
  · simp [freqPhase]
  · intro j _ hj
    have hne : (freqRoot p).val ≠ j.val := fun e => hj (Fin.ext e.symm)
    simp [freqPhase, hne]
  · exact fun h => absurd (Finset.mem_univ _) h

/-- The pitch law: `p + 32 = 48 * quotient + remainder`, and `(p + 32) / 48 = (p - 64) / 48 + 2`. -/
theorem phaseReal_freqPhase (p : Byte) : phaseReal (freqPhase p) = 4000 * (2 : ℝ) ^ (((p.toNat : ℝ) - 64) / 48) := by
  have hdiv : (((p.toNat + 32) / 48 : ℕ) : ℝ) + (((p.toNat + 32) % 48 : ℕ) : ℝ) / 48 = ((p.toNat : ℝ) - 64) / 48 + 2 := by
    have h : ((48 * ((p.toNat + 32) / 48) + (p.toNat + 32) % 48 : ℕ) : ℝ) = (p.toNat + 32 : ℕ) := by rw [Nat.div_add_mod]
    push_cast at h ⊢
    linarith
  calc phaseReal (freqPhase p)
      = 1000 * ((2 : ℝ) ^ (((p.toNat + 32) / 48 : ℕ) : ℝ) * (2 : ℝ) ^ ((((p.toNat + 32) % 48 : ℕ) : ℝ) / 48)) := by
        rw [phaseReal_freqPhase_eq, freqScale, freqRoot, Real.rpow_natCast, Fin.val_ofNat]
        push_cast
        ring
    _ = 1000 * ((2 : ℝ) ^ (((p.toNat : ℝ) - 64) / 48) * (2 : ℝ) ^ (2 : ℝ)) := by
        rw [← Real.rpow_add two_pos, hdiv, Real.rpow_add two_pos]
    _ = 4000 * (2 : ℝ) ^ (((p.toNat : ℝ) - 64) / 48) := by
        rw [Real.rpow_two]
        ring

/-! ## One supersample (R232, R234, R235) -/

theorem phaseUnit_pos (c : Config) : 0 < phaseUnit c := Nat.mul_pos (rateNum_pos c) (supersample_pos c)

theorem phaseUnit_real (c : Config) : (phaseUnit c : ℝ) = c.fsOut.val.num * supersample c := by
  have h : ((rateNum c : ℕ) : ℤ) = c.fsOut.val.num := Int.toNat_of_nonneg (Rat.num_pos.2 c.fsOut.2).le
  rw [phaseUnit, ← h]
  push_cast
  rfl

/-- One step is `freq / (FS_OUT * SS)` samples. -/
theorem readPos_phaseStep (c : Config) (p : Byte) :
    readPos c (phaseStep c p) =
      4000 * (2 : ℝ) ^ (((p.toNat : ℝ) - 64) / 48) / ((c.fsOut.val : ℝ) * supersample c) := by
  have hr : phaseReal (phaseStep c p) = rateDen c * phaseReal (freqPhase p) := phaseScale_real _ _
  have hn : (rateNum c : ℝ) ≠ 0 := Nat.cast_ne_zero.2 (rateNum_pos c).ne'
  have hd : (rateDen c : ℝ) ≠ 0 := Nat.cast_ne_zero.2 (rateDen_pos c).ne'
  have hs : (supersample c : ℝ) ≠ 0 := Nat.cast_ne_zero.2 (supersample_pos c).ne'
  rw [readPos, hr, phaseReal_freqPhase, fsOut_eq, phaseUnit]
  push_cast
  field_simp

theorem readPos_phaseAdd (c : Config) (u v : Phase) : readPos c (phaseAdd u v) = readPos c u + readPos c v := by
  have h : phaseReal (phaseAdd u v) = phaseReal u + phaseReal v := phaseAdd_real u v
  rw [readPos, h, add_div]
  rfl

/-- `phaseFloor` takes the floor of the read position. -/
theorem phaseFloor_phaseUnit (c : Config) (u : Phase) : phaseFloor u (phaseUnit c) = ⌊readPos c u⌋ :=
  phaseFloor_eq u _ (phaseUnit_pos c)

/-- `phaseMod` by a whole number of samples is the reduction of the read position. -/
theorem readPos_phaseMod (c : Config) (u : Phase) {len : Nat} (hl : 0 < len) :
    readPos c (phaseMod u (len * phaseUnit c)) = readPos c u - ⌊readPos c u / len⌋ * len := by
  have hu : (phaseUnit c : ℝ) ≠ 0 := Nat.cast_ne_zero.2 (phaseUnit_pos c).ne'
  have hf : phaseFloor u (len * phaseUnit c) = ⌊readPos c u / len⌋ := by
    rw [phaseFloor_eq u _ (Nat.mul_pos hl (phaseUnit_pos c)), Nat.cast_mul, mul_comm (len : ℝ), ← div_div]
    rfl
  have hr : phaseReal (phaseMod u (len * phaseUnit c)) = phaseReal u - _ := phaseMod_real u _
  rw [readPos, hr, hf, sub_div, Nat.cast_mul, ← mul_assoc, mul_div_cancel_right₀ _ hu]
  rfl

/-- Where one supersample moves the read position: on by a step, then wrapped. -/
theorem readPos_superStep (c : Config) (q : Voice) (d : Dsp) (hb : 0 < q.buf.length) {x : ℝ}
    (hx : x = readPos c d.pos + readPos c (phaseStep c q.pitch)) :
    readPos c (superStep c q d).pos = x - ⌊x / q.buf.length⌋ * q.buf.length := by
  rw [hx, ← readPos_phaseAdd, superStep, readPos_phaseMod c _ hb]

/-- The filter takes in the sample at the floor of the read position. -/
theorem fed_superStep (c : Config) (q : Voice) (d : Dsp) :
    (superStep c q d).fed = sampleAt q.buf ⌊readPos c d.pos⌋ :: d.fed := by
  rw [← phaseFloor_phaseUnit]
  rfl

/-- One supersample is one step of `LPF`, whatever it is. -/
theorem filter_superStep {K : Type} [Field K] (f : AudioFunctions K) (c : Config) (q : Voice) (d : Dsp) :
    ((superStep c q d).fval f c, (superStep c q d).fvel f c) =
      f.lpf c (d.fval f c) (d.fvel f c) (sampleAt q.buf ⌊readPos c d.pos⌋) := by
  rw [Dsp.fval, Dsp.fvel, fed_superStep]
  rfl

/-! ## Rendering one voice (R230, R232, R236 to R238) -/

/-- An active voice renders each channel from that channel's state, which nothing else of it depends on. -/
theorem renderVoice_resume (c : Config) (d : Nat) {q : Voice} (h : q.count ≠ 0) (l r : Dsp) :
    renderVoice c d { q with dspL := l, dspR := r } =
      (((renderChannel c q (gain q 0) d l).1, (renderChannel c q (gain q 1) d r).1),
        { q with dspL := (renderChannel c q (gain q 0) d l).2, dspR := (renderChannel c q (gain q 1) d r).2 }) := by
  have hc : renderChannel c { q with dspL := l, dspR := r } = renderChannel c q :=
    funext₃ (renderChannel_congr c (q := { q with dspL := l, dspR := r }) (r := q) rfl rfl)
  rw [← hc]
  exact if_neg h

theorem renderVoice_active (c : Config) (d : Nat) {q : Voice} (h : q.count ≠ 0) :
    renderVoice c d q =
      (((renderChannel c q (gain q 0) d q.dspL).1, (renderChannel c q (gain q 1) d q.dspR).1),
        { q with dspL := (renderChannel c q (gain q 0) d q.dspL).2, dspR := (renderChannel c q (gain q 1) d q.dspR).2 }) :=
  renderVoice_resume c d h q.dspL q.dspR

/-- Rendering in two parts: an active voice resumes each channel where the first part left it. -/
theorem renderVoice_add (c : Config) (d1 d2 : Nat) (q : Voice) :
    renderVoice c (d1 + d2) q =
      (((renderVoice c d1 q).1.1 ++ (renderVoice c d2 (renderVoice c d1 q).2).1.1,
        (renderVoice c d1 q).1.2 ++ (renderVoice c d2 (renderVoice c d1 q).2).1.2),
        (renderVoice c d2 (renderVoice c d1 q).2).2) := by
  by_cases h : q.count = 0
  · simp only [renderVoice_expired c _ q h, List.replicate_append_replicate]
  · simp only [renderVoice_active c _ h, renderVoice_resume c d2 h, renderChannel_add c q _ d1 d2]

/-- The voice afterwards: each channel is `SS * d` supersamples on, unless the voice has expired. -/
theorem renderVoice_dsp (c : Config) (d : Nat) (q : Voice) :
    (renderVoice c d q).2 = if q.count = 0 then q else { q with
      dspL := (superStep c q)^[supersample c * d] q.dspL, dspR := (superStep c q)^[supersample c * d] q.dspR } := by
  split
  · next h => rw [renderVoice_expired c d q h]
  · next h => rw [renderVoice_active c d h, renderChannel_dsp, renderChannel_dsp]

section Values

variable {K : Type} [Field K] (f : AudioFunctions K) (c : Config)

@[simp] theorem value_silence : Sample.silence.value f c = 0 := rfl

/-- The number of a concatenation of samples is the sum of theirs (R237). -/
theorem value_flatMap {α : Type} (l : List α) (g : α → Sample) :
    Sample.value f c (l.flatMap g) = (l.map fun a => (g a).value f c).sum := by
  induction l with
  | nil => rfl
  | cons a l ih =>
    rw [List.map_cons, List.sum_cons, ← ih]
    simp only [Sample.value, List.flatMap_cons, List.map_append, List.sum_append]

/-- What a voice adds to sample `i` of a channel whose state was `d`: nothing once it has expired (R230), else its gain there
(R237) times `AMP` of the filter value after `SS * (i + 1)` supersamples (R236). -/
def voiceShare (q : Voice) (channel i : Nat) (d : Dsp) : K :=
  if q.count = 0 then 0 else
    (if q.chan.getLsbD channel then (q.vol.toNat : K) / 255 else 0) *
      f.amp c (((superStep c q)^[supersample c * (i + 1)] d).fval f c)

theorem gain_value (q : Voice) (channel : Nat) :
    ((gain q channel).toNat : K) / 255 = if q.chan.getLsbD channel then (q.vol.toNat : K) / 255 else 0 := by
  unfold gain
  split <;> simp

theorem renderChannel_value {q : Voice} (h : q.count ≠ 0) (channel : Nat) {n i : Nat} (hi : i < n) (d : Dsp) :
    ((renderChannel c q (gain q channel) n d).1.getD i Sample.silence).value f c = voiceShare f c q channel i d := by
  rw [renderChannel_getD c q _ n i hi d, voiceShare, if_neg h, ← gain_value]
  exact add_zero _

theorem silence_value (n i : Nat) : ((List.replicate n Sample.silence).getD i Sample.silence).value f c = 0 := by
  have h : (List.replicate n Sample.silence).getD i Sample.silence = Sample.silence := by simp
  rw [h, value_silence]

/-- Sample `i` of a voice, left and right. -/
theorem renderVoice_value (q : Voice) {n i : Nat} (hi : i < n) :
    ((renderVoice c n q).1.1.getD i Sample.silence).value f c = voiceShare f c q 0 i q.dspL ∧
    ((renderVoice c n q).1.2.getD i Sample.silence).value f c = voiceShare f c q 1 i q.dspR := by
  by_cases h : q.count = 0
  · simp only [renderVoice_expired c n q h, silence_value, voiceShare, if_pos h, and_self]
  · rw [renderVoice_active c n h]
    exact ⟨renderChannel_value f c h 0 hi _, renderChannel_value f c h 1 hi _⟩

end Values

/-! ## The chunk a `Render` enqueues (R232, R237) -/

/-- The chunk of `d` samples mixed from the voices `vs`. -/
def renderedChunk (c : Config) (d : Nat) (vs : Vector Voice 4) : Chunk where
  l := mix d ((vs.map (renderVoice c d)).toList.map (·.1.1))
  r := mix d ((vs.map (renderVoice c d)).toList.map (·.1.2))
  rd := 0
  remaining := d

theorem renderEvent_eq (d : Nat) (s : State) :
    renderEvent d s = (s.setVoices (s.voices.map fun q => (renderVoice s.cfg d q).2)).setQueue
      (trim s.cfg.queueTarget (s.queue ++ [renderedChunk s.cfg d s.voices])) := by
  unfold renderEvent
  dsimp only
  rw [Vector.map_map]
  rfl

theorem length_renderedChunk (c : Config) (d : Nat) (vs : Vector Voice 4) :
    (renderedChunk c d vs).l.length = d ∧ (renderedChunk c d vs).r.length = d := by
  obtain ⟨hl, hr⟩ := rendered_ok c d vs
  exact ⟨hl.trans (Nat.zero_add d), hr.trans (Nat.zero_add d)⟩

/-- A mix of one block per voice, as numbers: the sum of what the blocks say of each voice. -/
theorem mix_value {K : Type} [Field K] (f : AudioFunctions K) (c : Config) (vs : Vector Voice 4) {n i : Nat} (hi : i < n)
    {block : Voice → List Sample} (hl : ∀ q, (block q).length = n) {share : Voice → K}
    (hs : ∀ q, ((block q).getD i Sample.silence).value f c = share q) :
    ((mix n (vs.toList.map block)).getD i Sample.silence).value f c = ∑ k : Fin 4, share vs[k] := by
  have hlen : ∀ b ∈ vs.toList.map block, b.length = n := List.forall_mem_map.2 fun q _ => hl q
  have hof : vs.toList = List.ofFn fun k : Fin 4 => vs[k] := List.ext_getElem (by simp) fun i _ _ => by
    rw [List.getElem_ofFn, Vector.getElem_toList]
    rfl
  rw [mix_getD n i hi _ hlen, List.flatMap_map, value_flatMap, funext hs, hof, List.map_ofFn, List.sum_ofFn]
  rfl

theorem renderedChunk_value {K : Type} [Field K] (f : AudioFunctions K) (c : Config) (vs : Vector Voice 4) {n i : Nat}
    (hi : i < n) :
    ((renderedChunk c n vs).l.getD i Sample.silence).value f c = ∑ k : Fin 4, voiceShare f c vs[k] 0 i vs[k].dspL ∧
    ((renderedChunk c n vs).r.getD i Sample.silence).value f c = ∑ k : Fin 4, voiceShare f c vs[k] 1 i vs[k].dspR := by
  rw [renderedChunk, Vector.toList_map, List.map_map, List.map_map]
  exact ⟨mix_value f c vs hi (fun q => (length_renderVoice c n q).1) fun q => (renderVoice_value f c q hi).1,
    mix_value f c vs hi (fun q => (length_renderVoice c n q).2) fun q => (renderVoice_value f c q hi).2⟩

/-- With no active voice the chunk is silence (R230). -/
theorem renderedChunk_expired (c : Config) (n : Nat) {vs : Vector Voice 4} (h : ∀ k : Fin 4, vs[k].count = 0) :
    (renderedChunk c n vs).l = List.replicate n Sample.silence ∧
    (renderedChunk c n vs).r = List.replicate n Sample.silence := by
  have hblock : ∀ p ∈ (vs.map (renderVoice c n)).toList,
      p.1.1 = List.replicate n Sample.silence ∧ p.1.2 = List.replicate n Sample.silence := by
    rw [Vector.toList_map, List.forall_mem_map]
    intro q hq
    obtain ⟨k, hk, rfl⟩ := Vector.mem_iff_getElem.1 (Vector.mem_toList_iff.1 hq)
    have hk0 : vs[k].count = 0 := h ⟨k, hk⟩
    rw [renderVoice_expired c n _ hk0]
    exact ⟨rfl, rfl⟩
  exact ⟨mix_silence n _ (List.forall_mem_map.2 fun p hp => (hblock p hp).1),
    mix_silence n _ (List.forall_mem_map.2 fun p hp => (hblock p hp).2)⟩

/-! ## The obligations -/

/-- Settles O46: each is a hook and a write of the selected voice, or of `SEL`. -/
theorem voiceControls : Obligations.VoiceControls := fun x s =>
  ⟨rfl, ⟨_, rfl, emit_updateVoice_spec s _ _⟩, ⟨_, rfl, emit_updateVoice_spec s _ _⟩,
    _, _, rfl, chanMask_toNat s x, emit_updateVoice_spec s _ _⟩

/-- Settles O47: the range check, then a hook and a write of the selected voice's buffer, whose samples `unpack_getD` and
`unpackByte_getD` give. -/
theorem patternLoadUnpacks : Obligations.PatternLoadUnpacks := by
  rintro m s _ rfl
  refine ⟨fun hm hr bits hbits => ?_, fun hm hr => ?_, fun hm => ?_⟩
  · subst hbits
    obtain ⟨hmem, hframe, -, hvoice⟩ := emit_updateVoice_spec s (.onVoiceBufferLoad s.pattern (2 ^ m.toNat))
      fun q => { q with buf := unpack s.pattern (2 ^ m.toNat) }
    refine ⟨s.afterAudio m, s.pattern, ?_, length_pattern s, fun k hk => getD_pattern s hk, hmem, hframe,
      fun v hv => (hvoice v).trans (if_neg hv), fun v hv => ?_⟩
    · rw [exec_audio_of_legal hm, withRange_eq (.inr hr)]
    · have hself : (s.afterAudio m).voices[v] = _ := (hvoice v).trans (if_pos hv)
      rw [hself]
      refine ⟨rfl, (length_unpack _ _).trans (by rw [length_pattern]), fun k j hk hj => ?_⟩
      rw [unpack_getD _ _ k j ((length_pattern s).symm ▸ hk) hj, unpackByte_getD _ hm _ _ hj]
  · have hne : (s.cfg.patternBytes : Nat) ≠ 0 := (Nat.lt_of_succ_le s.cfg.patternBytes.2.1).ne'
    exact ⟨_, exec_audio_of_legal hm s, withRange_halt hne hr _⟩
  · refine ⟨_, _, exec_audio_of_illegal hm s, ?_, rfl⟩
    rw [wordXNN_toNat, show (0xF : BitVec 4).toNat = 15 from rfl]
    ring

/-- Settles O48: `phaseReal_freqPhase` is the pitch law, `readPos_superStep` the move of the read position, and the wrap
leaves a remainder below the length. -/
theorem pitchLawIsExact : Obligations.PitchLawIsExact := by
  intro real hreal
  obtain rfl : real = phaseReal := funext hreal
  refine ⟨fun c => ⟨fun n => supersample_of_some, supersample_of_none⟩, phaseReal_freqPhase, ?_⟩
  intro c q d samples hsamples hbuf k d' hk hd'
  obtain rfl : samples = readPos c := funext fun u => by rw [hsamples, readPos, phaseUnit_real]
  subst hk hd'
  have hlen : 0 < q.buf.length := List.length_pos_iff.2 hbuf
  have hlen' : (0 : ℝ) < q.buf.length := Nat.cast_pos.2 hlen
  obtain ⟨x, hx⟩ : ∃ x, x = readPos c d.pos + readPos c (phaseStep c q.pitch) := ⟨_, rfl⟩
  have hpos := readPos_superStep c q d hlen hx
  refine ⟨fun K _ f => ⟨filter_superStep f c q d, rfl, rfl⟩, ?_, ?_, ⌊x / q.buf.length⌋, ?_⟩
  · rw [hpos]
    exact Int.sub_floor_div_mul_nonneg x hlen'
  · rw [hpos]
    exact Int.sub_floor_div_mul_lt x hlen'
  · rw [hpos, hx, readPos_phaseStep]

/-- Settles O49: `renderVoice_add`. -/
theorem renderingIsContinuous : Obligations.RenderingIsContinuous := fun c q d1 d2 => by
  rw [renderVoice_add]
  exact ⟨rfl, rfl, rfl⟩

/-- Settles O50: the chunk's numbers by `renderedChunk_value`, the voices by `renderVoice_dsp`, the queue by `trim_spec`. -/
theorem renderAppendsOneChunk : Obligations.RenderAppendsOneChunk := by
  intro s d rest hev after hafter
  obtain rfl : after = fun q n => (superStep s.cfg q)^[supersample s.cfg * n] := funext₂ hafter
  obtain ⟨dropped, hq, hlast, htarget, hdropped⟩ := trim_spec s.cfg.queueTarget s.queue (renderedChunk s.cfg d s.voices)
  obtain ⟨hl, hr⟩ := length_renderedChunk s.cfg d s.voices
  have hstep := (step_of_event hev).trans (congrArg Host.Outcome.next (renderEvent_eq d _))
  refine ⟨_, renderedChunk s.cfg d s.voices, dropped, hstep, rfl, hl, hr, rfl, rfl, fun k => ?_,
    fun K _ f i hi => renderedChunk_value f s.cfg s.voices hi, hq, hlast, htarget, hdropped, renderedChunk_expired s.cfg d⟩
  exact (Vector.getElem_map _ k.isLt).trans (renderVoice_dsp s.cfg d s.voices[k])

/-- Settles O51: `pullFrom_spec`. -/
theorem pullTakesTheWaitingSamples : Obligations.PullTakesTheWaitingSamples := by
  intro s n rest hev hok waitL waitR hwaitL hwaitR
  obtain rfl : waitL = fun q => q.flatMap Chunk.waitL := funext hwaitL
  obtain rfl : waitR = fun q => q.flatMap Chunk.waitR := funext hwaitR
  obtain ⟨hl, hr, hleftL, hleftR, -⟩ := pullFrom_spec n s.queue hok
  refine ⟨_, _, _, step_of_event hev, rfl, ?_, ?_, hl, hr, hleftL, hleftR, fun K _ f => rfl⟩
  · rw [setEnv_queue, hl]
    simp
  · rw [setEnv_queue, hr]
    simp

end Sys2Proof.Machine

/-! PROOFS. Halts (60_exceptions.md): those of the fetch (R261, R262, R266), that an instruction's halt is precise (R270, R271),
and that only `Init` leaves one (R275, 70 R292). The fetch's are the cases of `fetch_cases` that read no instruction; for
preciseness "halts before it writes" is carried through the operations, then arm by arm through `exec`; the last goes event by
event. -/

namespace Sys2Proof.Machine

variable {s t u : State} {r : HaltReason}

/-! ## The halts of the fetch (R261, R262, R266) -/

/-- The group of a word alone tells with which reason the decoder refuses it. -/
theorem illegalReason_of_decodeWord {e : Encodings} {w : Word} {why : IllegalWord} (h : decodeWord e w = .error why) :
    why = illegalReason w := by
  have hs := decodeWord_spec e w
  rw [h] at hs
  cases hs
  rfl

/-- 0xF000 is in no group whose illegal words are machine codes. -/
theorem ne_longLiteral_of_unknownMachineCode {e : Encodings} {w v : Word}
    (h : decodeWord e w = .error (.unknownMachineCode v)) : w ≠ longLiteral := by
  rintro rfl
  have hw : illegalReason longLiteral = .unknownOpcode longLiteral := by decide
  exact absurd ((illegalReason_of_decodeWord h).trans hw) nofun

theorem fetch_of_first_word_out_of_range (hm : s.memSize ≤ s.pc.toNat + 1) :
    fetch s = (raiseHalt (.accessOutOfRange (s.pc.toNat + 1)) s, none) := by
  rcases fetch_cases s with ⟨_, hj, -⟩ | ⟨_, hj, -⟩ | ⟨_, -, hj, -⟩ | ⟨_, -, hj, -⟩ | ⟨-, hf⟩
  · omega
  · omega
  · omega
  · omega
  · exact hf

theorem fetch_of_illegal {why : IllegalWord} (hm : s.pc.toNat + 1 < s.memSize) (hl : s.readWord s.pc.toNat ≠ longLiteral)
    (hd : decodeWord s.cfg.enc (s.readWord s.pc.toNat) = .error why) :
    fetch s = (raiseHalt (haltOfIllegal why) (s.setPc (s.pc.toNat + 2)), none) := by
  rcases fetch_cases s with ⟨_, -, -, hj, -⟩ | ⟨_, -, -, hj, hf⟩ | ⟨_, -, -, hj, -⟩ | ⟨_, -, -, hj, -⟩ | ⟨hj, -⟩
  · cases hj.symm.trans hd
  · cases hj.symm.trans hd
    exact hf
  · exact absurd hj hl
  · exact absurd hj hl
  · omega

/-! ## Precise halts (R270, R271): one rule per operation -/

/-- `RUN` stays as it was, or the machine halts with nothing written but `RUN` and no hook emitted; a port may have been
consulted. -/
def RunKeptOrPreciseHalt (s t : State) : Prop :=
  t.run = s.run ∨ ∃ r, t = { s with run := .halted r, env := t.env } ∧ t.env.out = s.env.out

theorem raiseHalt_precise (r : HaltReason) (s : State) : RunKeptOrPreciseHalt s (raiseHalt r s) := .inr ⟨r, rfl, rfl⟩

theorem RunKeptOrPreciseHalt.ite {c : Prop} [Decidable c] (ht : RunKeptOrPreciseHalt s t) (hu : RunKeptOrPreciseHalt s u) :
    RunKeptOrPreciseHalt s (if c then t else u) := by
  split
  · exact ht
  · exact hu

/-- The range is checked before anything is written (20 R64). -/
theorem RunKeptOrPreciseHalt.withRange (h : t.run = s.run) (a n : Nat) : RunKeptOrPreciseHalt s (s.withRange a n t) :=
  .ite (.inl h) (raiseHalt_precise _ s)

theorem skipIf_precise (s : State) (c : Bool) : RunKeptOrPreciseHalt s (skipIf c s) :=
  .ite (.withRange (setPc_run s _) _ _) (.inl rfl)

/-- A sample of `KEY_HELD` counts as no write and emits no hook. -/
theorem RunKeptOrPreciseHalt.of_afterKeySample (h : RunKeptOrPreciseHalt s.afterKeySample t) : RunKeptOrPreciseHalt s t := h

/-! ## Precise halts: every instruction -/

/-- A next state is one that `RunKeptOrPreciseHalt` allows. -/
def NextRunKeptOrPreciseHalt (s : State) (o : Host.Outcome State Fault Refusal) : Prop :=
  ∀ t, o = .next t → RunKeptOrPreciseHalt s t

theorem nextPrecise_next (h : RunKeptOrPreciseHalt s t) : NextRunKeptOrPreciseHalt s (.next t) := by
  rintro _ ⟨⟩
  exact h

theorem execRet_nextPrecise (s : State) : NextRunKeptOrPreciseHalt s (execRet s) := by
  refine nextPrecise_next ?_
  split
  · exact raiseHalt_precise _ s
  · exact .inl rfl

/-- Arm by arm: the halt is in the one check that precedes the writes. 00FD and FX0A act on the run state. -/
theorem exec_nextPrecise {i : Instr} (he : i ≠ .exit) (hk : ∀ x, i ≠ .ldVxK x) (s : State) :
    NextRunKeptOrPreciseHalt s (exec i s) := by
  cases i with
  | exit => exact absurd rfl he
  | ldVxK x => exact absurd rfl (hk x)
  | ret => exact execRet_nextPrecise s
  | call | plane => exact nextPrecise_next (.ite (raiseHalt_precise _ s) (.inl rfl))
  | audio => exact nextPrecise_next (.ite (.withRange (by simp) _ _) (raiseHalt_precise _ s))
  | seImm | sneImm | seReg | sneReg => exact nextPrecise_next (skipIf_precise s _)
  | skp | sknp => exact nextPrecise_next (skipIf_precise s.afterKeySample _).of_afterKeySample
  | drw | pal | ldB | save | load | storeRegs | loadRegs => exact nextPrecise_next (.withRange (by simp) _ _)
  | or | and | xor | ldStVx | pitch | vol | chan | flagsIn => exact nextPrecise_next (.inl (by simp))
  | flagsOut => exact nextPrecise_next (.inl (foldl_saveFlag_run s _))
  | scd | scu | cls | inv | scr | scl | low | high | dmor | dmand | dmxor | jp | jpOff | ldImm | addImm | ldReg | ldVxDt | rnd
  | addReg | sub | shr | subn | mul | div | shl | divn | ldI | ldl | addI | ldF | ldHf | ldDtVx | voice =>
    exact nextPrecise_next (.inl rfl)

/-! ## What is left of a halted core by an event (R275, R276) -/

/-- `RUN`, `pc`, the registers, memory, the stack, `I` and the planes are as before. -/
def SameHaltedCore (s t : State) : Prop :=
  t.run = s.run ∧ t.pc = s.pc ∧ t.v = s.v ∧ t.mem = s.mem ∧ t.stack = s.stack ∧ t.i = s.i ∧ t.planes = s.planes

theorem SameHaltedCore.refl (s : State) : SameHaltedCore s s := ⟨rfl, rfl, rfl, rfl, rfl, rfl, rfl⟩

theorem tick_of_halted (hr : s.run = .halted r) : tick s = .next s := tick_of_not_running (by simp [hr])

/-- Of the events only a `Tick` and a key release look at `RUN`, and both leave a halted core alone. -/
theorem deliver_of_halted (hr : s.run = .halted r) {e : Event} (he : ∀ program c, e ≠ .init program c) :
    ∃ t, deliver e s = .next t ∧ SameHaltedCore s t := by
  cases e with
  | init program c => exact absurd rfl (he program c)
  | tick => exact ⟨s, tick_of_halted hr, .refl s⟩
  | keyRelease code => exact ⟨s, congrArg Host.Outcome.next (keyRelease_of_not_waiting (by simp [hr]) code), .refl s⟩
  | timerTick | keys | render | pull => exact ⟨_, rfl, .refl s⟩

theorem step_of_halted (hr : s.run = .halted r) (he : ∀ program c rest, s.env.events ≠ .init program c :: rest) :
    ∃ t, step s = .next t ∧ SameHaltedCore s t := by
  cases hev : s.env.events with
  | nil => exact ⟨s, (step_of_tickNext (.inl ⟨hev, rfl⟩)).trans (tick_of_halted hr), .refl s⟩
  | cons e rest =>
    rw [step_of_event hev]
    exact deliver_of_halted (s := s.setEnv { s.env with events := rest }) hr fun program c h => he program c rest (h ▸ hev)

/-! ## The obligations -/

/-- Settles O7: the step is a `tick` of `s'`, whose fetch halts where that of `s` would. -/
theorem fetchHalts : Obligations.FetchHalts := fun s s' h hr => by
  rw [step_of_tickNext h]
  simp only [← tickNext_pc h, ← tickNext_memSize h, ← tickNext_readWord h, ← tickNext_cfg h, ← tickNext_run h] at *
  refine ⟨fun hm => tick_of_fetch_none hr (fetch_of_first_word_out_of_range hm), ?_⟩
  rintro hm p rfl
  refine ⟨fun hl hm' => tick_of_fetch_none hr (fetch_of_truncated_longLiteral rfl hm hl hm'), ?_, ?_⟩
  · rintro w rfl hl hd
    exact tick_of_fetch_none hr (fetch_of_illegal hm hl hd)
  · rintro w rfl hd
    exact tick_of_fetch_none hr (fetch_of_illegal hm (ne_longLiteral_of_unknownMachineCode hd) hd)

/-- Settles O58: `exec_nextPrecise`, with 00FD, which halts with `Exit`, and FX0A, which waits, apart. -/
theorem haltsArePrecise : Obligations.HaltsArePrecise := fun i s t r hr h ht hne => by
  by_cases he : i = .exit
  · subst he
    cases h
    cases ht
    exact absurd rfl hne
  by_cases hk : ∃ x, i = .ldVxK x
  · obtain ⟨x, rfl⟩ := hk
    cases h
    cases ht
  obtain hrun | ⟨q, hq, hout⟩ := exec_nextPrecise he (not_exists.1 hk) s t h
  · cases hr.symm.trans (hrun.symm.trans ht)
  · have hqr : RunState.halted q = .halted r := (congrArg State.run hq).symm.trans ht
    exact ⟨hqr ▸ hq, hout⟩

/-- Settles O60: `step_of_halted`, unless the event is an `Init`. -/
theorem haltedUntilInit : Obligations.HaltedUntilInit := fun s t r hr h => by
  refine or_iff_not_imp_right.2 fun he => ?_
  obtain ⟨u, hu, hrun, hrest⟩ := step_of_halted hr fun program c rest hev => he ⟨program, c, rest, hev⟩
  cases h.symm.trans hu
  exact ⟨hrun.trans hr, hrest⟩

end Sys2Proof.Machine

/-! PROOFS. `Init` (70_reset_and_hazards.md R290, R292, R297): a program within the bounds gives the reset values of
10_state.md R47 and the memory map of 20_memory.md R62 with the program at 0x200; a longer one is refused. The program's store
touches memory only, so the reset values are those of `State.initial`, and a byte outside the program reads as
`initByte`. -/

namespace Sys2Proof.Machine

variable {s : State} {program : List Byte} {c : Config} {rest : List Event}

/-! ## The two answers to an `Init` (R290, R297) -/

theorem initAccepts_iff : initAccepts program c = true ↔
    program.length ≤ c.maxProgramSize ∧ program.length ≤ memSize c - 0x200 := by simp [initAccepts]

theorem step_of_accepted_init (h : s.env.events = .init program c :: rest) (ha : initAccepts program c = true) :
    step s = .next (initCore program c (s.setEnv { s.env with events := rest })) :=
  (step_of_event h).trans (if_pos ha)

theorem step_of_refused_init (h : s.env.events = .init program c :: rest) (ha : ¬ initAccepts program c = true) :
    step s = .refused .initProgramTooLong := (step_of_event h).trans (if_neg ha)

/-! ## The fields after `Init` (10 R47) -/

/-- The program's store leaves every field but memory at its reset value. -/
theorem initCore_fields (program : List Byte) (c : Config) (s : State) :
    initCore program c s = { State.initial c s.env with mem := (initCore program c s).mem } := writeBytes_fields ..

/-! ## Memory after `Init` (20 R62) -/

theorem initByte_fontSmall (c : Config) (k : Fin 80) : initByte c k.val = c.fontSmall[k] := dif_pos k.isLt

theorem initByte_fontBig (c : Config) (k : Fin 160) : initByte c (80 + k.val) = c.fontBig[k] := by
  simp [initByte, Config.bigFontBase]

theorem initByte_above_fonts (c : Config) {a : Nat} (ha : 0xF0 ≤ a) : initByte c a = 0 :=
  (dif_neg (by omega)).trans (dif_neg (by unfold Config.bigFontBase; omega))

theorem readByte_initCore_program (program : List Byte) (c : Config) (s : State) (k : Nat) (hk : k < program.length) :
    (initCore program c s).readByte (0x200 + k) = program.getD k 0 :=
  (readByte_writeBytes_place _ _ hk).trans (List.getD_eq_getElem _ _ hk).symm

theorem readByte_initCore_outside (program : List Byte) (c : Config) (s : State) (a : Nat)
    (ha : a < 0x200 ∨ 0x200 + program.length ≤ a) : (initCore program c s).readByte a = initByte c a :=
  readByte_writeBytes_outside _ _ _ _ ha

/-! ## The obligations -/

/-- Settles O52: the fields are those of `State.initial`, and memory is read inside the program and outside it. -/
theorem initResetsTheCore : Obligations.InitResetsTheCore := fun s program c rest h hmax hmem => by
  have hstep := step_of_accepted_init h (initAccepts_iff.2 ⟨hmax, hmem⟩)
  have hin := readByte_initCore_program program c (s.setEnv { s.env with events := rest })
  have hout := readByte_initCore_outside program c (s.setEnv { s.env with events := rest })
  rw [initCore_fields] at hstep hin hout
  refine ⟨_, hstep, rfl, rfl, rfl, rfl, rfl, rfl, fun r => Vector.getElem_replicate _, cell_replicate, rfl, rfl, rfl, rfl,
    fun k => Vector.getElem_replicate _, rfl, fun k => Vector.getElem_replicate _, rfl, rfl, rfl, fun k => ?_, fun k => ?_,
    hin, fun a ha hfree => ?_⟩
  · exact (hout _ (.inl (by omega))).trans (initByte_fontSmall c k)
  · exact (hout _ (.inl (by omega))).trans (initByte_fontBig c k)
  · exact (hout a hfree).trans (initByte_above_fonts c ha)

/-- Settles O53: either bound exceeded, `initAccepts` fails. -/
theorem initRefusesALongProgram : Obligations.InitRefusesALongProgram := fun s program c rest h hlong =>
  step_of_refused_init h fun ha => by
    obtain ⟨hmax, hmem⟩ := initAccepts_iff.1 ha
    exact hlong.elim hmax.not_gt hmem.not_gt

end Sys2Proof.Machine
